-- ==== Sys2Proof/Word.lean ====
section
/-! DEFINITION. Word types: the widths of the registers, addresses and bus data (spec 00_scope.md R14, R16). -/

namespace Sys2Proof

/-- One byte of main memory or of the ARAM store. -/
abbrev Byte := BitVec 8

/-- `u16`: one register of the bank (R14). -/
abbrev Half := BitVec 16

/-- `u32`: a pair of registers, or a main-memory or ARAM address (R14). -/
abbrev Word := BitVec 32

/-- A 64-bit value on the secondary auxiliary bus (20_memory.md R89). -/
abbrev DWord := BitVec 64

/-- Bytes by address, in the canonical form `Memory.wf` (Machine/Memory.lean). -/
abbrev Memory := List (Nat × Byte)

end Sys2Proof
end

