-- ==== Sys2Proof/Config.lean ====
section
/-! DEFINITION. What one instance of the block fixes (spec 00_scope.md R3, R4, R13), and the free values the spec leaves open.
The constants of R12 stand in Machine/Constants.lean. -/

namespace Sys2Proof

/-- A set of interrupt kinds: A audio DMA, B ARAM DMA, C DSP core (00_scope.md R21, 41_control_interrupt.md R180). -/
structure KindSet where
  a : Bool
  b : Bool
  c : Bool
deriving DecidableEq, Repr

/-- `GRANULE_ORDER` (20_memory.md R91). -/
inductive GranuleOrder where
  | preserve
  | reverse
deriving DecidableEq, Repr

/-- A run of main-memory addresses that hold memory (20_memory.md R85). -/
structure Region where
  base : Nat
  size : Nat
deriving DecidableEq, Repr

/-- A set of accesses: those whose first address lies in a run of addresses and whose length lies between two bounds. -/
structure RunRule where
  base : Nat
  size : Nat
  minLen : Nat
  maxLen : Nat
deriving DecidableEq, Repr

/-- `MAIN_MAP`, a predicate on an address and a length (20_memory.md R85), as plain data (log 3).  Every predicate on the lengths
below a bound is a list of rules (`mainMap_any` in Laws/Operands.lean); the regions are the form a platform mostly has. -/
inductive MainMap where
  /-- An access is admitted when every byte of it lies in a region. -/
  | regions (list : List Region)
  /-- An access is admitted when some rule holds it. -/
  | runs (list : List RunRule)
deriving DecidableEq, Repr, Inhabited

/-- The parameters of one instance, fixed for its life (00_scope.md R13). `State` carries them, and no step writes them (log 1). -/
structure Params where
  /-- `UNIFIED` (R3). -/
  unified : Bool
  /-- `CORE_CYCLE_STEPPED` (R4). -/
  coreCycleStepped : Bool
  /-- `ARAM_SIZE`. -/
  aramSize : Nat
  /-- `AR_CNT_LO_WMASK`. -/
  arCntLoWmask : Half
  /-- `UNMAPPED_READ16`. -/
  unmappedRead16 : Half
  /-- `DEVICE_BASE`. -/
  deviceBase : Word
  /-- `WINDOW_BYTES`. -/
  windowBytes : Nat
  /-- `CORE_CTRL_MASK`. -/
  coreCtrlMask : Half
  /-- `GRANULE_ORDER`. -/
  granuleOrder : GranuleOrder
  /-- `CORE_IRQ_KINDS`. -/
  coreIrqKinds : KindSet
  /-- `MAIN_MAP` (log 3). -/
  mainMap : MainMap
  /-- `AR_MODE_RESET`. -/
  arModeReset : Half
  /-- `AR_REFRESH_RESET`. -/
  arRefreshReset : Half
  /-- The shape the attached core gives its own snapshot item (45_host_events.md R307, log 20). -/
  coreShape : Nat
deriving DecidableEq, Repr

/-- What R13 requires of the parameters: `ARAM_SIZE` a power of two from 8 to 2^26, bits 2:0 of `AR_CNT_LO_WMASK` clear,
`WINDOW_BYTES` even and at least 0x40, `CORE_IRQ_KINDS` not empty. -/
abbrev Params.wf (p : Params) : Prop :=
  (∃ k : Fin 27, 3 ≤ k.val ∧ p.aramSize = 2 ^ k.val) ∧ p.arCntLoWmask &&& 0x0007#16 = 0 ∧
  p.windowBytes % 2 = 0 ∧ 0x40 ≤ p.windowBytes ∧
  p.coreIrqKinds ≠ ⟨false, false, false⟩

namespace Config

/-- FREE VALUE: the answer of an external collaborator to the n-th call that no input answers (20_memory.md R93, log 6). -/
opaque freeAnswer : Nat → Nat

/-- FREE VALUE: the bytes a freshly allocated ARAM buffer holds (10_state.md R56, R66, log 8). -/
opaque freshAram : Nat → List (Nat × Byte)

/-- FREE VALUE: the bytes main memory holds at reset (70_reset_and_hazards.md R372, log 7). -/
opaque powerOnMain : List (Nat × Byte)

/-- FREE VALUE: the bytes the ARAM store holds at reset (70_reset_and_hazards.md R372, log 7). -/
opaque powerOnAram : List (Nat × Byte)

/-- OPEN parameter `UNMAPPED_READ16` of the reset instance (R13, log 2). -/
opaque unmappedRead16 : Half

/-- OPEN parameter `DEVICE_BASE` of the reset instance (R13, log 2). -/
opaque deviceBase : Word

/-- OPEN parameter `WINDOW_BYTES` of the reset instance, as the half of its excess over 0x40 (R13, log 2). -/
opaque windowExcess : Nat

/-- OPEN parameter `MAIN_MAP` of the reset instance (R13, log 2). -/
opaque mainMap : MainMap

/-- The core's snapshot shape in the reset instance (R307, log 2). -/
opaque coreShape : Nat

end Config

/-- The instance `State.reset` stands for: the values of R13 and of 95_test_vectors.md's opening list, with every `OPEN`
parameter a constant that has no body (logs 1, 2). -/
def Params.standard : Params where
  unified := false
  coreCycleStepped := false
  aramSize := 0x01000000
  arCntLoWmask := 0xFFE0
  unmappedRead16 := Config.unmappedRead16
  deviceBase := Config.deviceBase
  windowBytes := 0x40 + 2 * Config.windowExcess
  coreCtrlMask := 0x0C07
  granuleOrder := .preserve
  coreIrqKinds := ⟨false, false, true⟩
  mainMap := Config.mainMap
  arModeReset := 0x0001
  arRefreshReset := 0x009C
  coreShape := Config.coreShape

end Sys2Proof
end

