-- ==== Sys2Proof/Syntax.lean ====
section
/-! DEFINITION. The steps of the block as syntax: one constructor of `Instr` for each row of spec/opcode_table.json
(30_encoding.md R110 to R115), and the data their operands carry. -/

namespace Sys2Proof

/-- A mapped register of the bank (30_encoding.md R120). -/
inductive Reg where
  | mboxToHi | mboxToLo | mboxFromHi | mboxFromLo
  | ctrl | arInfo | arMode | arRefresh
  | arMmHi | arMmLo | arArHi | arArLo | arCntHi | arCntLo
  | auSrcHi | auSrcLo | auCtl | auLeft
deriving DecidableEq, Repr

/-- The two event kinds of the scheduler (45_host_events.md R291). -/
inductive EventKind where
  | dspInt
  | aramInt
deriving DecidableEq, Repr

/-- A callback: its kind with its payload (10_state.md R57). -/
inductive Callback where
  /-- `DSPINT`, payload a set of interrupt kinds. -/
  | dspInt (kinds : KindSet)
  /-- `ARAMINT`, no payload. -/
  | aramInt
deriving DecidableEq, Repr

/-- The thread a request came from (10_state.md R57). -/
inductive Origin where
  | emu
  | worker
deriving DecidableEq, Repr

/-- One entry of `pending` (10_state.md R57). -/
structure Entry where
  what : Callback
  due : Nat
  origin : Origin
  seq : Nat
deriving DecidableEq, Repr

/-- The core's own snapshot, item 8 of a snapshot (45_host_events.md R305): its shape as the core defines it, and the rest (log 20). -/
structure CoreImage where
  shape : Nat
  content : Nat
deriving DecidableEq, Repr

/-- Item 1 of a snapshot: the ARAM bytes 0 to `size - 1`; a byte not listed reads as in `Memory.read` (log 19). -/
structure AramImage where
  size : Nat
  cells : Memory
deriving DecidableEq, Repr

/-- A snapshot: the items of 45_host_events.md R305 in their order. -/
structure Snapshot where
  /-- Item 1, absent when `UNIFIED`. -/
  aram : Option AramImage
  /-- Item 2. -/
  ctrl : Half
  /-- Item 3: AudioDMAState. -/
  auSrc : Word
  auCtl : Half
  auCur : Word
  auRem : BitVec 15
  /-- Item 4: AuxDMAState. -/
  arMm : Word
  arAr : Word
  arCnt : Word
  /-- Item 5. -/
  arInfo : Half
  /-- Item 6. -/
  arMode : Half
  arRefresh : Half
  /-- Item 7. -/
  dspSlice : Int
  /-- Item 8. -/
  core : CoreImage
deriving DecidableEq, Repr

/-- One step of the block, with its operand (30_encoding.md R110 to R114). -/
inductive Instr where
  -- mailbox bridge (44_mailbox.md)
  | rd16MboxToHi
  | wr16MboxToHi (v : Half)
  | rd16MboxToLo
  | wr16MboxToLo (v : Half)
  | rd16MboxFromHi
  | wr16MboxFromHi (v : Half)
  | rd16MboxFromLo
  | wr16MboxFromLo (v : Half)
  -- ControlRegister (41_control_interrupt.md)
  | rd16Ctrl
  | wr16Ctrl (v : Half)
  -- register bank (40_register_bank.md)
  | rd16ArInfo
  | wr16ArInfo (v : Half)
  | rd16ArMode
  | wr16ArMode (v : Half)
  | rd16ArRefresh
  | wr16ArRefresh (v : Half)
  -- ARAM DMA registers (43_aram_dma.md)
  | rd16ArMmHi
  | wr16ArMmHi (v : Half)
  | rd16ArMmLo
  | wr16ArMmLo (v : Half)
  | rd16ArArHi
  | wr16ArArHi (v : Half)
  | rd16ArArLo
  | wr16ArArLo (v : Half)
  | rd16ArCntHi
  | wr16ArCntHi (v : Half)
  | rd16ArCntLo
  | wr16ArCntLo (v : Half)
  -- audio DMA registers (42_audio_dma.md)
  | rd16AuSrcHi
  | wr16AuSrcHi (v : Half)
  | rd16AuSrcLo
  | wr16AuSrcLo (v : Half)
  | rd16AuCtl
  | wr16AuCtl (v : Half)
  | rd16AuLeft
  | wr16AuLeft (v : Half)
  -- unmapped offsets and 32-bit accesses (40_register_bank.md)
  | rd16Unmapped (off : Half)
  | wr16Unmapped (off v : Half)
  | rd32 (off : Half)
  | wr32 (off : Half) (d : Word)
  -- events (30_encoding.md R114)
  | tick
  | fireDspint (seq : Nat)
  | fireAramint (seq : Nat)
  | coreIrq (delay : Nat) (kinds : KindSet)
  | sliceCredit (n : Nat)
  | advance (t : Nat)
  | init
  | shutdown
  | snapshot
  | restore (snap : Snapshot) (queue : List Entry)
deriving DecidableEq, Repr

end Sys2Proof
end

