-- ==== Sys2Proof/Decode.lean ====
section
/-! DEFINITION. The decoder and the encoder of steps (spec 30_encoding.md R110 to R116, R120, R124 to R126).
A step stands as its key in three bytes (bits 18:0 the key, bits 23:19 zero, log 13) beside its operand. -/

namespace Sys2Proof

/-- Every mapped register, in the order of the register map (R120). -/
def Reg.all : List Reg :=
  [.mboxToHi, .mboxToLo, .mboxFromHi, .mboxFromLo, .ctrl, .arInfo, .arMode, .arRefresh, .arMmHi, .arMmLo,
   .arArHi, .arArLo, .arCntHi, .arCntLo, .auSrcHi, .auSrcLo, .auCtl, .auLeft]

/-- The register map's offsets (R120). -/
def Reg.offset : Reg → Half
  | .mboxToHi => 0x5000
  | .mboxToLo => 0x5002
  | .mboxFromHi => 0x5004
  | .mboxFromLo => 0x5006
  | .ctrl => 0x500A
  | .arInfo => 0x5012
  | .arMode => 0x5016
  | .arRefresh => 0x501A
  | .arMmHi => 0x5020
  | .arMmLo => 0x5022
  | .arArHi => 0x5024
  | .arArLo => 0x5026
  | .arCntHi => 0x5028
  | .arCntLo => 0x502A
  | .auSrcHi => 0x5030
  | .auSrcLo => 0x5032
  | .auCtl => 0x5036
  | .auLeft => 0x503A

/-- The register mapped at an offset, if any (R120, R121). -/
def Reg.ofOffset (off : Half) : Option Reg :=
  Reg.all.find? fun r => r.offset == off

/-- The row that reads a mapped register. -/
def Reg.rd16 : Reg → Instr
  | .mboxToHi => .rd16MboxToHi
  | .mboxToLo => .rd16MboxToLo
  | .mboxFromHi => .rd16MboxFromHi
  | .mboxFromLo => .rd16MboxFromLo
  | .ctrl => .rd16Ctrl
  | .arInfo => .rd16ArInfo
  | .arMode => .rd16ArMode
  | .arRefresh => .rd16ArRefresh
  | .arMmHi => .rd16ArMmHi
  | .arMmLo => .rd16ArMmLo
  | .arArHi => .rd16ArArHi
  | .arArLo => .rd16ArArLo
  | .arCntHi => .rd16ArCntHi
  | .arCntLo => .rd16ArCntLo
  | .auSrcHi => .rd16AuSrcHi
  | .auSrcLo => .rd16AuSrcLo
  | .auCtl => .rd16AuCtl
  | .auLeft => .rd16AuLeft

/-- The row that writes a mapped register. -/
def Reg.wr16 (r : Reg) (v : Half) : Instr :=
  match r with
  | .mboxToHi => .wr16MboxToHi v
  | .mboxToLo => .wr16MboxToLo v
  | .mboxFromHi => .wr16MboxFromHi v
  | .mboxFromLo => .wr16MboxFromLo v
  | .ctrl => .wr16Ctrl v
  | .arInfo => .wr16ArInfo v
  | .arMode => .wr16ArMode v
  | .arRefresh => .wr16ArRefresh v
  | .arMmHi => .wr16ArMmHi v
  | .arMmLo => .wr16ArMmLo v
  | .arArHi => .wr16ArArHi v
  | .arArLo => .wr16ArArLo v
  | .arCntHi => .wr16ArCntHi v
  | .arCntLo => .wr16ArCntLo v
  | .auSrcHi => .wr16AuSrcHi v
  | .auSrcLo => .wr16AuSrcLo v
  | .auCtl => .wr16AuCtl v
  | .auLeft => .wr16AuLeft v

/-- The snapshot an absent operand stands for. -/
def Snapshot.blank : Snapshot :=
  ⟨none, 0, 0, 0, 0, 0, 0, 0, 0, 0, 0, 0, 0, ⟨0, 0⟩⟩

/-- The operand that travels beside a key (R112 to R115); a step reads the parts its row names and no other (log 16). -/
structure Operand where
  /-- Write data: the whole word for `WR32`, its low half for `WR16`. -/
  data : Word := 0
  /-- `seq`, `delay`, `n` or `t` of an event, a natural taken whole (R115). -/
  nat : Nat := 0
  /-- The kinds of a `CORE_IRQ`. -/
  kinds : KindSet := ⟨false, false, false⟩
  /-- The snapshot of a `RESTORE`. -/
  snap : Snapshot := Snapshot.blank
  /-- The scheduler's restored queue, for a `RESTORE`. -/
  queue : List Entry := []
deriving DecidableEq, Repr

/-- Why a key or an access shape is no step (60_exceptions.md R335). -/
inductive DecodeError where
  /-- `ReservedEncoding(K)` (R111). -/
  | reservedEncoding (key : Nat)
  /-- `UnsupportedAccess(width, offset)` (20_memory.md R94). -/
  | unsupportedAccess (width offset : Nat)
deriving DecidableEq, Repr

/-- The 16-bit data of a write (R112). -/
def Operand.half (op : Operand) : Half := op.data.setWidth 16

/-- A `BUS16` key: the mapped row first, else the unmapped row at an even offset (R116, log 14); an odd offset is refused (R94). -/
def decodeBus16 (w : Bool) (off : Half) (op : Operand) : Except DecodeError Instr :=
  match Reg.ofOffset off with
  | some r => .ok (if w then r.wr16 op.half else r.rd16)
  | none =>
    if off.getLsbD 0 then .error (.unsupportedAccess 16 off.toNat)
    else .ok (if w then .wr16Unmapped off op.half else .rd16Unmapped off)

/-- A `BUS32` key: an offset that is not a multiple of 4 is refused (R94, R113). -/
def decodeBus32 (w : Bool) (off : Half) (op : Operand) : Except DecodeError Instr :=
  if off.extractLsb' 0 2 = 0 then .ok (if w then .wr32 off op.data else .rd32 off)
  else .error (.unsupportedAccess 32 off.toNat)

/-- An `EVENT` key by its code (R114). -/
def decodeEvent (key : Nat) (code : Half) (op : Operand) : Except DecodeError Instr :=
  match code.toNat with
  | 0x0001 => .ok .tick
  | 0x0002 => .ok (.fireDspint op.nat)
  | 0x0003 => .ok (.fireAramint op.nat)
  | 0x0004 => .ok (.coreIrq op.nat op.kinds)
  | 0x0005 => .ok (.sliceCredit op.nat)
  | 0x0006 => .ok (.advance op.nat)
  | 0x0007 => .ok .init
  | 0x0008 => .ok .shutdown
  | 0x0009 => .ok .snapshot
  | 0x000A => .ok (.restore op.snap op.queue)
  | _ => .error (.reservedEncoding key)

/-- The decoder, total (R116): the class is bits 18:17 (with the padding bits above them zero), `W` bit 16, the offset or
code bits 15:0 (R111). -/
def decode (word : BitVec 24) (op : Operand) : Except DecodeError Instr :=
  match (word.extractLsb' 17 7).toNat with
  | 0 => decodeBus16 (word.getLsbD 16) (word.extractLsb' 0 16) op
  | 1 => decodeBus32 (word.getLsbD 16) (word.extractLsb' 0 16) op
  | 2 =>
    if word.getLsbD 16 then .error (.reservedEncoding word.toNat)
    else decodeEvent word.toNat (word.extractLsb' 0 16) op
  | _ => .error (.reservedEncoding word.toNat)

/-- A key and its operand. -/
structure Encoded where
  word : BitVec 24
  operand : Operand
deriving DecidableEq, Repr

/-- The key's fields side by side (R111). -/
def keyWord (cls : BitVec 7) (w : Bool) (off : Half) : BitVec 24 :=
  cls ++ BitVec.ofBool w ++ off

/-- A 16-bit read (R112). -/
def encodeRd16 (r : Reg) : Encoded := ⟨keyWord 0 false r.offset, {}⟩

/-- A 16-bit write (R112). -/
def encodeWr16 (r : Reg) (v : Half) : Encoded :=
  ⟨keyWord 0 true r.offset, { data := v.setWidth 32 }⟩

/-- An event by its code (R114). -/
def encodeEvent (code : Half) (op : Operand) : Encoded := ⟨keyWord 2 false code, op⟩

/-- The encoder: the key and the operand of an instruction (R112 to R114, R120). -/
def encode : Instr → Encoded
  | .rd16MboxToHi => encodeRd16 .mboxToHi
  | .wr16MboxToHi v => encodeWr16 .mboxToHi v
  | .rd16MboxToLo => encodeRd16 .mboxToLo
  | .wr16MboxToLo v => encodeWr16 .mboxToLo v
  | .rd16MboxFromHi => encodeRd16 .mboxFromHi
  | .wr16MboxFromHi v => encodeWr16 .mboxFromHi v
  | .rd16MboxFromLo => encodeRd16 .mboxFromLo
  | .wr16MboxFromLo v => encodeWr16 .mboxFromLo v
  | .rd16Ctrl => encodeRd16 .ctrl
  | .wr16Ctrl v => encodeWr16 .ctrl v
  | .rd16ArInfo => encodeRd16 .arInfo
  | .wr16ArInfo v => encodeWr16 .arInfo v
  | .rd16ArMode => encodeRd16 .arMode
  | .wr16ArMode v => encodeWr16 .arMode v
  | .rd16ArRefresh => encodeRd16 .arRefresh
  | .wr16ArRefresh v => encodeWr16 .arRefresh v
  | .rd16ArMmHi => encodeRd16 .arMmHi
  | .wr16ArMmHi v => encodeWr16 .arMmHi v
  | .rd16ArMmLo => encodeRd16 .arMmLo
  | .wr16ArMmLo v => encodeWr16 .arMmLo v
  | .rd16ArArHi => encodeRd16 .arArHi
  | .wr16ArArHi v => encodeWr16 .arArHi v
  | .rd16ArArLo => encodeRd16 .arArLo
  | .wr16ArArLo v => encodeWr16 .arArLo v
  | .rd16ArCntHi => encodeRd16 .arCntHi
  | .wr16ArCntHi v => encodeWr16 .arCntHi v
  | .rd16ArCntLo => encodeRd16 .arCntLo
  | .wr16ArCntLo v => encodeWr16 .arCntLo v
  | .rd16AuSrcHi => encodeRd16 .auSrcHi
  | .wr16AuSrcHi v => encodeWr16 .auSrcHi v
  | .rd16AuSrcLo => encodeRd16 .auSrcLo
  | .wr16AuSrcLo v => encodeWr16 .auSrcLo v
  | .rd16AuCtl => encodeRd16 .auCtl
  | .wr16AuCtl v => encodeWr16 .auCtl v
  | .rd16AuLeft => encodeRd16 .auLeft
  | .wr16AuLeft v => encodeWr16 .auLeft v
  | .rd16Unmapped off => ⟨keyWord 0 false off, {}⟩
  | .wr16Unmapped off v => ⟨keyWord 0 true off, { data := v.setWidth 32 }⟩
  | .rd32 off => ⟨keyWord 1 false off, {}⟩
  | .wr32 off d => ⟨keyWord 1 true off, { data := d }⟩
  | .tick => encodeEvent 0x0001 {}
  | .fireDspint seq => encodeEvent 0x0002 { nat := seq }
  | .fireAramint seq => encodeEvent 0x0003 { nat := seq }
  | .coreIrq delay kinds => encodeEvent 0x0004 { nat := delay, kinds := kinds }
  | .sliceCredit n => encodeEvent 0x0005 { nat := n }
  | .advance t => encodeEvent 0x0006 { nat := t }
  | .init => encodeEvent 0x0007 {}
  | .shutdown => encodeEvent 0x0008 {}
  | .snapshot => encodeEvent 0x0009 {}
  | .restore snap queue => encodeEvent 0x000A { snap := snap, queue := queue }

/-- The instruction the decoder reads from a table word: `w` is the key in whole bytes (`nbits` is 24 for every row), the
operand all zero. -/
def decodeTableWord (nbits w : Nat) : Option Instr :=
  if nbits ≤ 24 ∧ w < 2 ^ 24 then
    match decode (BitVec.ofNat 24 w) {} with
    | .ok i => some i
    | .error _ => none
  else none

end Sys2Proof
end

