-- ==== Sys2Proof/Machine/Memory.lean ====
section
/-! DEFINITION. Byte memories: reading, writing and the canonical form.  Main memory and the ARAM store are both of this kind
(spec 20_memory.md R82, R85). -/

namespace Sys2Proof

/-- What a byte that is not listed reads as: the form of the list, no claim about a memory's contents (log 7). -/
def unlistedByte : Byte := 0x00

/-- The byte at an address. -/
def Memory.read : Memory → Nat → Byte
  | [], _ => unlistedByte
  | (k, b) :: rest, a => if k = a then b else Memory.read rest a

/-- A cell in front of a memory, unless it holds what an unlisted byte reads as. -/
def Memory.cell (a : Nat) (b : Byte) (rest : Memory) : Memory :=
  if b = unlistedByte then rest else (a, b) :: rest

/-- One byte stored, keeping the canonical form. -/
def Memory.write : Memory → Nat → Byte → Memory
  | [], a, b => Memory.cell a b []
  | (k, c) :: rest, a, b =>
    if a < k then Memory.cell a b ((k, c) :: rest)
    else if a = k then Memory.cell a b rest
    else (k, c) :: Memory.write rest a b

/-- Several bytes stored, the first first. -/
def Memory.writeAll : Memory → List (Nat × Byte) → Memory
  | m, [] => m
  | m, (a, b) :: rest => Memory.writeAll (Memory.write m a b) rest

/-- The canonical memory that holds the given cells and nothing else. -/
def Memory.build (cells : List (Nat × Byte)) : Memory := Memory.writeAll [] cells

/-- The canonical form: addresses strictly rising, no cell equal to what an unlisted byte reads as. -/
abbrev Memory.wf (m : Memory) : Prop :=
  m.Pairwise (fun x y => x.1 < y.1) ∧ ∀ c ∈ m, c.2 ≠ unlistedByte

/-- Every listed address lies below a bound. -/
abbrev Memory.below (m : List (Nat × Byte)) (bound : Nat) : Prop := ∀ c ∈ m, c.1 < bound

/-- The cells whose address lies below a bound. -/
def cellsBelow (bound : Nat) (cells : List (Nat × Byte)) : List (Nat × Byte) :=
  cells.filter fun c => c.1 < bound

end Sys2Proof
end

