-- ==== Sys2Proof/Machine/State.lean ====
section
/-! DEFINITION. The machine's state as plain data (spec 10_state.md R30 to R66, R75), the reasons a step stops (60_exceptions.md
R334, R335), and the state after reset (70_reset_and_hazards.md R370, R371). -/

namespace Sys2Proof.Machine

/-- Why a presented step is not enabled (93_implementation_defined.md U9, U10, `stuck`). -/
inductive Stuck where
  /-- `status` does not allow the step (10_state.md R61). -/
  | statusForbids
  /-- No entry of `pending` has this kind and `seq` (45_host_events.md R292). -/
  | noEntry (seq : Nat)
  /-- The `due` of every such entry lies ahead of `now` (R292). -/
  | notDue (seq : Nat)
  /-- For every such entry that is due, an earlier entry of its kind and origin must be delivered first (R295). -/
  | outOfOrder (seq : Nat)
deriving DecidableEq, Repr

/-- The faults (60_exceptions.md R334). -/
inductive Fault where
  /-- `MainUnmapped(addr, n)`: raised by a main-memory access `MAIN_MAP` does not admit (20_memory.md R85), that is by a 16-bit
  or 32-bit write that starts an audio or an ARAM DMA, and by `TICK`.  Safe: the model stops where the platform may answer. -/
  | mainUnmapped (addr : Word) (n : Nat)
  /-- `SerializationShapeMismatch`: raised by `RESTORE` (45_host_events.md R307).  Safe: the spec calls it fatal. -/
  | serializationShapeMismatch
  /-- The step is not enabled: raised by every row when `status` forbids it, and by the two deliveries (log 10).  Safe: the spec
  gives the machine no such step. -/
  | stuck (why : Stuck)
deriving DecidableEq, Repr

/-- The refusals (60_exceptions.md R335). -/
inductive Refusal where
  /-- An instruction without a meaning yet, raised by `exec` only.  Safe. -/
  | notModelled (mnemonic : String)
  /-- `UnsupportedAccess(width, offset)`: raised by the decoder (20_memory.md R94).  Safe: the spec refuses the access. -/
  | unsupportedAccess (width offset : Nat)
  /-- `ReservedEncoding(K)`: raised by the decoder (30_encoding.md R111).  Safe: the spec refuses the key. -/
  | reservedEncoding (key : Nat)
  /-- `TimeReversal(t)`: raised by `ADVANCE` (45_host_events.md R297).  Safe: the spec refuses it. -/
  | timeReversal (t : Nat)
  /-- `CoreKindNotAllowed(S)`: raised by `CORE_IRQ` (45_host_events.md R294).  Safe: the spec refuses it. -/
  | coreKindNotAllowed (kinds : KindSet)
deriving DecidableEq, Repr

/-- The outcome mark `status` (10_state.md R61). -/
inductive Status where
  | uninit
  | live
  | faulted (reason : Fault)
  | refused (reason : Refusal)
  | shut
deriving DecidableEq, Repr

/-- Which half of a mailbox (44_mailbox.md R270). -/
inductive MailHalf where
  | hi
  | lo
deriving DecidableEq, Repr

/-- Which mailbox (R270). -/
inductive MailBox where
  | toDSP
  | fromDSP
deriving DecidableEq, Repr

/-- Where pushed sink frames come from (42_audio_dma.md R201). -/
inductive PushSource where
  | main (addr : Word)
  | silence
deriving DecidableEq, Repr

/-- One record of `log`: a diagnostic, or a call to an external collaborator with its arguments and its answer (10_state.md R60). -/
inductive LogEntry where
  /-- Main memory read, `bytes` the answer (20_memory.md R85). -/
  | memRead (addr : Word) (bytes : List Byte)
  /-- Main memory written (R85). -/
  | memWrite (addr : Word) (bytes : List Byte)
  /-- `AuxRead64(a)` and its answer (R89). -/
  | auxRead (addr : Word) (answer : DWord)
  /-- `AuxWrite64(a, v)` (R89). -/
  | auxWrite (addr : Word) (v : DWord)
  /-- `Push` to the audio sink (42_audio_dma.md R201). -/
  | push (source : PushSource) (frames : Nat) (bytes : List Byte)
  /-- `Core.readMailbox(half, box)` (44_mailbox.md R270). -/
  | coreReadMailbox (half : MailHalf) (box : MailBox) (answer : Half)
  /-- `Core.writeMailbox(half, box, v)`. -/
  | coreWriteMailbox (half : MailHalf) (box : MailBox) (v : Half)
  /-- `Core.readControl()`. -/
  | coreReadControl (answer : Half)
  /-- `Core.writeControl(v)`, its answer ignored. -/
  | coreWriteControl (v answer : Half)
  /-- `Core.update(cycles)`. -/
  | coreUpdate (cycles : Nat)
  /-- `Core.isCycleStepped()` (log 12). -/
  | coreIsCycleStepped (answer : Bool)
  /-- `Core.save()`. -/
  | coreSave (answer : CoreImage)
  /-- `Core.restore(s)` and its answer, success or not (log 30). -/
  | coreRestore (image : CoreImage) (answer : Bool)
  /-- `Core.shutdown()`. -/
  | coreShutdown
  /-- `Schedule(delay, kind, payload, origin)` (45_host_events.md R290). -/
  | schedule (delay : Nat) (what : Callback) (origin : Origin)
  /-- `SetLine(b)` (41_control_interrupt.md R185). -/
  | setLine (b : Bool)
  /-- `Diag(ConfigurationAnomaly, v)` (60_exceptions.md R331). -/
  | configurationAnomaly (v : Half)
  /-- `Diag(InvalidWrite, (off, v))` (R331). -/
  | invalidWrite (off v : Half)
deriving DecidableEq, Repr

/-- What a step returns to its presenter (30_encoding.md R112 to R114, log 23). -/
inductive Reply where
  | none
  | half (v : Half)
  | word (v : Word)
  | snapshot (s : Snapshot)
deriving DecidableEq, Repr

/-- The width of a CPU access (20_memory.md R94). -/
inductive Width where
  | bits8
  | bits16
  | bits32
deriving DecidableEq, Repr

/-- How an agent presents a step (log 4). -/
inductive Presented where
  /-- By its key and operand (30_encoding.md R111). -/
  | keyed (word : BitVec 24) (operand : Operand)
  /-- A CPU access by physical address (20_memory.md R81, R94, log 15). -/
  | bus (width : Width) (write : Bool) (addr : Word) (data : Word)
deriving DecidableEq, Repr

/-- One input: the step presented, and with it what the outside did since the step before and answers during this one. -/
structure Input where
  what : Presented
  /-- Main-memory bytes other agents wrote since the step before (20_memory.md R93, log 17). -/
  mainWrites : List (Nat × Byte) := []
  /-- Pool bytes the pool's owner wrote since the step before; without effect unless `UNIFIED` (10_state.md R56, log 17). -/
  poolWrites : List (Nat × Byte) := []
  /-- The answers of the external collaborators to this step's calls, in the order of the calls (R93, log 6). -/
  answers : List Nat := []
deriving DecidableEq, Repr

/-- The machine. -/
structure State where
  /-- The instance's parameters, which no step writes (log 1). -/
  cfg : Params
  /-- `reg.CTRL` (R32 to R39). -/
  ctrl : Half
  /-- `reg.AR_INFO` (R40, R41). -/
  arInfo : Half
  /-- `reg.AR_MODE` (R42). -/
  arMode : Half
  /-- `reg.AR_REFRESH` (R43). -/
  arRefresh : Half
  /-- `reg.AR_MM` (R44). -/
  arMm : Word
  /-- `reg.AR_AR` (R45). -/
  arAr : Word
  /-- `reg.AR_CNT` (R46, R47). -/
  arCnt : Word
  /-- `reg.AU_SRC` (R48). -/
  auSrc : Word
  /-- `reg.AU_CTL` (R49). -/
  auCtl : Half
  /-- `AU_CUR` (R50). -/
  auCur : Word
  /-- `AU_REM` (R51), at most 0x7FFF by its width (log 18). -/
  auRem : BitVec 15
  /-- `dspSlice` (R62). -/
  dspSlice : Int
  /-- The ARAM store (R55); the pool's view when `UNIFIED` (R56). -/
  aram : Memory
  /-- `pending` (R57). -/
  pending : List Entry
  /-- `nextSeq` (R57). -/
  nextSeq : Nat
  /-- `line` (R59). -/
  line : Bool
  /-- `log`, oldest first (R60). -/
  log : List LogEntry
  /-- `status` (R61). -/
  status : Status
  /-- Main memory (20_memory.md R85, 10_state.md R75). -/
  mem : Memory
  /-- Virtual time (R58, log 26). -/
  now : Nat
  /-- MODEL: the steps the agents present, oldest first (log 4). -/
  inbox : List Input
  /-- MODEL: the answers left for the running step's calls (log 6). -/
  answers : List Nat
  /-- MODEL: how many free values have been drawn (log 6). -/
  draws : Nat
  /-- MODEL: what the latest step returned (log 23). -/
  reply : Reply
deriving DecidableEq, Repr

/-- The machine right after reset: the state `INIT` leaves (70_reset_and_hazards.md R370, 10_state.md R66, log 5), with nothing
presented and free contents of both memories (70_reset_and_hazards.md R372, log 7). -/
def State.reset : State where
  cfg := Params.standard
  ctrl := 0x0004
  arInfo := 0x0000
  arMode := 0x0001
  arRefresh := 0x009C
  arMm := 0x00000000
  arAr := 0x00000000
  arCnt := 0x00000000
  auSrc := 0x00000000
  auCtl := 0x0000
  auCur := 0x00000000
  auRem := 0
  dspSlice := 0
  aram := Memory.build (cellsBelow Params.standard.aramSize Config.powerOnAram)
  pending := []
  nextSeq := 0
  line := false
  log := []
  status := .live
  mem := Memory.build (cellsBelow (2 ^ 32) Config.powerOnMain)
  now := 0
  inbox := []
  answers := []
  draws := 0
  reply := .none

end Sys2Proof.Machine
end

