-- ==== Sys2Proof/Machine/Constants.lean ====
section
/-! DEFINITION. The block's fixed constants (spec 00_scope.md R12, 41_control_interrupt.md R171). -/

namespace Sys2Proof.Machine

/-- `BLOCK_BYTES`: one audio block. -/
def blockBytes : Nat := 32

/-- `FRAMES_PER_BLOCK`: sink frames of one block. -/
def framesPerBlock : Nat := 8

/-- Bytes of one sink frame (42_audio_dma.md R200). -/
def frameBytes : Nat := 4

/-- `GRANULE`: bytes moved by one DMA iteration. -/
def granuleBytes : Nat := 8

/-- `AUDIO_START_DELAY`: cycles from the enable edge to the kind-A interrupt. -/
def audioStartDelay : Nat := 200

/-- `ARAM_CYCLES_PER_32`: cycles for 32 bytes of ARAM DMA. -/
def aramCyclesPer32 : Nat := 246

/-- `DMA_WINDOW_MASK`: the 64 MB wrap. -/
def dmaWindowMask : Word := 0x03FFFFFF

/-- `MIRROR_LIMIT`: destinations below it are mirrored under policy 4. -/
def mirrorLimit : Nat := 0x00400000

/-- `MIRROR_OFFSET`: what the mirror copy adds to the destination. -/
def mirrorOffset : Nat := 0x00400000

/-- `MAIL_SLICE`: cycles of one forced core step. -/
def mailSlice : Nat := 72

/-- `AR_INFO_WMASK`. -/
def arInfoWmask : Half := 0x007F

/-- `AR_REFRESH_WMASK`. -/
def arRefreshWmask : Half := 0x07FF

/-- `AR_ADDR_HI_WMASK`. -/
def arAddrHiWmask : Half := 0x03FF

/-- `AR_ADDR_LO_WMASK`. -/
def arAddrLoWmask : Half := 0xFFE0

/-- `AR_CNT_HI_WMASK`, with the direction bit. -/
def arCntHiWmask : Half := 0x83FF

/-- `AU_SRC_LO_WMASK`. -/
def auSrcLoWmask : Half := 0xFFE0

/-- `AU_SRC_HI_WMASK`, by the memory mode (10_state.md R48). -/
def auSrcHiWmask (p : Params) : Half := if p.unified then 0x1FFF else 0x03FF

/-- `ARAM_MASK = ARAM_SIZE - 1` (00_scope.md R13). -/
def aramMask (p : Params) : Nat := p.aramSize - 1

/-- The first offset of the register window (20_memory.md R81). -/
def windowStart : Nat := 0x5000

/-- `KIND_BITS`: the three pending bits (41_control_interrupt.md R171). -/
def kindBits : Half := 0x00A8

/-- `DMA_ACT_BIT` (R171). -/
def dmaActBit : Half := 0x0200

/-- `ADOPT_MASK`: the bits a ControlRegister write takes from the write value (R171). -/
def adoptMask : Half := 0xFD57

/-- `PAD_MASK` (R171). -/
def padMask : Half := 0xF000

end Sys2Proof.Machine
end

