-- ==== Sys2Proof/Machine/Flags.lean ====
section
/-! DEFINITION. The status bits: the fields of ControlRegister (spec 10_state.md R32), the line function and the acknowledge
(41_control_interrupt.md R175, R183, R184), and the audio enable bit (10_state.md R49, R65). -/

namespace Sys2Proof

/-- No kind. -/
def KindSet.empty : KindSet := ⟨false, false, false⟩

/-- Kind A, audio DMA (41_control_interrupt.md R180). -/
def KindSet.kindA : KindSet := ⟨true, false, false⟩

/-- Kind B, ARAM DMA. -/
def KindSet.kindB : KindSet := ⟨false, true, false⟩

/-- Kind C, DSP core. -/
def KindSet.kindC : KindSet := ⟨false, false, true⟩

/-- Subset. -/
def KindSet.subset (x y : KindSet) : Bool := (!x.a || y.a) && (!x.b || y.b) && (!x.c || y.c)

/-- `bits(S)`: the pending bits of a set of kinds (R180): A is bit 3, B bit 5, C bit 7. -/
def KindSet.bits (s : KindSet) : Half :=
  (if s.a then 0x0008#16 else 0) ||| (if s.b then 0x0020#16 else 0) ||| (if s.c then 0x0080#16 else 0)

namespace Machine

/-- `lineOf(c)`: some kind is pending and enabled (R184). -/
def lineOf (c : Half) : Bool := ((c >>> 1) &&& c &&& kindBits) != 0

/-- `reg.CTRL` after a ControlRegister write of `v`: adopted bits from `v`, pending bits cleared where `v` has a 1, `DMA_ACT`
kept (R175). -/
def ctrlWritten (c v : Half) : Half := (v &&& adoptMask) ||| (c &&& kindBits &&& ~~~v) ||| (c &&& dmaActBit)

/-- The value a ControlRegister read returns, `core` the core's answer (R170). -/
def ctrlRead (p : Params) (c core : Half) : Half := (c &&& ~~~p.coreCtrlMask) ||| (core &&& p.coreCtrlMask)

/-- A ControlRegister write with nonzero padding is a ConfigurationAnomaly (10_state.md R37). -/
def padAnomaly (v : Half) : Bool := (v &&& padMask) != 0

/-- `enable`, bit 15 of `reg.AU_CTL` (10_state.md R49). -/
def auEnable (c : Half) : Bool := c.getLsbD 15

/-- `numBlocks`, bits 14:0 of `reg.AU_CTL` (R49). -/
def numBlocks (c : Half) : BitVec 15 := c.extractLsb' 0 15

end Machine
end Sys2Proof
end

