-- ==== Sys2Proof/Machine/Operands.lean ====
section
/-! DEFINITION. Operand forms: the halves of a 32-bit pair (spec 00_scope.md R17), the count and direction of `reg.AR_CNT`
(10_state.md R46, R47), byte order (20_memory.md R86, R91), the byte addresses of a run (R82, R85), and the register window
(R81). -/

namespace Sys2Proof.Machine

/-- `F.hi`. -/
def hiHalf (f : Word) : Half := f.extractLsb' 16 16

/-- `F.lo`. -/
def loHalf (f : Word) : Half := f.extractLsb' 0 16

/-- `F.hi <- h`. -/
def setHi (f : Word) (h : Half) : Word := h ++ loHalf f

/-- `F.lo <- l`. -/
def setLo (f : Word) (l : Half) : Word := hiHalf f ++ l

/-- `reg.AR_CNT[30:0]`. -/
def countOf (c : Word) : BitVec 31 := c.extractLsb' 0 31

/-- `reg.AR_CNT[31]`: 1 is ARAM to main (10_state.md R47). -/
def dirOf (c : Word) : Bool := c.getLsbD 31

/-- `reg.AR_CNT[30:0] <- n`. -/
def setCount (c : Word) (n : BitVec 31) : Word := c.extractLsb' 31 1 ++ n

/-- The layout policy, `reg.AR_INFO[3:0]` (10_state.md R41). -/
def policyOf (arInfo : Half) : BitVec 4 := arInfo.extractLsb' 0 4

/-- Policy 4 is the one that mirrors (43_aram_dma.md R246). -/
def mirrors (arInfo : Half) : Bool := policyOf arInfo == 4

/-- The order of a granule's bytes on their way between main memory and the ARAM store (20_memory.md R91). -/
def orderGranule (o : GranuleOrder) (bytes : List Byte) : List Byte :=
  match o with
  | .preserve => bytes
  | .reverse => bytes.reverse

/-- A 64-bit value from its bytes, the first the most significant (R86). -/
def dwordOfBytes (bytes : List Byte) : DWord := bytes.foldl (fun acc b => (acc <<< 8) ||| b.setWidth 64) 0

/-- The bytes of a 64-bit value, the most significant first (R86). -/
def bytesOfDword (v : DWord) : List Byte :=
  [v.extractLsb' 56 8, v.extractLsb' 48 8, v.extractLsb' 40 8, v.extractLsb' 32 8,
   v.extractLsb' 24 8, v.extractLsb' 16 8, v.extractLsb' 8 8, v.extractLsb' 0 8]

/-- Byte `i` of a run of main memory: address arithmetic is modulo 2^32 (R85). -/
def mainAddr (addr : Word) (i : Nat) : Nat := (addr + BitVec.ofNat 32 i).toNat

/-- Byte `i` of a run of the ARAM store: every index is masked (R82). -/
def aramIndex (p : Params) (a i : Nat) : Nat := (a + i) &&& aramMask p

/-- Memory stands behind an address, by a list of regions. -/
def inRegions (list : List Region) (a : Nat) : Bool := list.any fun r => decide (r.base ≤ a ∧ a < r.base + r.size)

/-- A rule holds an access. -/
def ruleHolds (r : RunRule) (addr : Word) (n : Nat) : Bool :=
  decide (r.base ≤ addr.toNat ∧ addr.toNat < r.base + r.size ∧ r.minLen ≤ n ∧ n ≤ r.maxLen)

/-- `MAIN_MAP(addr, n)`: the platform admits the access (R85, log 3). -/
def mainMap (p : Params) (addr : Word) (n : Nat) : Bool :=
  match p.mainMap with
  | .regions list => (List.range n).all fun i => inRegions list (mainAddr addr i)
  | .runs list => list.any fun r => ruleHolds r addr n

/-- The cells a run of bytes fills in main memory. -/
def mainCells (addr : Word) (bytes : List Byte) : List (Nat × Byte) :=
  bytes.zipIdx.map fun (b, i) => (mainAddr addr i, b)

/-- The cells a run of bytes fills in the ARAM store. -/
def aramCells (p : Params) (a : Nat) (bytes : List Byte) : List (Nat × Byte) :=
  bytes.zipIdx.map fun (b, i) => (aramIndex p a i, b)

/-- The offset of a physical address from `DEVICE_BASE`. -/
def busOffset (p : Params) (addr : Word) : Nat := (addr - p.deviceBase).toNat

/-- The address lies in the register window (R81). -/
def inWindow (p : Params) (addr : Word) : Bool :=
  decide (windowStart ≤ busOffset p addr ∧ busOffset p addr < windowStart + p.windowBytes)

end Sys2Proof.Machine
end

