-- ==== Sys2Proof/Machine/Ops.lean ====
section
/-! DEFINITION. The operations every step is made of: the record of external calls, free values, memory accesses, the interrupt
latch and the scheduler's requests.

The block raises no exception toward the CPU, saves no state and switches no mode (spec 60_exceptions.md R336, R345): its
"taking an interrupt" is `raise`, which sets pending bits and drives the line (41_control_interrupt.md R183), and the "return" is
the acknowledge of a ControlRegister write (60_exceptions.md R346), `ctrlWritten` in Machine/Flags.lean. -/

namespace Sys2Proof.Machine

/-- The outcome of a step of this machine. -/
abbrev Result := Host.Outcome State Fault Refusal

/-! ## The log and the collaborators' answers -/

/-- One record at the end of `log` (10_state.md R60). -/
def State.record (s : State) (e : LogEntry) : State := { s with log := s.log ++ [e] }

/-- What the step returns. -/
def State.replied (s : State) (r : Reply) : State := { s with reply := r }

/-- The next answer of an external collaborator: the one the step's input gives, else a free value (20_memory.md R93, log 6). -/
def nextAnswer (s : State) : Nat :=
  match s.answers with
  | a :: _ => a
  | [] => Config.freeAnswer s.draws

/-- That answer consumed. -/
def afterAnswer (s : State) : State :=
  match s.answers with
  | _ :: rest => { s with answers := rest }
  | [] => { s with draws := s.draws + 1 }

/-! ## The interrupt latch (41_control_interrupt.md) -/

/-- `UpdateLine()` (R185). -/
def updateLine (s : State) : State :=
  State.record { s with line := lineOf s.ctrl } (.setLine (lineOf s.ctrl))

/-- `Raise(S)` (R183). -/
def raise (kinds : KindSet) (s : State) : State :=
  updateLine { s with ctrl := s.ctrl ||| (kinds.bits &&& kindBits) }

/-! ## The scheduler (45_host_events.md) -/

/-- `Schedule(delay, kind, payload, origin)` (R290). -/
def schedule (delay : Nat) (what : Callback) (origin : Origin) (s : State) : State :=
  State.record
    { s with pending := s.pending ++ [⟨what, s.now + delay, origin, s.nextSeq⟩], nextSeq := s.nextSeq + 1 }
    (.schedule delay what origin)

/-- The event kind of a callback. -/
def kindOf : Callback → EventKind
  | .dspInt _ => .dspInt
  | .aramInt => .aramInt

/-- A delivery names its entry by kind and `seq` (R292). -/
def isEntry (kind : EventKind) (seq : Nat) (e : Entry) : Bool := kindOf e.what == kind && e.seq == seq

/-- `e1` must be delivered before `e` (R295). -/
def comesBefore (e1 e : Entry) : Bool :=
  kindOf e1.what == kindOf e.what && e1.origin == e.origin && decide (e1.seq < e.seq) && decide (e1.due ≤ e.due)

/-- The scheduler may deliver this entry now, named by its kind and `seq` (R292, R295). -/
def mayDeliver (kind : EventKind) (seq : Nat) (s : State) (e : Entry) : Bool :=
  isEntry kind seq e && decide (e.due ≤ s.now) && !(s.pending.any fun e1 => comesBefore e1 e)

/-- Why no entry may be delivered (log 10). -/
def whyStuck (kind : EventKind) (seq : Nat) (s : State) : Stuck :=
  if !(s.pending.any (isEntry kind seq)) then .noEntry seq
  else if s.pending.any fun e => isEntry kind seq e && decide (e.due ≤ s.now) then .outOfOrder seq
  else .notDue seq

/-- The entry a delivery takes, and the state it leaves.  A kind and `seq` name one entry, unless `RESTORE` brought several; of
several that may be delivered now the scheduler picks any, a draw (R295, log 21). -/
def deliverable (kind : EventKind) (seq : Nat) (s : State) : Except Stuck (Entry × State) :=
  match s.pending.filter (mayDeliver kind seq s) with
  | [] => .error (whyStuck kind seq s)
  | [e] => .ok (e, s)
  | e :: rest => .ok ((e :: rest).getD (nextAnswer s % (rest.length + 1)) e, afterAnswer s)

/-- An entry removed from `pending`. -/
def removeEntry (e : Entry) (s : State) : State := { s with pending := s.pending.erase e }

/-! ## Memory (20_memory.md) -/

/-- The bytes of a run of main memory. -/
def mainBytes (m : Memory) (addr : Word) (n : Nat) : List Byte := (List.range n).map fun i => m.read (mainAddr addr i)

/-- `MemRead(addr, n)` (R85): the bytes, or the platform's fault. -/
def memRead (addr : Word) (n : Nat) (s : State) : Except Fault (List Byte × State) :=
  if mainMap s.cfg addr n then
    .ok (mainBytes s.mem addr n, s.record (.memRead addr (mainBytes s.mem addr n)))
  else .error (.mainUnmapped addr n)

/-- `MemWrite(addr, n, bytes)` (R85). -/
def memWrite (addr : Word) (bytes : List Byte) (s : State) : Except Fault State :=
  if mainMap s.cfg addr bytes.length then
    .ok (State.record { s with mem := s.mem.writeAll (mainCells addr bytes) } (.memWrite addr bytes))
  else .error (.mainUnmapped addr bytes.length)

/-- `MemRead64(addr)` (R86). -/
def memRead64 (addr : Word) (s : State) : Except Fault (DWord × State) :=
  match memRead addr granuleBytes s with
  | .error f => .error f
  | .ok (bytes, t) => .ok (dwordOfBytes bytes, t)

/-- `MemWrite64(addr, v)` (R86). -/
def memWrite64 (addr : Word) (v : DWord) (s : State) : Except Fault State := memWrite addr (bytesOfDword v) s

/-- `AramRead(a, n)` (R82). -/
def aramRead (a n : Nat) (s : State) : List Byte := (List.range n).map fun i => s.aram.read (aramIndex s.cfg a i)

/-- `AramWrite(a, n, bytes)` (R82). -/
def aramWrite (a : Nat) (bytes : List Byte) (s : State) : State :=
  { s with aram := s.aram.writeAll (aramCells s.cfg a bytes) }

/-- `AuxRead64(a)` (R89): the answer, a draw. -/
def auxRead64 (a : Word) (s : State) : DWord × State :=
  (BitVec.ofNat 64 (nextAnswer s), (afterAnswer s).record (.auxRead a (BitVec.ofNat 64 (nextAnswer s))))

/-- `AuxWrite64(a, v)` (R89): recorded only. -/
def auxWrite64 (a : Word) (v : DWord) (s : State) : State := s.record (.auxWrite a v)

/-! ## The audio sink (42_audio_dma.md R201) -/

/-- `SinkPush(addr, frames)`. -/
def sinkPush (addr : Word) (frames : Nat) (s : State) : Except Fault State :=
  if frames = 0 then .ok (s.record (.push (.main addr) 0 []))
  else
    match memRead addr (frames * frameBytes) s with
    | .error f => .error f
    | .ok (bytes, t) => .ok (t.record (.push (.main addr) frames bytes))

/-- `SinkSilence(frames)`. -/
def sinkSilence (frames : Nat) (s : State) : State :=
  s.record (.push .silence frames (List.replicate (frames * frameBytes) 0))

/-! ## The DSP core (44_mailbox.md R270) -/

/-- `Core.readMailbox(half, box)`. -/
def coreReadMailbox (half : MailHalf) (box : MailBox) (s : State) : Half × State :=
  (BitVec.ofNat 16 (nextAnswer s), (afterAnswer s).record (.coreReadMailbox half box (BitVec.ofNat 16 (nextAnswer s))))

/-- `Core.writeMailbox(half, box, v)`. -/
def coreWriteMailbox (half : MailHalf) (box : MailBox) (v : Half) (s : State) : State :=
  s.record (.coreWriteMailbox half box v)

/-- `Core.readControl()`. -/
def coreReadControl (s : State) : Half × State :=
  (BitVec.ofNat 16 (nextAnswer s), (afterAnswer s).record (.coreReadControl (BitVec.ofNat 16 (nextAnswer s))))

/-- `Core.writeControl(v)`: the answer is recorded and not used (41_control_interrupt.md R176). -/
def coreWriteControl (v : Half) (s : State) : State :=
  (afterAnswer s).record (.coreWriteControl v (BitVec.ofNat 16 (nextAnswer s)))

/-- `Core.restore(s)`: the answer is recorded, and R306 does not test it (45_host_events.md R306, log 30). -/
def coreRestore (image : CoreImage) (s : State) : State :=
  (afterAnswer s).record (.coreRestore image (nextAnswer s != 0))

/-- `SliceAccount()` (44_mailbox.md R276): at most one 72-cycle slice. -/
def sliceAccount (s : State) : State :=
  let t := s.record (.coreIsCycleStepped s.cfg.coreCycleStepped)
  if s.cfg.coreCycleStepped ∧ (mailSlice : Int) < s.dspSlice then
    { t.record (.coreUpdate mailSlice) with dspSlice := s.dspSlice - mailSlice }
  else t

/-- `Diag(InvalidWrite, (off, v))` (40_register_bank.md R158). -/
def invalidWrite (r : Reg) (v : Half) (s : State) : State := s.record (.invalidWrite r.offset v)

/-! ## The shape of a step -/

/-- A step runs only while `status` is `live` (10_state.md R61). -/
def whenLive (s : State) (k : Result) : Result :=
  if s.status = .live then k else .fault (.stuck .statusForbids)

/-- A 16-bit read: the value goes back to the CPU (30_encoding.md R112). -/
def readStep (rd : State → Half × State) (s : State) : Result :=
  whenLive s (.next ((rd s).2.replied (.half (rd s).1)))

/-- A step that returns nothing and may meet a fault. -/
def quietStep (op : State → Except Fault State) (s : State) : Result :=
  whenLive s <|
    match op s with
    | .ok t => .next (t.replied .none)
    | .error f => .fault f

/-- `status` once a step has ended: a fault marks it `faulted`, a refusal `refused`, and a step that is not enabled is no step
of the machine (10_state.md R61, 60_exceptions.md R334, R335, log 9). -/
def statusAfter (s : State) : Result → Status
  | .next t => t.status
  | .fault (.stuck _) => s.status
  | .fault f => .faulted f
  | .refused r => .refused r

end Sys2Proof.Machine
end

