-- ==== Sys2Proof/Machine/Events.lean ====
section
/-! DEFINITION. Scheduler, host and lifecycle events (spec 45_host_events.md). -/

namespace Sys2Proof.Machine

/-- The payload of a `DSPINT` entry: the kinds it raises. -/
def payloadKinds : Callback → KindSet
  | .dspInt kinds => kinds
  | .aramInt => KindSet.empty

/-- `FIRE_DSPINT` (R293): remove the entry, raise its kinds. -/
def execFireDspint (seq : Nat) (s : State) : Result :=
  whenLive s <|
    match deliverable .dspInt seq s with
    | .error why => .fault (.stuck why)
    | .ok (e, t) => .next ((raise (payloadKinds e.what) (removeEntry e t)).replied .none)

/-- `CORE_IRQ` may name a nonempty subset of `CORE_IRQ_KINDS` (R294). -/
def coreMayRaise (p : Params) (kinds : KindSet) : Bool := kinds != KindSet.empty && kinds.subset p.coreIrqKinds

/-- `CORE_IRQ` (R294): a request from the worker context. -/
def execCoreIrq (delay : Nat) (kinds : KindSet) (s : State) : Result :=
  whenLive s <|
    if coreMayRaise s.cfg kinds then .next ((schedule delay (.dspInt kinds) .worker s).replied .none)
    else .refused (.coreKindNotAllowed kinds)

/-- `SLICE_CREDIT` (R300). -/
def execSliceCredit (n : Nat) (s : State) : Result :=
  whenLive s (.next (State.replied { s with dspSlice := s.dspSlice + n } .none))

/-- `ADVANCE` (R297): time moves forward, and nothing is delivered by it. -/
def execAdvance (t : Nat) (s : State) : Result :=
  whenLive s <| if t < s.now then .refused (.timeReversal t) else .next (State.replied { s with now := t } .none)

/-! ## Snapshot and restore -/

/-- Item 1 of a snapshot: the store's bytes, omitted when `UNIFIED` (R305). -/
def aramItem (s : State) : Option AramImage := if s.cfg.unified then none else some ⟨s.cfg.aramSize, s.aram⟩

/-- The core's answer to `Core.save()`: its shape is the instance's, its content a draw (20_memory.md R93, log 20). -/
def coreSaved (s : State) : CoreImage := ⟨s.cfg.coreShape, nextAnswer s⟩

/-- The items of the state in the fixed order (R305). -/
def snapshotOf (s : State) : Snapshot where
  aram := aramItem s
  ctrl := s.ctrl
  auSrc := s.auSrc
  auCtl := s.auCtl
  auCur := s.auCur
  auRem := s.auRem
  arMm := s.arMm
  arAr := s.arAr
  arCnt := s.arCnt
  arInfo := s.arInfo
  arMode := s.arMode
  arRefresh := s.arRefresh
  dspSlice := s.dspSlice
  core := coreSaved s

/-- `SNAPSHOT` (R305). -/
def execSnapshot (s : State) : Result :=
  whenLive s (.next (((afterAnswer s).record (.coreSave (coreSaved s))).replied (.snapshot (snapshotOf s))))

/-- The shape of a snapshot: item 1 present or not, its length, and the core's shape (R307). -/
def shapeOf (snap : Snapshot) : Option Nat × Nat := (snap.aram.map fun i => i.size, snap.core.shape)

/-- The shape the live instance would produce (R307). -/
def liveShape (s : State) : Option Nat × Nat := (if s.cfg.unified then none else some s.cfg.aramSize, s.cfg.coreShape)

/-- The store item 1 loads; absent, the store stays (R306, log 19). -/
def aramLoaded (snap : Snapshot) (s : State) : Memory :=
  match snap.aram with
  | none => s.aram
  | some i => Memory.build (cellsBelow i.size i.cells)

/-- Items 1 to 7 loaded (R306). -/
def loadItems (snap : Snapshot) (s : State) : State :=
  { s with
    aram := aramLoaded snap s
    ctrl := snap.ctrl
    auSrc := snap.auSrc
    auCtl := snap.auCtl
    auCur := snap.auCur
    auRem := snap.auRem
    arMm := snap.arMm
    arAr := snap.arAr
    arCnt := snap.arCnt
    arInfo := snap.arInfo
    arMode := snap.arMode
    arRefresh := snap.arRefresh
    dspSlice := snap.dspSlice }

/-- `RESTORE` (R306): the shape test, the load, the core's restore, the scheduler's queue, the line. -/
def execRestore (snap : Snapshot) (queue : List Entry) (s : State) : Result :=
  whenLive s <|
    if shapeOf snap = liveShape s then
      let t := coreRestore snap.core (loadItems snap s)
      .next ((updateLine { t with pending := queue }).replied .none)
    else .fault .serializationShapeMismatch

/-! ## Init and shutdown -/

/-- The store after `INIT`: the pool when `UNIFIED`, else a fresh buffer with free contents (R310, log 8). -/
def aramAtInit (s : State) : Memory :=
  if s.cfg.unified then s.aram else Memory.build (cellsBelow s.cfg.aramSize (Config.freshAram s.draws))

/-- Every field at its value after init (10_state.md R66, log 11); the instance, main memory, virtual time and the inbox are not the
block's to reset. -/
def initialised (s : State) : State :=
  { s with
    ctrl := 0x0004
    arInfo := 0x0000
    arMode := s.cfg.arModeReset
    arRefresh := s.cfg.arRefreshReset
    arMm := 0
    arAr := 0
    arCnt := 0
    auSrc := 0
    auCtl := 0x0000
    auCur := 0
    auRem := 0
    dspSlice := 0
    aram := aramAtInit s
    pending := []
    nextSeq := 0
    line := false
    log := []
    status := .live
    draws := s.draws + 1 }

/-- `INIT` (R310): enabled only before the first init and after a shutdown. -/
def execInit (s : State) : Result :=
  if s.status = .uninit ∨ s.status = .shut then .next ((initialised s).replied .none)
  else .fault (.stuck .statusForbids)

/-- `SHUTDOWN` (R312): the dedicated buffer is released (log 22), the entries still pending are dropped. -/
def execShutdown (s : State) : Result :=
  whenLive s <|
    let t := s.record .coreShutdown
    .next (State.replied { t with aram := if s.cfg.unified then s.aram else [], pending := [], status := .shut } .none)

end Sys2Proof.Machine
end

