-- ==== Sys2Proof/Machine/Aram.lean ====
section
/-! DEFINITION. The ARAM (bulk) DMA engine (spec 43_aram_dma.md). -/

namespace Sys2Proof.Machine

/-! ## Registers -/

/-- R230. -/
def rdArMmHi (s : State) : Half × State := (hiHalf s.arMm, s)

/-- R231. -/
def wrArMmHi (v : Half) (s : State) : Except Fault State := .ok { s with arMm := setHi s.arMm (v &&& arAddrHiWmask) }

/-- R232. -/
def rdArMmLo (s : State) : Half × State := (loHalf s.arMm, s)

/-- R233. -/
def wrArMmLo (v : Half) (s : State) : Except Fault State := .ok { s with arMm := setLo s.arMm (v &&& arAddrLoWmask) }

/-- R234. -/
def rdArArHi (s : State) : Half × State := (hiHalf s.arAr, s)

/-- R235. -/
def wrArArHi (v : Half) (s : State) : Except Fault State := .ok { s with arAr := setHi s.arAr (v &&& arAddrHiWmask) }

/-- R236. -/
def rdArArLo (s : State) : Half × State := (loHalf s.arAr, s)

/-- R237. -/
def wrArArLo (v : Half) (s : State) : Except Fault State := .ok { s with arAr := setLo s.arAr (v &&& arAddrLoWmask) }

/-- R238. -/
def rdArCntHi (s : State) : Half × State := (hiHalf s.arCnt, s)

/-- R239: no transfer starts. -/
def wrArCntHi (v : Half) (s : State) : Except Fault State := .ok { s with arCnt := setHi s.arCnt (v &&& arCntHiWmask) }

/-- R241. -/
def rdArCntLo (s : State) : Half × State := (loHalf s.arCnt, s)

/-! ## Granules -/

/-- `GranuleToAram(m, a)` (20_memory.md R91). -/
def granuleToAram (m : Word) (a : Nat) (s : State) : Except Fault State :=
  match memRead m granuleBytes s with
  | .error f => .error f
  | .ok (bytes, t) => .ok (aramWrite a (orderGranule s.cfg.granuleOrder bytes) t)

/-- `GranuleToMain(a, m)` (20_memory.md R91). -/
def granuleToMain (a : Nat) (m : Word) (s : State) : Except Fault State :=
  memWrite m (orderGranule s.cfg.granuleOrder (aramRead a granuleBytes s)) s

/-- The advance of the registers after one granule (R244, R245, R248). -/
def advanceDma (s : State) : State :=
  { s with
    arMm := s.arMm + BitVec.ofNat 32 granuleBytes
    arAr := s.arAr + BitVec.ofNat 32 granuleBytes
    arCnt := setCount s.arCnt (countOf s.arCnt - BitVec.ofNat 31 granuleBytes) }

/-- The mirror copy of one granule, under policy 4 below the limit (R247). -/
def mirrorGranule (s : State) : Except Fault State :=
  if mirrors s.arInfo ∧ s.arAr.toNat < mirrorLimit then granuleToAram s.arMm (s.arAr.toNat + mirrorOffset) s else .ok s

/-- One granule of a main-to-ARAM transfer: the mirror copy first, then the normal one (R244). -/
def mainToAram (s : State) : Except Fault State :=
  match mirrorGranule s with
  | .error f => .error f
  | .ok t =>
    match granuleToAram s.arMm s.arAr.toNat t with
    | .error f => .error f
    | .ok u => .ok (advanceDma u)

/-- One granule of an ARAM-to-main transfer; the policy has no effect (R245). -/
def aramToMain (s : State) : Except Fault State :=
  match granuleToMain s.arAr.toNat s.arMm s with
  | .error f => .error f
  | .ok t => .ok (advanceDma t)

/-- One granule from main memory to the secondary bus (R248). -/
def mainToAux (s : State) : Except Fault State :=
  match memRead64 s.arMm s with
  | .error f => .error f
  | .ok (v, t) => .ok (advanceDma (auxWrite64 s.arAr v t))

/-- One granule from the secondary bus to main memory (R248). -/
def auxToMain (s : State) : Except Fault State :=
  match memWrite64 s.arMm (auxRead64 s.arAr s).1 (auxRead64 s.arAr s).2 with
  | .error f => .error f
  | .ok t => .ok (advanceDma t)

/-- A granule operation repeated. -/
def granules (g : State → Except Fault State) : Nat → State → Except Fault State
  | 0, s => .ok s
  | k + 1, s =>
    match g s with
    | .error f => .error f
    | .ok t => granules g k t

/-- How often the loop runs: once for each 8 bytes of `count` (R249, log 28). -/
def granuleCount (s : State) : Nat := (countOf s.arCnt).toNat / granuleBytes

/-! ## The trigger -/

/-- `AramTransfer()` (R244, R245). -/
def aramTransfer (s : State) : Except Fault State :=
  granules (if dirOf s.arCnt then aramToMain else mainToAram) (granuleCount s) s

/-- `AuxBusTransfer()` (R248). -/
def auxBusTransfer (s : State) : Except Fault State :=
  granules (if dirOf s.arCnt then auxToMain else mainToAux) (granuleCount s) s

/-- The requested completion delay (R242). -/
def aramDelay (n : Nat) : Nat := n / 32 * aramCyclesPer32

/-- Everything of the trigger that comes before the bytes move: the count's low half, `DMA_ACT`, the line, the completion
request, the 64 MB wrap (R240). -/
def aramArm (v : Half) (s : State) : State :=
  let t := { s with arCnt := setLo s.arCnt (v &&& s.cfg.arCntLoWmask), ctrl := s.ctrl ||| dmaActBit }
  let t := updateLine t
  let t := schedule (aramDelay (countOf t.arCnt).toNat) .aramInt .emu t
  { t with arAr := t.arAr &&& dmaWindowMask, arMm := t.arMm &&& dmaWindowMask }

/-- The target, chosen once, and the transfer (R243, R251). -/
def aramMove (s : State) : Except Fault State :=
  if s.arAr.toNat < s.cfg.aramSize then aramTransfer s
  else if !s.cfg.unified then auxBusTransfer s
  else .ok s

/-- R240: the write that triggers. -/
def wrArCntLo (v : Half) (s : State) : Except Fault State := aramMove (aramArm v s)

/-! ## The rows -/

/-- `RD16 AR_MM_HI` (R230). -/
def execRd16ArMmHi (s : State) : Result := readStep rdArMmHi s

/-- `WR16 AR_MM_HI` (R231). -/
def execWr16ArMmHi (v : Half) (s : State) : Result := quietStep (wrArMmHi v) s

/-- `RD16 AR_MM_LO` (R232). -/
def execRd16ArMmLo (s : State) : Result := readStep rdArMmLo s

/-- `WR16 AR_MM_LO` (R233). -/
def execWr16ArMmLo (v : Half) (s : State) : Result := quietStep (wrArMmLo v) s

/-- `RD16 AR_AR_HI` (R234). -/
def execRd16ArArHi (s : State) : Result := readStep rdArArHi s

/-- `WR16 AR_AR_HI` (R235). -/
def execWr16ArArHi (v : Half) (s : State) : Result := quietStep (wrArArHi v) s

/-- `RD16 AR_AR_LO` (R236). -/
def execRd16ArArLo (s : State) : Result := readStep rdArArLo s

/-- `WR16 AR_AR_LO` (R237). -/
def execWr16ArArLo (v : Half) (s : State) : Result := quietStep (wrArArLo v) s

/-- `RD16 AR_CNT_HI` (R238). -/
def execRd16ArCntHi (s : State) : Result := readStep rdArCntHi s

/-- `WR16 AR_CNT_HI` (R239). -/
def execWr16ArCntHi (v : Half) (s : State) : Result := quietStep (wrArCntHi v) s

/-- `RD16 AR_CNT_LO` (R241). -/
def execRd16ArCntLo (s : State) : Result := readStep rdArCntLo s

/-- `WR16 AR_CNT_LO` (R240). -/
def execWr16ArCntLo (v : Half) (s : State) : Result := quietStep (wrArCntLo v) s

/-- `FIRE_ARAMINT` (R255): remove the entry, clear `DMA_ACT`, raise kind B. -/
def execFireAramint (seq : Nat) (s : State) : Result :=
  whenLive s <|
    match deliverable .aramInt seq s with
    | .error why => .fault (.stuck why)
    | .ok (e, t) =>
      let t := removeEntry e t
      .next ((raise KindSet.kindB { t with ctrl := t.ctrl &&& ~~~dmaActBit }).replied .none)

end Sys2Proof.Machine
end

