-- ==== Sys2Proof/Machine/Audio.lean ====
section
/-! DEFINITION. The audio (streaming) DMA engine (spec 42_audio_dma.md). -/

namespace Sys2Proof.Machine

/-- R202. -/
def rdAuSrcHi (s : State) : Half × State := (hiHalf s.auSrc, s)

/-- R203: the running cursor does not move. -/
def wrAuSrcHi (v : Half) (s : State) : Except Fault State :=
  .ok { s with auSrc := setHi s.auSrc (v &&& auSrcHiWmask s.cfg) }

/-- R204. -/
def rdAuSrcLo (s : State) : Half × State := (loHalf s.auSrc, s)

/-- R205. -/
def wrAuSrcLo (v : Half) (s : State) : Except Fault State := .ok { s with auSrc := setLo s.auSrc (v &&& auSrcLoWmask) }

/-- R206. -/
def rdAuCtl (s : State) : Half × State := (s.auCtl, s)

/-- The reload of the cursor and the countdown from the registers (R208, R218). -/
def auReload (s : State) : State := { s with auCur := s.auSrc, auRem := numBlocks s.auCtl }

/-- The push of the whole configured buffer (R208, R218). -/
def auPush (s : State) : Except Fault State := sinkPush s.auSrc ((numBlocks s.auCtl).toNat * framesPerBlock) s

/-- `AudioStart()` (R208). -/
def audioStart (s : State) : Except Fault State :=
  match auPush (auReload s) with
  | .error f => .error f
  | .ok t => .ok (schedule audioStartDelay (.dspInt KindSet.kindA) .emu t)

/-- R207: the enable edge compares with the register as it stood before the write (10_state.md R52). -/
def wrAuCtl (v : Half) (s : State) : Except Fault State :=
  if !auEnable s.auCtl && auEnable v then audioStart { s with auCtl := v } else .ok { s with auCtl := v }

/-- `AuLeft()` (R212). -/
def auLeft (s : State) : Half := if s.auRem = 0 then 0 else (s.auRem - 1).setWidth 16

/-- R210. -/
def rdAuLeft (s : State) : Half × State := (auLeft s, s)

/-- R211: read-only, discarded with a diagnostic. -/
def wrAuLeft (v : Half) (s : State) : Except Fault State := .ok (invalidWrite .auLeft v s)

/-- The decrement step of a tick: one block consumed unless none is left (R215). -/
def auConsume (s : State) : State :=
  if s.auRem = 0 then s else { s with auRem := s.auRem - 1, auCur := s.auCur + BitVec.ofNat 32 blockBytes }

/-- `TICK`'s effect (R215). -/
def tickOp (s : State) : Except Fault State :=
  if !auEnable s.auCtl then .ok (sinkSilence framesPerBlock s)
  else
    let t := auConsume s
    if t.auRem ≠ 0 then .ok t
    else
      let u := auReload t
      if u.auRem = 0 then .ok u
      else
        match auPush u with
        | .error f => .error f
        | .ok w => .ok (raise KindSet.kindA w)

/-- `RD16 AU_SRC_HI` (R202). -/
def execRd16AuSrcHi (s : State) : Result := readStep rdAuSrcHi s

/-- `WR16 AU_SRC_HI` (R203). -/
def execWr16AuSrcHi (v : Half) (s : State) : Result := quietStep (wrAuSrcHi v) s

/-- `RD16 AU_SRC_LO` (R204). -/
def execRd16AuSrcLo (s : State) : Result := readStep rdAuSrcLo s

/-- `WR16 AU_SRC_LO` (R205). -/
def execWr16AuSrcLo (v : Half) (s : State) : Result := quietStep (wrAuSrcLo v) s

/-- `RD16 AU_CTL` (R206). -/
def execRd16AuCtl (s : State) : Result := readStep rdAuCtl s

/-- `WR16 AU_CTL` (R207). -/
def execWr16AuCtl (v : Half) (s : State) : Result := quietStep (wrAuCtl v) s

/-- `RD16 AU_LEFT` (R210). -/
def execRd16AuLeft (s : State) : Result := readStep rdAuLeft s

/-- `WR16 AU_LEFT` (R211). -/
def execWr16AuLeft (v : Half) (s : State) : Result := quietStep (wrAuLeft v) s

/-- `TICK` (R215). -/
def execTick (s : State) : Result := quietStep tickOp s

end Sys2Proof.Machine
end

