-- ==== Sys2Proof/Machine/Bank.lean ====
section
/-! DEFINITION. The register bank: the ARAM controller registers without side effects and the unmapped offsets
(spec 40_register_bank.md). -/

namespace Sys2Proof.Machine

/-- R143. -/
def rdArInfo (s : State) : Half × State := (s.arInfo, s)

/-- R144: bits outside the mask become 0 (R141). -/
def wrArInfo (v : Half) (s : State) : Except Fault State := .ok { s with arInfo := v &&& arInfoWmask }

/-- R145. -/
def rdArMode (s : State) : Half × State := (s.arMode, s)

/-- R146: read-only, discarded with a diagnostic. -/
def wrArMode (v : Half) (s : State) : Except Fault State := .ok (invalidWrite .arMode v s)

/-- R147. -/
def rdArRefresh (s : State) : Half × State := (s.arRefresh, s)

/-- R148. -/
def wrArRefresh (v : Half) (s : State) : Except Fault State := .ok { s with arRefresh := v &&& arRefreshWmask }

/-- R150: the fixed default. -/
def rdUnmapped (s : State) : Half × State := (s.cfg.unmappedRead16, s)

/-- R151: discarded silently. -/
def wrUnmapped (s : State) : Except Fault State := .ok s

/-- `RD16 AR_INFO` (R143). -/
def execRd16ArInfo (s : State) : Result := readStep rdArInfo s

/-- `WR16 AR_INFO` (R144). -/
def execWr16ArInfo (v : Half) (s : State) : Result := quietStep (wrArInfo v) s

/-- `RD16 AR_MODE` (R145). -/
def execRd16ArMode (s : State) : Result := readStep rdArMode s

/-- `WR16 AR_MODE` (R146). -/
def execWr16ArMode (v : Half) (s : State) : Result := quietStep (wrArMode v) s

/-- `RD16 AR_REFRESH` (R147). -/
def execRd16ArRefresh (s : State) : Result := readStep rdArRefresh s

/-- `WR16 AR_REFRESH` (R148). -/
def execWr16ArRefresh (v : Half) (s : State) : Result := quietStep (wrArRefresh v) s

/-- `RD16 unmapped` (R150): the same value at every unmapped offset. -/
def execRd16Unmapped (_off : Half) (s : State) : Result := readStep rdUnmapped s

/-- `WR16 unmapped` (R151). -/
def execWr16Unmapped (_off _v : Half) (s : State) : Result := quietStep wrUnmapped s

end Sys2Proof.Machine
end

