-- ==== Sys2Proof/Machine/Control.lean ====
section
/-! DEFINITION. ControlRegister (spec 41_control_interrupt.md). -/

namespace Sys2Proof.Machine

/-- R170: the core-owned bits come from the core, the others from the stored copy. -/
def rdCtrl (s : State) : Half × State :=
  (ctrlRead s.cfg s.ctrl (coreReadControl s).1, (coreReadControl s).2)

/-- R175: forward, adopt and acknowledge, report padding, update the line. -/
def wrCtrl (v : Half) (s : State) : Except Fault State :=
  let t := coreWriteControl v s
  let t := { t with ctrl := ctrlWritten t.ctrl v }
  let t := if padAnomaly v then t.record (.configurationAnomaly v) else t
  .ok (updateLine t)

/-- `RD16 CTRL` (R170). -/
def execRd16Ctrl (s : State) : Result := readStep rdCtrl s

/-- `WR16 CTRL` (R175). -/
def execWr16Ctrl (v : Half) (s : State) : Result := quietStep (wrCtrl v) s

end Sys2Proof.Machine
end

