-- ==== Sys2Proof/Machine/Mailbox.lean ====
section
/-! DEFINITION. The DSP mailbox bridge (spec 44_mailbox.md). -/

namespace Sys2Proof.Machine

/-- R271: the budget is accounted before the core is asked. -/
def rdMboxToHi (s : State) : Half × State := coreReadMailbox .hi .toDSP (sliceAccount s)

/-- R273: no budget accounting. -/
def rdMboxToLo (s : State) : Half × State := coreReadMailbox .lo .toDSP s

/-- R275. -/
def rdMboxFromHi (s : State) : Half × State := coreReadMailbox .hi .fromDSP (sliceAccount s)

/-- R277. -/
def rdMboxFromLo (s : State) : Half × State := coreReadMailbox .lo .fromDSP s

/-- R272: forwarded verbatim. -/
def wrMboxToHi (v : Half) (s : State) : Except Fault State := .ok (coreWriteMailbox .hi .toDSP v s)

/-- R274. -/
def wrMboxToLo (v : Half) (s : State) : Except Fault State := .ok (coreWriteMailbox .lo .toDSP v s)

/-- R278: invalid, discarded with a diagnostic. -/
def wrMboxFromHi (v : Half) (s : State) : Except Fault State := .ok (invalidWrite .mboxFromHi v s)

/-- R279: invalid, discarded with a diagnostic. -/
def wrMboxFromLo (v : Half) (s : State) : Except Fault State := .ok (invalidWrite .mboxFromLo v s)

/-- `RD16 MBOX_TO_HI` (R271). -/
def execRd16MboxToHi (s : State) : Result := readStep rdMboxToHi s

/-- `WR16 MBOX_TO_HI` (R272). -/
def execWr16MboxToHi (v : Half) (s : State) : Result := quietStep (wrMboxToHi v) s

/-- `RD16 MBOX_TO_LO` (R273). -/
def execRd16MboxToLo (s : State) : Result := readStep rdMboxToLo s

/-- `WR16 MBOX_TO_LO` (R274). -/
def execWr16MboxToLo (v : Half) (s : State) : Result := quietStep (wrMboxToLo v) s

/-- `RD16 MBOX_FROM_HI` (R275). -/
def execRd16MboxFromHi (s : State) : Result := readStep rdMboxFromHi s

/-- `WR16 MBOX_FROM_HI` (R278). -/
def execWr16MboxFromHi (v : Half) (s : State) : Result := quietStep (wrMboxFromHi v) s

/-- `RD16 MBOX_FROM_LO` (R277). -/
def execRd16MboxFromLo (s : State) : Result := readStep rdMboxFromLo s

/-- `WR16 MBOX_FROM_LO` (R279). -/
def execWr16MboxFromLo (v : Half) (s : State) : Result := quietStep (wrMboxFromLo v) s

end Sys2Proof.Machine
end

