-- ==== Sys2Proof/Machine/Wide.lean ====
section
/-! DEFINITION. 32-bit accesses: two 16-bit steps back to back, the high half first (spec 40_register_bank.md R155 to R157,
20_memory.md R90, R97). -/

namespace Sys2Proof.Machine

/-- The effect of a 16-bit read at an offset: the mapped register's rule, or the unmapped default (log 29). -/
def read16 (off : Half) (s : State) : Half × State :=
  match Reg.ofOffset off with
  | none => rdUnmapped s
  | some .mboxToHi => rdMboxToHi s
  | some .mboxToLo => rdMboxToLo s
  | some .mboxFromHi => rdMboxFromHi s
  | some .mboxFromLo => rdMboxFromLo s
  | some .ctrl => rdCtrl s
  | some .arInfo => rdArInfo s
  | some .arMode => rdArMode s
  | some .arRefresh => rdArRefresh s
  | some .arMmHi => rdArMmHi s
  | some .arMmLo => rdArMmLo s
  | some .arArHi => rdArArHi s
  | some .arArLo => rdArArLo s
  | some .arCntHi => rdArCntHi s
  | some .arCntLo => rdArCntLo s
  | some .auSrcHi => rdAuSrcHi s
  | some .auSrcLo => rdAuSrcLo s
  | some .auCtl => rdAuCtl s
  | some .auLeft => rdAuLeft s

/-- The effect of a 16-bit write at an offset. -/
def write16 (off v : Half) (s : State) : Except Fault State :=
  match Reg.ofOffset off with
  | none => wrUnmapped s
  | some .mboxToHi => wrMboxToHi v s
  | some .mboxToLo => wrMboxToLo v s
  | some .mboxFromHi => wrMboxFromHi v s
  | some .mboxFromLo => wrMboxFromLo v s
  | some .ctrl => wrCtrl v s
  | some .arInfo => wrArInfo v s
  | some .arMode => wrArMode v s
  | some .arRefresh => wrArRefresh v s
  | some .arMmHi => wrArMmHi v s
  | some .arMmLo => wrArMmLo v s
  | some .arArHi => wrArArHi v s
  | some .arArLo => wrArArLo v s
  | some .arCntHi => wrArCntHi v s
  | some .arCntLo => wrArCntLo v s
  | some .auSrcHi => wrAuSrcHi v s
  | some .auSrcLo => wrAuSrcLo v s
  | some .auCtl => wrAuCtl v s
  | some .auLeft => wrAuLeft v s

/-- The two halves of a 32-bit write (R156). -/
def write32 (off : Half) (d : Word) (s : State) : Except Fault State :=
  match write16 off (hiHalf d) s with
  | .error f => .error f
  | .ok t => write16 (off + 2) (loHalf d) t

/-- `RD32` (R155): each half by its own rule (R157), so the one of 0x5008 reads ControlRegister in its low half (log 29). -/
def execRd32 (off : Half) (s : State) : Result :=
  whenLive s <|
    let (hi, t) := read16 off s
    let (lo, u) := read16 (off + 2) t
    .next (u.replied (.word (hi ++ lo)))

/-- `WR32` (R156). -/
def execWr32 (off : Half) (d : Word) (s : State) : Result := quietStep (write32 off d) s

end Sys2Proof.Machine
end

