-- ==== Sys2Proof/Machine/Dispatch.lean ====
section
/-! DEFINITION. One arm for each instruction: its meaning. -/

namespace Sys2Proof.Machine

/-- What an instruction does. -/
def exec (i : Instr) (s : State) : Host.Outcome State Fault Refusal :=
  match i with
  | .rd16MboxToHi => Sys2Proof.Machine.execRd16MboxToHi s
  | .wr16MboxToHi v => Sys2Proof.Machine.execWr16MboxToHi v s
  | .rd16MboxToLo => Sys2Proof.Machine.execRd16MboxToLo s
  | .wr16MboxToLo v => Sys2Proof.Machine.execWr16MboxToLo v s
  | .rd16MboxFromHi => Sys2Proof.Machine.execRd16MboxFromHi s
  | .wr16MboxFromHi v => Sys2Proof.Machine.execWr16MboxFromHi v s
  | .rd16MboxFromLo => Sys2Proof.Machine.execRd16MboxFromLo s
  | .wr16MboxFromLo v => Sys2Proof.Machine.execWr16MboxFromLo v s
  | .rd16Ctrl => Sys2Proof.Machine.execRd16Ctrl s
  | .wr16Ctrl v => Sys2Proof.Machine.execWr16Ctrl v s
  | .rd16ArInfo => Sys2Proof.Machine.execRd16ArInfo s
  | .wr16ArInfo v => Sys2Proof.Machine.execWr16ArInfo v s
  | .rd16ArMode => Sys2Proof.Machine.execRd16ArMode s
  | .wr16ArMode v => Sys2Proof.Machine.execWr16ArMode v s
  | .rd16ArRefresh => Sys2Proof.Machine.execRd16ArRefresh s
  | .wr16ArRefresh v => Sys2Proof.Machine.execWr16ArRefresh v s
  | .rd16ArMmHi => Sys2Proof.Machine.execRd16ArMmHi s
  | .wr16ArMmHi v => Sys2Proof.Machine.execWr16ArMmHi v s
  | .rd16ArMmLo => Sys2Proof.Machine.execRd16ArMmLo s
  | .wr16ArMmLo v => Sys2Proof.Machine.execWr16ArMmLo v s
  | .rd16ArArHi => Sys2Proof.Machine.execRd16ArArHi s
  | .wr16ArArHi v => Sys2Proof.Machine.execWr16ArArHi v s
  | .rd16ArArLo => Sys2Proof.Machine.execRd16ArArLo s
  | .wr16ArArLo v => Sys2Proof.Machine.execWr16ArArLo v s
  | .rd16ArCntHi => Sys2Proof.Machine.execRd16ArCntHi s
  | .wr16ArCntHi v => Sys2Proof.Machine.execWr16ArCntHi v s
  | .rd16ArCntLo => Sys2Proof.Machine.execRd16ArCntLo s
  | .wr16ArCntLo v => Sys2Proof.Machine.execWr16ArCntLo v s
  | .rd16AuSrcHi => Sys2Proof.Machine.execRd16AuSrcHi s
  | .wr16AuSrcHi v => Sys2Proof.Machine.execWr16AuSrcHi v s
  | .rd16AuSrcLo => Sys2Proof.Machine.execRd16AuSrcLo s
  | .wr16AuSrcLo v => Sys2Proof.Machine.execWr16AuSrcLo v s
  | .rd16AuCtl => Sys2Proof.Machine.execRd16AuCtl s
  | .wr16AuCtl v => Sys2Proof.Machine.execWr16AuCtl v s
  | .rd16AuLeft => Sys2Proof.Machine.execRd16AuLeft s
  | .wr16AuLeft v => Sys2Proof.Machine.execWr16AuLeft v s
  | .rd16Unmapped off => Sys2Proof.Machine.execRd16Unmapped off s
  | .wr16Unmapped off v => Sys2Proof.Machine.execWr16Unmapped off v s
  | .rd32 off => Sys2Proof.Machine.execRd32 off s
  | .wr32 off d => Sys2Proof.Machine.execWr32 off d s
  | .tick => Sys2Proof.Machine.execTick s
  | .fireDspint seq => Sys2Proof.Machine.execFireDspint seq s
  | .fireAramint seq => Sys2Proof.Machine.execFireAramint seq s
  | .coreIrq delay kinds => Sys2Proof.Machine.execCoreIrq delay kinds s
  | .sliceCredit n => Sys2Proof.Machine.execSliceCredit n s
  | .advance t => Sys2Proof.Machine.execAdvance t s
  | .init => Sys2Proof.Machine.execInit s
  | .shutdown => Sys2Proof.Machine.execShutdown s
  | .snapshot => Sys2Proof.Machine.execSnapshot s
  | .restore snap queue => Sys2Proof.Machine.execRestore snap queue s

end Sys2Proof.Machine
end

