-- ==== Sys2Proof/Machine/Fetch.lean ====
section
/-! DEFINITION. How a presented step reaches its meaning: the head of the inbox, the outside writes and answers that come with
it, the register window, the decoder (spec 10_state.md R64, 20_memory.md R81, R93, R94, 30_encoding.md R116). -/

namespace Sys2Proof.Machine

/-- The state an input meets: it leaves the inbox, the bytes other owners wrote are in place, and its answers lie ready
(logs 4, 6, 17). -/
def arrive (p : Input) (rest : List Input) (s : State) : State :=
  { s with
    inbox := rest
    mem := s.mem.writeAll (cellsBelow (2 ^ 32) p.mainWrites)
    aram := if s.cfg.unified then s.aram.writeAll (cellsBelow s.cfg.aramSize p.poolWrites) else s.aram
    answers := p.answers }

/-- The key of a CPU access inside the window (30_encoding.md R111 to R113). -/
def busKey (cls : BitVec 7) (write : Bool) (off : Nat) : BitVec 24 := keyWord cls write (BitVec.ofNat 16 off)

/-- What a presented step asks of the block. -/
inductive Fetched where
  /-- Not addressed to the block: no step (20_memory.md R81). -/
  | elsewhere
  /-- No step by its shape (R94, 30_encoding.md R111). -/
  | rejected (why : DecodeError)
  /-- An instruction. -/
  | run (i : Instr)
deriving DecidableEq, Repr

/-- The decoder's answer as a fetch. -/
def fetchedOf : Except DecodeError Instr → Fetched
  | .ok i => .run i
  | .error e => .rejected e

/-- The offset in the key of an access.  A key has 16 bits for it; every offset of the window beyond them is unmapped, as its
neighbours are, and all unmapped offsets act alike (40_register_bank.md R150, R151), so 0x503C stands for it (log 15). -/
def keyOffset (off : Nat) : Nat := if off < 0x10000 then off else 0x503C

/-- A CPU access by width: 8 bits, and the wider ones out of line, are refused (R94). -/
def fetchBus (width : Width) (write : Bool) (off : Nat) (data : Word) : Fetched :=
  match width with
  | .bits8 => .rejected (.unsupportedAccess 8 off)
  | .bits16 =>
    if off % 2 = 0 then fetchedOf (decode (busKey 0 write (keyOffset off)) { data := data })
    else .rejected (.unsupportedAccess 16 off)
  | .bits32 =>
    if off % 4 = 0 then fetchedOf (decode (busKey 1 write (keyOffset off)) { data := data })
    else .rejected (.unsupportedAccess 32 off)

/-- The fetch. -/
def fetch (p : Params) : Presented → Fetched
  | .keyed word operand => fetchedOf (decode word operand)
  | .bus width write addr data =>
    if inWindow p addr then fetchBus width write (busOffset p addr) data else .elsewhere

/-- The refusal of a decoder's error (60_exceptions.md R335). -/
def refusalOf : DecodeError → Refusal
  | .reservedEncoding k => .reservedEncoding k
  | .unsupportedAccess w o => .unsupportedAccess w o

end Sys2Proof.Machine
end

