-- ==== Sys2Proof/Machine/Step.lean ====
section
/-! DEFINITION. The step: the next presented step of the inbox, run to its end (spec 00_scope.md R19, 10_state.md R64). -/

namespace Sys2Proof.Machine

/-- One step.  With nothing presented the block waits: nothing changes and no time passes (log 4).  An access that is not
addressed to the block leaves it as it is (20_memory.md R81).  A key or an access shape that is no step is refused while the
block is live (30_encoding.md R111, 20_memory.md R94). -/
def step (s : State) : Host.Outcome State Fault Refusal :=
  match s.inbox with
  | [] => .next s
  | p :: rest =>
    match fetch s.cfg p.what with
    | .elsewhere => .next ((arrive p rest s).replied .none)
    | .rejected why => whenLive s (.refused (refusalOf why))
    | .run i => exec i (arrive p rest s)

/-- The state with one more step presented, before all others: the key `w` in whole bytes (`nbits` is 24 for every row), every
operand bit zero (log 4). -/
def State.withFetchWord (s : State) (_nbits w : Nat) : State :=
  { s with inbox := { what := .keyed (BitVec.ofNat 24 w) {} } :: s.inbox }

end Sys2Proof.Machine
end

