-- ==== Sys2Proof/Safety.lean ====
section
/-! DEFINITION. What counts as a safe run, and the words the claims use: the invariant every step keeps, the addresses a transfer
reads and writes, and runs of ticks. -/

namespace Sys2Proof.Machine

/-- A state a run may end in: a faulted or refused state never is one (spec 60_exceptions.md R334, R335). -/
def goodFinal (s : State) : Bool := decide (s.status = .live ∨ s.status = .shut)

/-- A step that neither faults nor is refused. -/
abbrev SafeStep (s : State) : Prop := ∃ t, step s = .next t

/-- Every step of the run is safe (`Host.Core.run`). -/
abbrev SafeRun (k : Nat) (s : State) : Prop := ∃ t, Host.Core.run Sys2Proof.core k s = .next t

/-! ## The invariant -/

/-- What the write masks leave of the registers: `AR_INFO` bits 15:7 are 0 (10_state.md R40), the ARAM DMA addresses and the
count are multiples of 8 and count bits 30:26 are 0 (R46, 20_memory.md R95), the audio source keeps its masks (R48). -/
abbrev RegsLegal (p : Params) (arInfo : Half) (arMm arAr arCnt auSrc : Word) : Prop :=
  arInfo &&& 0xFF80#16 = 0 ∧ arMm &&& 0x00000007#32 = 0 ∧ arAr &&& 0x00000007#32 = 0 ∧ arCnt &&& 0x7C000007#32 = 0 ∧
  auSrc &&& ~~~((if p.unified then 0x1FFFFFE0#32 else 0x03FFFFE0#32)) = 0

/-- A snapshot an instance with these parameters could have produced, as far as its registers go. -/
abbrev SnapLegal (p : Params) (snap : Snapshot) : Prop :=
  RegsLegal p snap.arInfo snap.arMm snap.arAr snap.arCnt snap.auSrc

/-- Every snapshot an input carries is one the instance could have produced. -/
abbrev InputLegal (p : Params) (x : Input) : Prop :=
  match x.what with
  | .keyed _ operand => SnapLegal p operand.snap
  | .bus _ _ _ _ => True

/-- The invariant: legal parameters, canonical memories within their address spaces, the line as the latch says (R59), registers
within their masks. -/
structure State.Inv (s : State) : Prop where
  cfg : s.cfg.wf
  line : s.line = lineOf s.ctrl
  memWf : s.mem.wf
  memBelow : Memory.below s.mem (2 ^ 32)
  aramWf : s.aram.wf
  aramBelow : Memory.below s.aram s.cfg.aramSize
  regs : RegsLegal s.cfg s.arInfo s.arMm s.arAr s.arCnt s.auSrc
  inbox : ∀ x ∈ s.inbox, InputLegal s.cfg x

/-! ## Deliveries -/

/-- The scheduler may deliver this entry of `pending` now, by this kind and `seq`: it is due, and no entry of its kind and origin with
a smaller `seq` and no later `due` waits (spec 45_host_events.md R292, R295). -/
def mayFire (kind : EventKind) (seq : Nat) (s : State) (e : Entry) : Prop :=
  kindOf e.what = kind ∧ e.seq = seq ∧ e.due ≤ s.now ∧
  ∀ x ∈ s.pending, kindOf x.what = kind → x.origin = e.origin → x.seq < seq → e.due < x.due

/-- The row that delivers an entry of a kind. -/
def fireRow (kind : EventKind) (seq : Nat) : Instr :=
  match kind with
  | .dspInt => .fireDspint seq
  | .aramInt => .fireAramint seq

/-! ## Transfers -/

/-- `n` of a trigger: the count once the low half is stored (43_aram_dma.md R242). -/
def triggerCount (v : Half) (s : State) : Nat := (countOf (setLo s.arCnt (v &&& s.cfg.arCntLoWmask))).toNat

/-- The main-memory address of a trigger after the 64 MB wrap (R243). -/
def triggerMain (s : State) : Word := s.arMm &&& 0x03FFFFFF#32

/-- The auxiliary address of a trigger after the 64 MB wrap (R243). -/
def triggerAux (s : State) : Word := s.arAr &&& 0x03FFFFFF#32

/-- Memory stands behind every granule of a transfer of `n` bytes (20_memory.md R85, R87). -/
def granulesMapped (p : Params) (m : Word) (n : Nat) : Prop :=
  ∀ k, k < n / 8 → mainMap p (m + BitVec.ofNat 32 (8 * k)) 8 = true

/-- Where byte `i` of a transfer comes from in its run: the same place, or the mirrored place of its granule (20_memory.md R91). -/
def sourceByte (o : GranuleOrder) (i : Nat) : Nat :=
  match o with
  | .preserve => i
  | .reverse => i / 8 * 8 + (7 - i % 8)

/-! ## Ticks -/

/-- `k` ticks in a row. -/
def ticks : Nat → State → Result
  | 0, s => .next s
  | k + 1, s =>
    match exec .tick s with
    | .next t => ticks k t
    | .fault f => .fault f
    | .refused r => .refused r

end Sys2Proof.Machine
end

