-- ==== Sys2Proof/WellFormed.lean ====
section
/-! DEFINITION. Which instructions the encoding can carry: the shape of their offsets (spec 20_memory.md R94, 30_encoding.md
R113, R116, R121). Every other operand is taken whole (R115), so it is never ill formed. -/

namespace Sys2Proof

/-- An even offset with no register: where the unmapped rows stand (R121). -/
def unmappedOffset (off : Half) : Bool :=
  !off.getLsbD 0 && (Reg.ofOffset off).isNone

/-- A multiple of 4: where the 32-bit rows stand (R113). -/
def wideOffset (off : Half) : Bool :=
  off.extractLsb' 0 2 == 0

/-- The check. -/
def WellFormed : Instr → Bool
  | .rd16Unmapped off => unmappedOffset off
  | .wr16Unmapped off _ => unmappedOffset off
  | .rd32 off => wideOffset off
  | .wr32 off _ => wideOffset off
  | .rd16MboxToHi | .rd16MboxToLo | .rd16MboxFromHi | .rd16MboxFromLo | .rd16Ctrl | .rd16ArInfo | .rd16ArMode
  | .rd16ArRefresh | .rd16ArMmHi | .rd16ArMmLo | .rd16ArArHi | .rd16ArArLo | .rd16ArCntHi | .rd16ArCntLo | .rd16AuSrcHi
  | .rd16AuSrcLo | .rd16AuCtl | .rd16AuLeft => true
  | .wr16MboxToHi _ | .wr16MboxToLo _ | .wr16MboxFromHi _ | .wr16MboxFromLo _ | .wr16Ctrl _ | .wr16ArInfo _ | .wr16ArMode _
  | .wr16ArRefresh _ | .wr16ArMmHi _ | .wr16ArMmLo _ | .wr16ArArHi _ | .wr16ArArLo _ | .wr16ArCntHi _ | .wr16ArCntLo _
  | .wr16AuSrcHi _ | .wr16AuSrcLo _ | .wr16AuCtl _ | .wr16AuLeft _ => true
  | .tick | .fireDspint _ | .fireAramint _ | .coreIrq _ _ | .sliceCredit _ | .advance _ | .init | .shutdown | .snapshot
  | .restore _ _ => true

end Sys2Proof
end

