-- ==== Sys2Proof/Certificates/Slice0/Obligations.lean ====
section
/-! DEFINITION. The statements for the provers.  An equation `exec i s = .next { s with … }` says the result, the completion and
the frame at once: every field not named, and every byte of memory, is as before. -/

open Sys2Proof Sys2Proof.Machine

/-! ## Encoding (spec 30_encoding.md) -/

/-- Encoding then decoding gives the instruction back, every operand at every value. -/
def Obligations.EncodeThenDecodeReturnsInstr : Prop :=
  ∀ i : Instr, WellFormed i = true → decode (encode i).word (encode i).operand = .ok i

/-- Each key has one meaning: what decodes is well formed and has that key. -/
def Obligations.DecodedKeyIsItsEncoding : Prop :=
  ∀ (w : BitVec 24) (op : Operand) (i : Instr), decode w op = .ok i → WellFormed i = true ∧ (encode i).word = w

/-- R116: specific rows first, then the unmapped rows, then the `BUS32` rows, then the events; R111's refusal otherwise. -/
def Obligations.DecoderSelectsRows : Prop :=
  (∀ (r : Reg) (op : Operand),
    decode (keyWord 0 false r.offset) op = .ok r.rd16 ∧ decode (keyWord 0 true r.offset) op = .ok (r.wr16 op.half)) ∧
  (∀ (off : Half) (op : Operand), off.toNat % 2 = 0 → (∀ r : Reg, r.offset ≠ off) →
    decode (keyWord 0 false off) op = .ok (.rd16Unmapped off) ∧
    decode (keyWord 0 true off) op = .ok (.wr16Unmapped off op.half)) ∧
  (∀ (off : Half) (op : Operand), off.toNat % 4 = 0 →
    decode (keyWord 1 false off) op = .ok (.rd32 off) ∧ decode (keyWord 1 true off) op = .ok (.wr32 off op.data)) ∧
  (∀ op : Operand,
    decode 0x040001#24 op = .ok .tick ∧ decode 0x040002#24 op = .ok (.fireDspint op.nat) ∧
    decode 0x040003#24 op = .ok (.fireAramint op.nat) ∧ decode 0x040004#24 op = .ok (.coreIrq op.nat op.kinds) ∧
    decode 0x040005#24 op = .ok (.sliceCredit op.nat) ∧ decode 0x040006#24 op = .ok (.advance op.nat) ∧
    decode 0x040007#24 op = .ok .init ∧ decode 0x040008#24 op = .ok .shutdown ∧
    decode 0x040009#24 op = .ok .snapshot ∧ decode 0x04000A#24 op = .ok (.restore op.snap op.queue)) ∧
  (∀ (w : BitVec 24) (op : Operand), 3 ≤ w.toNat / 0x20000 → decode w op = .error (.reservedEncoding w.toNat))

/-- R111: exactly the keys with class 11, with class 10 and `W` 1, or with an unknown event code (or beyond 19 bits) are
reserved, and a live block presented with one refuses it. -/
def Obligations.ReservedKeysAreRefused : Prop :=
  ∀ (w : BitVec 24) (op : Operand),
    ((3 ≤ w.toNat / 0x20000 ∨
      (w.toNat / 0x20000 = 2 ∧ (w.toNat / 0x10000 % 2 = 1 ∨ w.toNat % 0x10000 = 0 ∨ 0x000A < w.toNat % 0x10000))) ↔
      decode w op = .error (.reservedEncoding w.toNat)) ∧
    ∀ (s : State) (p : Input) (rest : List Input), s.inbox = p :: rest → p.what = .keyed w op → s.status = .live →
      decode w op = .error (.reservedEncoding w.toNat) →
      step s = .refused (.reservedEncoding w.toNat) ∧ statusAfter s (step s) = .refused (.reservedEncoding w.toNat)

/-- R94: a CPU access of the window that is 8 bits wide, odd, or wide and not at a multiple of 4 is refused; the other shapes run.
How an address becomes a key is the model's (log 15): an access is the block's when it begins in the window, also a 32-bit one whose
second half lies behind the window's end, and an offset beyond a key's 16 bits acts as the unmapped offset it is (R150, R151). -/
def Obligations.UnsupportedShapesAreRefused : Prop :=
  ∀ (s : State) (width : Width) (wr : Bool) (addr data : Word) (p : Input) (rest : List Input),
    s.status = .live → s.inbox = p :: rest → p.what = .bus width wr addr data → inWindow s.cfg addr = true →
    (width = .bits8 → step s = .refused (.unsupportedAccess 8 (busOffset s.cfg addr))) ∧
    (width = .bits16 → busOffset s.cfg addr % 2 = 1 → step s = .refused (.unsupportedAccess 16 (busOffset s.cfg addr))) ∧
    (width = .bits32 → busOffset s.cfg addr % 4 ≠ 0 → step s = .refused (.unsupportedAccess 32 (busOffset s.cfg addr))) ∧
    (width = .bits16 → busOffset s.cfg addr % 2 = 0 → busOffset s.cfg addr < 0x10000 →
      ∃ i, decode (keyWord 0 wr (BitVec.ofNat 16 (busOffset s.cfg addr))) { data := data } = .ok i ∧
        step s = exec i (arrive p rest s)) ∧
    (width = .bits32 → busOffset s.cfg addr % 4 = 0 → busOffset s.cfg addr < 0x10000 →
      ∃ i, decode (keyWord 1 wr (BitVec.ofNat 16 (busOffset s.cfg addr))) { data := data } = .ok i ∧
        step s = exec i (arrive p rest s)) ∧
    (width = .bits16 → busOffset s.cfg addr % 2 = 0 → 0x10000 ≤ busOffset s.cfg addr →
      step s = .next { arrive p rest s with reply := if wr then .none else .half s.cfg.unmappedRead16 }) ∧
    (width = .bits32 → busOffset s.cfg addr % 4 = 0 → 0x10000 ≤ busOffset s.cfg addr →
      step s = .next { arrive p rest s with
        reply := if wr then .none else .word (s.cfg.unmappedRead16 ++ s.cfg.unmappedRead16) })

/-- Words written out from the spec's vectors V60.1 to V60.6 and programs P1 to P3. -/
def Obligations.SpecKeysDecodeAsWritten : Prop :=
  decode 0x005010#24 {} = .ok (.rd16Unmapped 0x5010) ∧
  decode 0x01502A#24 { data := 0x20 } = .ok (.wr16ArCntLo 0x0020) ∧
  decode 0x02500A#24 {} = .error (.unsupportedAccess 32 0x500A) ∧
  decode 0x060000#24 {} = .error (.reservedEncoding 0x60000) ∧
  decode 0x050001#24 {} = .error (.reservedEncoding 0x50001) ∧
  decode 0x04000B#24 {} = .error (.reservedEncoding 0x4000B) ∧
  decode 0x01500A#24 { data := 0x0040 } = .ok (.wr16Ctrl 0x0040) ∧
  decode 0x035028#24 { data := 0x80000040 } = .ok (.wr32 0x5028 0x80000040) ∧
  decode 0x040006#24 { nat := 492 } = .ok (.advance 492) ∧
  decode 0x005004#24 {} = .ok .rd16MboxFromHi ∧
  decode 0x015036#24 { data := 0x8004 } = .ok (.wr16AuCtl 0x8004) ∧
  decode 0x040001#24 {} = .ok .tick

/-! ## The step (spec 10_state.md R61, R64, 20_memory.md R81) -/

/-- A presented key that decodes is executed, after the outside bytes and answers that came with it are in place. -/
def Obligations.StepRunsTheDecodedInstr : Prop :=
  ∀ (s : State) (w : BitVec 24) (op : Operand) (mw pw : List (Nat × Byte)) (ans : List Nat) (rest : List Input) (i : Instr),
    s.inbox = ⟨.keyed w op, mw, pw, ans⟩ :: rest → decode w op = .ok i →
    step s = exec i (arrive ⟨.keyed w op, mw, pw, ans⟩ rest s) ∧
    (mw = [] → pw = [] → step s = exec i { s with inbox := rest, answers := ans })

/-- An access outside the register window leaves the block as it is (R81), and with nothing presented nothing changes (the
model's choice, log 4). -/
def Obligations.OutsideTheWindowNothingHappens : Prop :=
  (∀ (s : State) (width : Width) (wr : Bool) (addr data : Word) (ans : List Nat) (rest : List Input),
    s.inbox = ⟨.bus width wr addr data, [], [], ans⟩ :: rest →
    (busOffset s.cfg addr < 0x5000 ∨ 0x5000 + s.cfg.windowBytes ≤ busOffset s.cfg addr) →
    step s = .next { s with inbox := rest, answers := ans, reply := .none }) ∧
  (∀ s : State, s.inbox = [] → step s = .next s)

/-- R61, R374: the statuses and the steps they allow.  That a step which is not enabled ends as `stuck` is the model's form (log 10). -/
def Obligations.StatusGatesEveryStep : Prop :=
  (∀ (i : Instr) (s : State), i ≠ .init → s.status ≠ .live → exec i s = .fault (.stuck .statusForbids)) ∧
  (∀ s : State, s.status ≠ .uninit → s.status ≠ .shut → exec .init s = .fault (.stuck .statusForbids)) ∧
  (∀ s : State, s.status = .uninit ∨ s.status = .shut → ∃ t, exec .init s = .next t ∧ t.status = .live) ∧
  (∀ s : State, s.status = .live → ∃ t, exec .shutdown s = .next t ∧ t.status = .shut) ∧
  (∀ (i : Instr) (s t : State), WellFormed i = true → exec i s = .next t → t.status = .live ∨ (i = .shutdown ∧ t.status = .shut)) ∧
  (∀ (s : State) (f : Fault), (∀ w, f ≠ .stuck w) → statusAfter s (.fault f) = .faulted f) ∧
  (∀ (s : State) (r : Refusal), statusAfter s (.refused r) = .refused r)

/-- R334, R335: which steps fault or are refused while the block is live, and with which reason.  `stuck` is no reason of R334's list
but the model's form for a step that is not enabled (R292, R295, R310, log 10). -/
def Obligations.StopsComeOnlyFromTheirRules : Prop :=
  (∀ (i : Instr) (s : State) (f : Fault), s.status = .live → exec i s = .fault f →
    ((∃ a n, f = .mainUnmapped a n) ∧ ((∃ v, i = .wr16AuCtl v) ∨ (∃ v, i = .wr16ArCntLo v) ∨ (∃ o d, i = .wr32 o d) ∨ i = .tick)) ∨
    (f = .serializationShapeMismatch ∧ ∃ snap q, i = .restore snap q) ∨
    ((∃ w, f = .stuck w) ∧ ((∃ q, i = .fireDspint q) ∨ (∃ q, i = .fireAramint q) ∨ i = .init))) ∧
  (∀ (i : Instr) (s : State) (r : Refusal), exec i s = .refused r →
    (∃ n, i = .advance n ∧ n < s.now ∧ r = .timeReversal n) ∨ (∃ d k, i = .coreIrq d k ∧ r = .coreKindNotAllowed k))

/-! ## Register bank (spec 40_register_bank.md) -/

/-- R142: a direct read returns the store and has no side effect.  R210, R212: blocks left reads one less than the countdown, never
below 0. -/
def Obligations.RegisterReadsReturnTheStore : Prop :=
  ∀ s : State, s.status = .live →
    exec .rd16ArInfo s = .next { s with reply := .half s.arInfo } ∧
    exec .rd16ArMode s = .next { s with reply := .half s.arMode } ∧
    exec .rd16ArRefresh s = .next { s with reply := .half s.arRefresh } ∧
    exec .rd16ArMmHi s = .next { s with reply := .half (BitVec.ofNat 16 (s.arMm.toNat / 0x10000)) } ∧
    exec .rd16ArMmLo s = .next { s with reply := .half (BitVec.ofNat 16 (s.arMm.toNat % 0x10000)) } ∧
    exec .rd16ArArHi s = .next { s with reply := .half (BitVec.ofNat 16 (s.arAr.toNat / 0x10000)) } ∧
    exec .rd16ArArLo s = .next { s with reply := .half (BitVec.ofNat 16 (s.arAr.toNat % 0x10000)) } ∧
    exec .rd16ArCntHi s = .next { s with reply := .half (BitVec.ofNat 16 (s.arCnt.toNat / 0x10000)) } ∧
    exec .rd16ArCntLo s = .next { s with reply := .half (BitVec.ofNat 16 (s.arCnt.toNat % 0x10000)) } ∧
    exec .rd16AuSrcHi s = .next { s with reply := .half (BitVec.ofNat 16 (s.auSrc.toNat / 0x10000)) } ∧
    exec .rd16AuSrcLo s = .next { s with reply := .half (BitVec.ofNat 16 (s.auSrc.toNat % 0x10000)) } ∧
    exec .rd16AuCtl s = .next { s with reply := .half s.auCtl } ∧
    exec .rd16AuLeft s = .next { s with reply := .half (BitVec.ofNat 16 (s.auRem.toNat - 1)) }

/-- R141: a direct write stores `v & M` and drops the other bits; the other half of a pair is kept. -/
def Obligations.DirectWritesStoreTheMaskedValue : Prop :=
  ∀ (s : State) (v : Half), s.status = .live →
    exec (.wr16ArInfo v) s = .next { s with arInfo := v &&& 0x007F, reply := .none } ∧
    exec (.wr16ArRefresh v) s = .next { s with arRefresh := v &&& 0x07FF, reply := .none } ∧
    exec (.wr16ArMmHi v) s = .next { s with
      arMm := BitVec.ofNat 32 ((v &&& 0x03FF).toNat * 0x10000 + s.arMm.toNat % 0x10000), reply := .none } ∧
    exec (.wr16ArMmLo v) s = .next { s with
      arMm := BitVec.ofNat 32 (s.arMm.toNat / 0x10000 * 0x10000 + (v &&& 0xFFE0).toNat), reply := .none } ∧
    exec (.wr16ArArHi v) s = .next { s with
      arAr := BitVec.ofNat 32 ((v &&& 0x03FF).toNat * 0x10000 + s.arAr.toNat % 0x10000), reply := .none } ∧
    exec (.wr16ArArLo v) s = .next { s with
      arAr := BitVec.ofNat 32 (s.arAr.toNat / 0x10000 * 0x10000 + (v &&& 0xFFE0).toNat), reply := .none } ∧
    exec (.wr16ArCntHi v) s = .next { s with
      arCnt := BitVec.ofNat 32 ((v &&& 0x83FF).toNat * 0x10000 + s.arCnt.toNat % 0x10000), reply := .none } ∧
    exec (.wr16AuSrcHi v) s = .next { s with
      auSrc := BitVec.ofNat 32 ((v &&& (if s.cfg.unified then 0x1FFF else 0x03FF)).toNat * 0x10000 + s.auSrc.toNat % 0x10000),
      reply := .none } ∧
    exec (.wr16AuSrcLo v) s = .next { s with
      auSrc := BitVec.ofNat 32 (s.auSrc.toNat / 0x10000 * 0x10000 + (v &&& 0xFFE0).toNat), reply := .none }

/-- R158: the invalid writes are discarded with a diagnostic and nothing else.  R150, R151: an unmapped read returns the one fixed
default, an unmapped write is dropped without a record. -/
def Obligations.InvalidAndUnmappedAccessesChangeNothing : Prop :=
  ∀ (s : State) (off v : Half), s.status = .live →
    exec (.wr16MboxFromHi v) s = .next { s with log := s.log ++ [.invalidWrite 0x5004 v], reply := .none } ∧
    exec (.wr16MboxFromLo v) s = .next { s with log := s.log ++ [.invalidWrite 0x5006 v], reply := .none } ∧
    exec (.wr16ArMode v) s = .next { s with log := s.log ++ [.invalidWrite 0x5016 v], reply := .none } ∧
    exec (.wr16AuLeft v) s = .next { s with log := s.log ++ [.invalidWrite 0x503A v], reply := .none } ∧
    exec (.rd16Unmapped off) s = .next { s with reply := .half s.cfg.unmappedRead16 } ∧
    exec (.wr16Unmapped off v) s = .next { s with reply := .none }

/-- R155: `RD32` is the two 16-bit reads back to back, the high half first. -/
def Obligations.WideReadIsTwoReads : Prop :=
  ∀ (s : State) (off : Half), s.status = .live → off.toNat % 4 = 0 →
    ∃ (i j : Instr) (hi lo : Half) (t u : State),
      decode (keyWord 0 false off) {} = .ok i ∧ decode (keyWord 0 false (off + 2)) {} = .ok j ∧
      exec i s = .next t ∧ t.reply = .half hi ∧ exec j t = .next u ∧ u.reply = .half lo ∧
      exec (.rd32 off) s = .next { u with reply := .word (hi ++ lo) }

/-- R156: `WR32` is the two 16-bit writes back to back, the high half first; it completes wherever neither half starts a DMA. -/
def Obligations.WideWriteIsTwoWrites : Prop :=
  ∀ (s : State) (off : Half) (d : Word), s.status = .live → off.toNat % 4 = 0 →
    (∃ (i j : Instr),
      decode (keyWord 0 true off) { data := BitVec.ofNat 32 (d.toNat / 0x10000) } = .ok i ∧
      decode (keyWord 0 true (off + 2)) { data := BitVec.ofNat 32 (d.toNat % 0x10000) } = .ok j ∧
      exec (.wr32 off d) s = (match exec i s with | .next t => exec j t | .fault f => .fault f | .refused r => .refused r)) ∧
    (off ≠ 0x5028 → off ≠ 0x5034 → ∃ t, exec (.wr32 off d) s = .next t)

/-- The mixed pairs of R157, each half by its own rule.  The pair at 0x5008 reads ControlRegister in its low half (R155, R120);
R157's own example for it says otherwise, and the model follows the rules (log 29). -/
def Obligations.WideAccessOfMixedPairs : Prop :=
  ∀ (s : State) (d : Word), s.status = .live →
    exec (.rd32 0x5034) s = .next { s with reply := .word (s.cfg.unmappedRead16 ++ s.auCtl) } ∧
    exec (.rd32 0x5038) s =
      .next { s with reply := .word (s.cfg.unmappedRead16 ++ BitVec.ofNat 16 (s.auRem.toNat - 1)) } ∧
    exec (.rd32 0x5028) s = .next { s with reply := .word s.arCnt } ∧
    exec (.wr32 0x5034 d) s = exec (.wr16AuCtl (BitVec.ofNat 16 (d.toNat % 0x10000))) s ∧
    exec (.wr32 0x5008 d) s = exec (.wr16Ctrl (BitVec.ofNat 16 (d.toNat % 0x10000))) s ∧
    ∃ (c : Half) (t : State), exec .rd16Ctrl s = .next t ∧ t.reply = .half c ∧
      exec (.rd32 0x5008) s = .next { t with reply := .word (s.cfg.unmappedRead16 ++ c) }

/-! ## Mailbox bridge (spec 44_mailbox.md) -/

/-- R276, R271, R275: a read of either high half first runs at most one 72-cycle slice, only with a cycle-stepped core and a budget
above 72, then asks the core.  The record of the `isCycleStepped` call is the model's reading (log 12), so it is left out of what
is claimed of the log. -/
def Obligations.HighMailboxReadsAccountOneSlice : Prop :=
  ∀ s : State, s.status = .live → ∀ box : MailBox,
    ∃ (a : Half) (t : State) (extra : List LogEntry),
      exec (match box with | .toDSP => .rd16MboxToHi | .fromDSP => .rd16MboxFromHi) s = .next t ∧
      t = { s with
        dspSlice := if s.cfg.coreCycleStepped = true ∧ 72 < s.dspSlice then s.dspSlice - 72 else s.dspSlice
        log := s.log ++ extra, answers := t.answers, draws := t.draws, reply := .half a } ∧
      extra.filter (fun e => e != .coreIsCycleStepped s.cfg.coreCycleStepped) =
        (if s.cfg.coreCycleStepped = true ∧ 72 < s.dspSlice then [.coreUpdate 72] else []) ++ [.coreReadMailbox .hi box a] ∧
      (∀ x rest, s.answers = x :: rest → a = BitVec.ofNat 16 x ∧ t.answers = rest) ∧
      (0 < s.dspSlice → 0 < t.dspSlice)

/-- R272, R273, R274, R277: a read of a low half only asks the core, a write of the to-DSP mailbox is forwarded verbatim; neither
touches the budget. -/
def Obligations.LowReadsAndMailboxWritesOnlyCallTheCore : Prop :=
  ∀ s : State, s.status = .live →
    (∀ box : MailBox, ∃ (a : Half) (t : State),
      exec (match box with | .toDSP => .rd16MboxToLo | .fromDSP => .rd16MboxFromLo) s = .next t ∧
      t = { s with log := s.log ++ [.coreReadMailbox .lo box a], answers := t.answers, draws := t.draws, reply := .half a } ∧
      (∀ x rest, s.answers = x :: rest → a = BitVec.ofNat 16 x ∧ t.answers = rest)) ∧
    (∀ v : Half,
      exec (.wr16MboxToHi v) s = .next { s with log := s.log ++ [.coreWriteMailbox .hi .toDSP v], reply := .none } ∧
      exec (.wr16MboxToLo v) s = .next { s with log := s.log ++ [.coreWriteMailbox .lo .toDSP v], reply := .none })

/-- R62: what moves the budget, and by how much at most. -/
def Obligations.BudgetMovesOnlyByItsRules : Prop :=
  ∀ (i : Instr) (s t : State), WellFormed i = true → exec i s = .next t → t.dspSlice ≠ s.dspSlice →
    ((i = .rd16MboxToHi ∨ i = .rd16MboxFromHi ∨ i = .rd32 0x5000 ∨ i = .rd32 0x5004) ∧ t.dspSlice = s.dspSlice - 72) ∨
    (∃ n, i = .sliceCredit n ∧ t.dspSlice = s.dspSlice + n) ∨ i = .init ∨ ∃ snap q, i = .restore snap q

/-! ## ControlRegister and interrupt latch (spec 41_control_interrupt.md) -/

/-- R170: a read merges the core's answer in the core-owned bits with the stored copy in the others. -/
def Obligations.CtrlReadMergesTheCoreBits : Prop :=
  ∀ s : State, s.status = .live → ∃ (a : Half) (t : State),
    exec .rd16Ctrl s = .next t ∧
    t = { s with
      log := s.log ++ [.coreReadControl a], answers := t.answers, draws := t.draws
      reply := .half ((s.ctrl &&& ~~~s.cfg.coreCtrlMask) ||| (a &&& s.cfg.coreCtrlMask)) } ∧
    (∀ x rest, s.answers = x :: rest → a = BitVec.ofNat 16 x ∧ t.answers = rest)

/-- R175, R176: the write, bit by bit: pending bits 3, 5, 7 survive where the write has 0, bit 9 is kept, every other bit is the
write's; the core is told first, padding is reported, the line is sent last. -/
def Obligations.CtrlWriteAdoptsAndAcknowledges : Prop :=
  ∀ (s : State) (v : Half), s.status = .live → ∃ (a : Half) (t : State),
    exec (.wr16Ctrl v) s = .next t ∧
    t = { s with
      ctrl := t.ctrl, line := lineOf t.ctrl
      log := s.log ++ ([.coreWriteControl v a] ++ (if v.toNat / 0x1000 = 0 then [] else [.configurationAnomaly v]) ++
        [.setLine (lineOf t.ctrl)])
      answers := t.answers, draws := t.draws, reply := .none } ∧
    ∀ k, k < 16 → t.ctrl.getLsbD k =
      (if k = 3 ∨ k = 5 ∨ k = 7 then s.ctrl.getLsbD k && !v.getLsbD k else if k = 9 then s.ctrl.getLsbD k else v.getLsbD k)

/-- R184: the line is asserted exactly when some kind is pending and enabled. -/
def Obligations.LineMeansSomeKindPendingAndEnabled : Prop :=
  ∀ c : Half, lineOf c = true ↔
    (c.getLsbD 3 = true ∧ c.getLsbD 4 = true) ∨ (c.getLsbD 5 = true ∧ c.getLsbD 6 = true) ∨
    (c.getLsbD 7 = true ∧ c.getLsbD 8 = true)

/-- R187, R188: enabling a pending kind asserts the line in that step; masking the only pending and enabled kind deasserts it and
leaves the kind pending. -/
def Obligations.EnablingAssertsAndMaskingKeepsPending : Prop :=
  ∀ (s : State) (v : Half) (p : Nat), s.status = .live → p = 3 ∨ p = 5 ∨ p = 7 → s.ctrl.getLsbD p = true →
    v.getLsbD p = false →
    (v.getLsbD (p + 1) = true → ∃ t, exec (.wr16Ctrl v) s = .next t ∧ t.line = true ∧ t.ctrl.getLsbD p = true) ∧
    (v.getLsbD (p + 1) = false →
      (∀ q, q = 3 ∨ q = 5 ∨ q = 7 → q ≠ p → ¬(s.ctrl.getLsbD q = true ∧ v.getLsbD q = false ∧ v.getLsbD (q + 1) = true)) →
      ∃ t, exec (.wr16Ctrl v) s = .next t ∧ t.line = false ∧ t.ctrl.getLsbD p = true)

/-- R35: a pending bit falls only to an acknowledge that names it, init or restore, and rises only by a raise (a tick, a delivery)
or restore. -/
def Obligations.PendingBitsAreSticky : Prop :=
  ∀ (i : Instr) (s t : State) (p : Nat), WellFormed i = true → exec i s = .next t → p = 3 ∨ p = 5 ∨ p = 7 →
    (s.ctrl.getLsbD p = true → t.ctrl.getLsbD p = false →
      (∃ v, i = .wr16Ctrl v ∧ v.getLsbD p = true) ∨ (∃ d, i = .wr32 0x5008 d ∧ d.getLsbD p = true) ∨ i = .init ∨
      ∃ snap q, i = .restore snap q) ∧
    (s.ctrl.getLsbD p = false → t.ctrl.getLsbD p = true →
      i = .tick ∨ (∃ q, i = .fireDspint q) ∨ (∃ q, i = .fireAramint q) ∨ ∃ snap q, i = .restore snap q)

/-- R36: `DMA_ACT` is set by the trigger and cleared by the completion; nothing else but init and restore moves it. -/
def Obligations.DmaActMovesOnlyByTriggerAndCompletion : Prop :=
  ∀ (i : Instr) (s t : State), WellFormed i = true → exec i s = .next t →
    (s.ctrl.getLsbD 9 = false → t.ctrl.getLsbD 9 = true →
      (∃ v, i = .wr16ArCntLo v) ∨ (∃ d, i = .wr32 0x5028 d) ∨ ∃ snap q, i = .restore snap q) ∧
    (s.ctrl.getLsbD 9 = true → t.ctrl.getLsbD 9 = false →
      (∃ q, i = .fireAramint q) ∨ i = .init ∨ ∃ snap q, i = .restore snap q) ∧
    ((∃ v, i = .wr16ArCntLo v) ∨ (∃ d, i = .wr32 0x5028 d) → t.ctrl.getLsbD 9 = true) ∧
    ((∃ q, i = .fireAramint q) → t.ctrl.getLsbD 9 = false)

/-- R38: the enable bits hold the last ControlRegister write; nothing else but init and restore writes them. -/
def Obligations.EnableBitsHoldTheLastWrite : Prop :=
  ∀ (i : Instr) (s t : State) (p : Nat), WellFormed i = true → exec i s = .next t → p = 4 ∨ p = 6 ∨ p = 8 →
    (∀ v, i = .wr16Ctrl v → t.ctrl.getLsbD p = v.getLsbD p) ∧ (∀ d, i = .wr32 0x5008 d → t.ctrl.getLsbD p = d.getLsbD p) ∧
    ((∀ v, i ≠ .wr16Ctrl v) → (∀ d, i ≠ .wr32 0x5008 d) → i ≠ .init → (∀ snap q, i ≠ .restore snap q) →
      t.ctrl.getLsbD p = s.ctrl.getLsbD p)

/-- R185, R59: after every step the line is what the latch says. -/
def Obligations.LineFollowsTheLatch : Prop :=
  ∀ s t : State, s.line = lineOf s.ctrl → step s = .next t → t.line = lineOf t.ctrl

/-! ## Audio DMA (spec 42_audio_dma.md) -/

/-- R207, R208: the enable edge loads the cursor and the countdown, pushes the whole buffer at once and requests exactly one kind-A
interrupt 200 cycles later. -/
def Obligations.EnableEdgeStartsTheAudioDma : Prop :=
  ∀ (s : State) (v : Half), s.status = .live → s.auCtl.getLsbD 15 = false → v.getLsbD 15 = true →
    (v.toNat % 0x8000 = 0 ∨ mainMap s.cfg s.auSrc (v.toNat % 0x8000 * 32) = true) →
    exec (.wr16AuCtl v) s = .next { s with
      auCtl := v, auCur := s.auSrc, auRem := BitVec.ofNat 15 (v.toNat % 0x8000)
      pending := s.pending ++ [⟨.dspInt ⟨true, false, false⟩, s.now + 200, .emu, s.nextSeq⟩], nextSeq := s.nextSeq + 1
      log := s.log ++
        ((if v.toNat % 0x8000 = 0 then []
          else [.memRead s.auSrc ((List.range (v.toNat % 0x8000 * 32)).map fun i => s.mem.read ((s.auSrc.toNat + i) % 2 ^ 32))]) ++
        [.push (.main s.auSrc) (v.toNat % 0x8000 * 8)
          ((List.range (v.toNat % 0x8000 * 32)).map fun i => s.mem.read ((s.auSrc.toNat + i) % 2 ^ 32)),
        .schedule 200 (.dspInt ⟨true, false, false⟩) .emu])
      reply := .none }

/-- R207, R209: any other write of the control register only stores, and while the engine is enabled no write of the source or of the
control moves the cursor or the countdown. -/
def Obligations.WithoutAnEdgeTheConfigurationIsBuffered : Prop :=
  ∀ (s : State) (v : Half), s.status = .live →
    (s.auCtl.getLsbD 15 = true ∨ v.getLsbD 15 = false → exec (.wr16AuCtl v) s = .next { s with auCtl := v, reply := .none }) ∧
    (∃ t, exec (.wr16AuSrcHi v) s = .next t ∧ t.auCur = s.auCur ∧ t.auRem = s.auRem) ∧
    (∃ t, exec (.wr16AuSrcLo v) s = .next t ∧ t.auCur = s.auCur ∧ t.auRem = s.auRem)

/-- R216, R217: a disabled tick pushes one block of silence and changes nothing of the block; an enabled tick with two or more blocks
left consumes one and pushes nothing. -/
def Obligations.TicksWithoutReload : Prop :=
  ∀ s : State, s.status = .live →
    (s.auCtl.getLsbD 15 = false →
      exec .tick s = .next { s with log := s.log ++ [.push .silence 8 (List.replicate 32 0)], reply := .none }) ∧
    (s.auCtl.getLsbD 15 = true → 2 ≤ s.auRem.toNat →
      exec .tick s = .next { s with
        auRem := BitVec.ofNat 15 (s.auRem.toNat - 1), auCur := BitVec.ofNat 32 (s.auCur.toNat + 32), reply := .none })

/-- R218, R220: with one block or none left the tick reloads; a nonzero count pushes the buffer and raises kind A in the same step,
a zero count does neither. -/
def Obligations.LastTickReloads : Prop :=
  ∀ s : State, s.status = .live → s.auCtl.getLsbD 15 = true → s.auRem.toNat ≤ 1 →
    (s.auCtl.toNat % 0x8000 = 0 → exec .tick s = .next { s with auCur := s.auSrc, auRem := 0, reply := .none }) ∧
    (s.auCtl.toNat % 0x8000 ≠ 0 → mainMap s.cfg s.auSrc (s.auCtl.toNat % 0x8000 * 32) = true →
      exec .tick s = .next { s with
        auCur := s.auSrc, auRem := BitVec.ofNat 15 (s.auCtl.toNat % 0x8000)
        ctrl := s.ctrl ||| 0x0008, line := lineOf (s.ctrl ||| 0x0008)
        log := s.log ++
          [.memRead s.auSrc ((List.range (s.auCtl.toNat % 0x8000 * 32)).map fun i => s.mem.read ((s.auSrc.toNat + i) % 2 ^ 32)),
          .push (.main s.auSrc) (s.auCtl.toNat % 0x8000 * 8)
            ((List.range (s.auCtl.toNat % 0x8000 * 32)).map fun i => s.mem.read ((s.auSrc.toNat + i) % 2 ^ 32)),
          .setLine (lineOf (s.ctrl ||| 0x0008))]
        reply := .none })

/-- R219: from a freshly loaded buffer of `n` blocks the countdown repeats with period `n`, and blocks left reads n-2, n-3, …, 0,
then n-1. -/
def Obligations.CountdownRepeatsWithPeriodN : Prop :=
  ∀ (s : State) (n k : Nat), s.status = .live → s.auCtl.getLsbD 15 = true → 1 ≤ n → s.auCtl.toNat % 0x8000 = n →
    s.auRem.toNat = n → s.auCur = s.auSrc → mainMap s.cfg s.auSrc (n * 32) = true →
    ∃ t u, ticks k s = .next t ∧ t.auRem.toNat = n - k % n ∧ t.auCur = s.auSrc + BitVec.ofNat 32 (32 * (k % n)) ∧
      t.auCtl = s.auCtl ∧ t.auSrc = s.auSrc ∧
      exec .rd16AuLeft t = .next u ∧ u.reply = .half (BitVec.ofNat 16 (n - 1 - k % n))

/-- R42, R50, R51: the state no register write reaches.  The hidden cursor and countdown move only at the enable edge, at a tick, at
init and at restore; the controller-ready register only at init and restore. -/
def Obligations.StateNoRegisterWrites : Prop :=
  ∀ (i : Instr) (s t : State), WellFormed i = true → exec i s = .next t →
    (t.auCur ≠ s.auCur ∨ t.auRem ≠ s.auRem →
      i = .tick ∨ (∃ v, i = .wr16AuCtl v ∧ s.auCtl.getLsbD 15 = false ∧ v.getLsbD 15 = true) ∨
      (∃ d, i = .wr32 0x5034 d ∧ s.auCtl.getLsbD 15 = false ∧ d.getLsbD 15 = true) ∨ i = .init ∨
      ∃ snap q, i = .restore snap q) ∧
    (t.arMode ≠ s.arMode → i = .init ∨ ∃ snap q, i = .restore snap q)

/-! ## ARAM DMA (spec 43_aram_dma.md) -/

/-- R242, R250: a trigger whose target is the store or the secondary bus completes where memory stands behind every granule: the
completion is requested `(n / 32) * 246` cycles ahead, the addresses end advanced by `n` from their wrapped values, the count
ends 0 with its direction, `DMA_ACT` is set. -/
def Obligations.TriggerAdvancesTheRegisters : Prop :=
  ∀ (s : State) (v : Half), s.status = .live → s.cfg.wf →
    (triggerAux s).toNat < s.cfg.aramSize ∨ s.cfg.unified = false → granulesMapped s.cfg (triggerMain s) (triggerCount v s) →
    ∃ t, exec (.wr16ArCntLo v) s = .next t ∧
      t = { s with
        arMm := triggerMain s + BitVec.ofNat 32 (triggerCount v s)
        arAr := triggerAux s + BitVec.ofNat 32 (triggerCount v s)
        arCnt := s.arCnt &&& 0x80000000
        ctrl := s.ctrl ||| 0x0200, line := lineOf (s.ctrl ||| 0x0200)
        pending := s.pending ++ [⟨.aramInt, s.now + triggerCount v s / 32 * 246, .emu, s.nextSeq⟩], nextSeq := s.nextSeq + 1
        mem := t.mem, aram := t.aram, log := t.log, answers := t.answers, draws := t.draws, reply := .none }

/-- R85: an access `MAIN_MAP` does not admit is the platform's fault, at the enable edge's push, at a reload's push, and at the first
granule of a transfer with no memory behind it; the machine is marked faulted. -/
def Obligations.UnmappedMainMemoryFaults : Prop :=
  (∀ (s : State) (v : Half), s.status = .live → s.auCtl.getLsbD 15 = false → v.getLsbD 15 = true → v.toNat % 0x8000 ≠ 0 →
    mainMap s.cfg s.auSrc (v.toNat % 0x8000 * 32) = false →
    exec (.wr16AuCtl v) s = .fault (.mainUnmapped s.auSrc (v.toNat % 0x8000 * 32)) ∧
    statusAfter s (exec (.wr16AuCtl v) s) = .faulted (.mainUnmapped s.auSrc (v.toNat % 0x8000 * 32))) ∧
  (∀ s : State, s.status = .live → s.auCtl.getLsbD 15 = true → s.auRem.toNat ≤ 1 → s.auCtl.toNat % 0x8000 ≠ 0 →
    mainMap s.cfg s.auSrc (s.auCtl.toNat % 0x8000 * 32) = false →
    exec .tick s = .fault (.mainUnmapped s.auSrc (s.auCtl.toNat % 0x8000 * 32))) ∧
  (∀ (s : State) (v : Half) (k : Nat), s.status = .live →
    (triggerAux s).toNat < s.cfg.aramSize ∨ s.cfg.unified = false → k < triggerCount v s / 8 →
    (∀ j, j < k → mainMap s.cfg (triggerMain s + BitVec.ofNat 32 (8 * j)) 8 = true) →
    mainMap s.cfg (triggerMain s + BitVec.ofNat 32 (8 * k)) 8 = false →
    exec (.wr16ArCntLo v) s = .fault (.mainUnmapped (triggerMain s + BitVec.ofNat 32 (8 * k)) 8))

/-- R244, R82, R91: main to ARAM.  Each byte of the run stands in the store at its masked index (where a run longer than the store
wraps over itself, its last bytes do), under every policy; main memory is unchanged, and so is every byte of the store outside
the indices written and, under policy 4, the mirrored ones. -/
def Obligations.MainToAramMovesEveryByte : Prop :=
  ∀ (s : State) (v : Half), s.Inv → s.status = .live → s.arCnt.getLsbD 31 = false → (triggerAux s).toNat < s.cfg.aramSize →
    granulesMapped s.cfg (triggerMain s) (triggerCount v s) →
    ∃ t, exec (.wr16ArCntLo v) s = .next t ∧ (∀ x, t.mem.read x = s.mem.read x) ∧
      (∀ i, i < triggerCount v s → triggerCount v s ≤ i + s.cfg.aramSize →
        t.aram.read (((triggerAux s).toNat + i) % s.cfg.aramSize) =
          s.mem.read (((triggerMain s).toNat + sourceByte s.cfg.granuleOrder i) % 2 ^ 32)) ∧
      (∀ x, (∀ i, i < triggerCount v s → x ≠ ((triggerAux s).toNat + i) % s.cfg.aramSize ∧
          (s.arInfo.toNat % 16 = 4 → (triggerAux s).toNat + i / 8 * 8 < 0x400000 →
            x ≠ ((triggerAux s).toNat + i + 0x400000) % s.cfg.aramSize)) →
        t.aram.read x = s.aram.read x)

/-- R247: under policy 4 each granule below 0x400000 stands a second time 0x400000 higher, unless a later granule of the same run
was written over the copy. -/
def Obligations.PolicyFourMirrorsBelowTheLimit : Prop :=
  ∀ (s : State) (v : Half), s.Inv → s.status = .live → s.arCnt.getLsbD 31 = false → (triggerAux s).toNat < s.cfg.aramSize →
    granulesMapped s.cfg (triggerMain s) (triggerCount v s) → s.arInfo.toNat % 16 = 4 → 0x800000 ≤ s.cfg.aramSize →
    ∃ t, exec (.wr16ArCntLo v) s = .next t ∧
      ∀ i, i < triggerCount v s → (triggerAux s).toNat + i / 8 * 8 < 0x400000 → triggerCount v s ≤ i + 0x400000 →
        t.aram.read ((triggerAux s).toNat + i + 0x400000) =
          s.mem.read (((triggerMain s).toNat + sourceByte s.cfg.granuleOrder i) % 2 ^ 32)

/-- R245, R85, R91: ARAM to main.  Each byte of the run stands in main memory, whatever the policy; every other byte of main memory
and the whole store are unchanged. -/
def Obligations.AramToMainMovesEveryByte : Prop :=
  ∀ (s : State) (v : Half), s.Inv → s.status = .live → s.arCnt.getLsbD 31 = true → (triggerAux s).toNat < s.cfg.aramSize →
    granulesMapped s.cfg (triggerMain s) (triggerCount v s) →
    ∃ t, exec (.wr16ArCntLo v) s = .next t ∧ (∀ x, t.aram.read x = s.aram.read x) ∧
      (∀ i, i < triggerCount v s →
        t.mem.read (((triggerMain s).toNat + i) % 2 ^ 32) =
          s.aram.read (((triggerAux s).toNat + sourceByte s.cfg.granuleOrder i) % s.cfg.aramSize)) ∧
      (∀ x, (∀ i, i < triggerCount v s → x ≠ ((triggerMain s).toNat + i) % 2 ^ 32) → t.mem.read x = s.mem.read x)

/-- R248, main to the secondary bus: one `AuxWrite64` a granule with the 64-bit value main memory holds there; no byte of the store
or of main memory changes. -/
def Obligations.MainToBusWritesEveryGranule : Prop :=
  ∀ (s : State) (v : Half), s.status = .live → s.cfg.unified = false → s.arCnt.getLsbD 31 = false →
    s.cfg.aramSize ≤ (triggerAux s).toNat → granulesMapped s.cfg (triggerMain s) (triggerCount v s) →
    ∃ t, exec (.wr16ArCntLo v) s = .next t ∧ t.mem = s.mem ∧ t.aram = s.aram ∧
      t.log = s.log ++ ([.setLine (lineOf (s.ctrl ||| 0x0200)), .schedule (triggerCount v s / 32 * 246) .aramInt .emu] ++
        (List.range (triggerCount v s / 8)).flatMap fun k =>
          [.memRead (triggerMain s + BitVec.ofNat 32 (8 * k)) (mainBytes s.mem (triggerMain s + BitVec.ofNat 32 (8 * k)) 8),
           .auxWrite (triggerAux s + BitVec.ofNat 32 (8 * k))
             (dwordOfBytes (mainBytes s.mem (triggerMain s + BitVec.ofNat 32 (8 * k)) 8))])

/-- R248, the secondary bus to main memory: each granule is the bus's answer, most significant byte first; every other byte of main
memory and the whole store are unchanged.  The answers are free values, or the input's. -/
def Obligations.BusToMainStoresEveryAnswer : Prop :=
  ∀ (s : State) (v : Half), s.Inv → s.status = .live → s.cfg.unified = false → s.arCnt.getLsbD 31 = true →
    s.cfg.aramSize ≤ (triggerAux s).toNat → granulesMapped s.cfg (triggerMain s) (triggerCount v s) →
    ∃ (t : State) (ans : Nat → DWord), exec (.wr16ArCntLo v) s = .next t ∧ (∀ x, t.aram.read x = s.aram.read x) ∧
      t.log = s.log ++ ([.setLine (lineOf (s.ctrl ||| 0x0200)), .schedule (triggerCount v s / 32 * 246) .aramInt .emu] ++
        (List.range (triggerCount v s / 8)).flatMap fun k =>
          [.auxRead (triggerAux s + BitVec.ofNat 32 (8 * k)) (ans k),
           .memWrite (triggerMain s + BitVec.ofNat 32 (8 * k)) (bytesOfDword (ans k))]) ∧
      (∀ k, k < triggerCount v s / 8 → ∀ x, s.answers[k]? = some x → ans k = BitVec.ofNat 64 x) ∧
      (∀ k, k < triggerCount v s / 8 → ∀ r, r < 8 →
        t.mem.read (((triggerMain s).toNat + 8 * k + r) % 2 ^ 32) = (ans k).extractLsb' (8 * (7 - r)) 8) ∧
      (∀ x, (∀ i, i < triggerCount v s → x ≠ ((triggerMain s).toNat + i) % 2 ^ 32) → t.mem.read x = s.mem.read x)

/-- R86: 64-bit values are big-endian both ways. -/
def Obligations.DwordsAreBigEndian : Prop :=
  (∀ (bytes : List Byte) (i : Nat) (b : Byte), bytes.length = 8 → bytes[i]? = some b →
    (dwordOfBytes bytes).extractLsb' (8 * (7 - i)) 8 = b) ∧
  (∀ v : DWord, dwordOfBytes (bytesOfDword v) = v) ∧
  (∀ bytes : List Byte, bytes.length = 8 → bytesOfDword (dwordOfBytes bytes) = bytes)

/-- R251: unified, with the auxiliary address outside the store: no byte moves, the addresses keep their wrapped values, the count
keeps its value, the completion is still requested. -/
def Obligations.UnifiedOutsideTheStoreMovesNothing : Prop :=
  ∀ (s : State) (v : Half), s.status = .live → s.cfg.unified = true → s.cfg.aramSize ≤ (triggerAux s).toNat →
    ∃ t, exec (.wr16ArCntLo v) s = .next t ∧
      t = { s with
        arMm := triggerMain s, arAr := triggerAux s
        arCnt := BitVec.ofNat 32 (s.arCnt.toNat / 0x10000 * 0x10000 + (v &&& s.cfg.arCntLoWmask).toNat)
        ctrl := s.ctrl ||| 0x0200, line := lineOf (s.ctrl ||| 0x0200)
        pending := s.pending ++ [⟨.aramInt, s.now + triggerCount v s / 32 * 246, .emu, s.nextSeq⟩], nextSeq := s.nextSeq + 1
        log := s.log ++ [.setLine (lineOf (s.ctrl ||| 0x0200)), .schedule (triggerCount v s / 32 * 246) .aramInt .emu]
        reply := .none }

/-- R83 and the frames of all rows: only the trigger moves bytes of main memory; only the trigger, init, shutdown and restore touch
the store. -/
def Obligations.OnlyTheTriggerMovesMemory : Prop :=
  ∀ (i : Instr) (s t : State), WellFormed i = true → exec i s = .next t →
    (∀ v, i ≠ .wr16ArCntLo v) → (∀ d, i ≠ .wr32 0x5028 d) →
    (∀ x, t.mem.read x = s.mem.read x) ∧
    (i ≠ .init → i ≠ .shutdown → (∀ snap q, i ≠ .restore snap q) → ∀ x, t.aram.read x = s.aram.read x)

/-! ## Scheduler and host events (spec 45_host_events.md) -/

/-- R255: the completion removes its entry, clears `DMA_ACT`, sets the kind-B pending bit and drives the line.  Of several entries of
this kind and `seq` that may be delivered, which only a restored queue can hold, one is (log 21). -/
def Obligations.CompletionClearsDmaActAndRaisesB : Prop :=
  ∀ (s : State) (seq : Nat), s.status = .live →
    (∀ (pre post : List Entry) (e : Entry), s.pending = pre ++ e :: post → mayFire .aramInt seq s e →
      (∀ x ∈ pre ++ post, ¬mayFire .aramInt seq s x) →
      exec (.fireAramint seq) s = .next { s with
        pending := pre ++ post, ctrl := (s.ctrl &&& 0xFDFF) ||| 0x0020, line := lineOf ((s.ctrl &&& 0xFDFF) ||| 0x0020)
        log := s.log ++ [.setLine (lineOf ((s.ctrl &&& 0xFDFF) ||| 0x0020))], reply := .none }) ∧
    ((∃ e ∈ s.pending, mayFire .aramInt seq s e) →
      ∃ (t : State) (e : Entry), e ∈ s.pending ∧ mayFire .aramInt seq s e ∧ exec (.fireAramint seq) s = .next t ∧
        t = { s with
          pending := s.pending.erase e, ctrl := (s.ctrl &&& 0xFDFF) ||| 0x0020, line := lineOf ((s.ctrl &&& 0xFDFF) ||| 0x0020)
          log := s.log ++ [.setLine (lineOf ((s.ctrl &&& 0xFDFF) ||| 0x0020))], answers := t.answers, draws := t.draws
          reply := .none })

/-- R293: the delivery removes its entry and raises the kinds it carries, whatever became of the engine that asked.  Of several entries
of this kind and `seq` that may be delivered, which only a restored queue can hold, one is (log 21). -/
def Obligations.DeliveryRaisesTheRequestedKinds : Prop :=
  ∀ (s : State) (seq : Nat), s.status = .live →
    (∀ (pre post : List Entry) (k : KindSet) (due : Nat) (o : Origin), s.pending = pre ++ ⟨.dspInt k, due, o, seq⟩ :: post →
      mayFire .dspInt seq s ⟨.dspInt k, due, o, seq⟩ → (∀ x ∈ pre ++ post, ¬mayFire .dspInt seq s x) →
      ∃ t, exec (.fireDspint seq) s = .next t ∧
        t = { s with
          pending := pre ++ post, ctrl := t.ctrl, line := lineOf t.ctrl, log := s.log ++ [.setLine (lineOf t.ctrl)]
          reply := .none } ∧
        ∀ b, b < 16 → t.ctrl.getLsbD b =
          (s.ctrl.getLsbD b || (decide (b = 3) && k.a) || (decide (b = 5) && k.b) || (decide (b = 7) && k.c))) ∧
    ((∃ e ∈ s.pending, mayFire .dspInt seq s e) →
      ∃ (t : State) (e : Entry) (k : KindSet), e ∈ s.pending ∧ mayFire .dspInt seq s e ∧ e.what = .dspInt k ∧
        exec (.fireDspint seq) s = .next t ∧
        t = { s with
          pending := s.pending.erase e, ctrl := t.ctrl, line := lineOf t.ctrl, log := s.log ++ [.setLine (lineOf t.ctrl)]
          answers := t.answers, draws := t.draws, reply := .none } ∧
        ∀ b, b < 16 → t.ctrl.getLsbD b =
          (s.ctrl.getLsbD b || (decide (b = 3) && k.a) || (decide (b = 5) && k.b) || (decide (b = 7) && k.c)))

/-- R292, R295: no delivery before its time, none out of order, none of an entry that is not there (`stuck` is the model's form, log 10);
and every entry that may be delivered can be, whatever other entries of its kind and `seq` a restored queue holds (log 21). -/
def Obligations.DeliveryWaitsForTimeAndOrder : Prop :=
  ∀ (s : State) (kind : EventKind) (seq : Nat), s.status = .live →
    ((∀ e ∈ s.pending, kindOf e.what = kind → e.seq ≠ seq) →
      exec (fireRow kind seq) s = .fault (.stuck (.noEntry seq))) ∧
    ((∃ e ∈ s.pending, kindOf e.what = kind ∧ e.seq = seq) →
      (∀ e ∈ s.pending, kindOf e.what = kind → e.seq = seq → s.now < e.due) →
      exec (fireRow kind seq) s = .fault (.stuck (.notDue seq))) ∧
    ((∃ e ∈ s.pending, kindOf e.what = kind ∧ e.seq = seq ∧ e.due ≤ s.now) →
      (∀ e ∈ s.pending, kindOf e.what = kind → e.seq = seq → e.due ≤ s.now →
        ∃ x ∈ s.pending, kindOf x.what = kind ∧ x.origin = e.origin ∧ x.seq < seq ∧ x.due ≤ e.due) →
      exec (fireRow kind seq) s = .fault (.stuck (.outOfOrder seq))) ∧
    (∀ e ∈ s.pending, mayFire kind seq s e → ∀ rest : List Nat,
      ∃ n t, exec (fireRow kind seq) { s with answers := n :: rest } = .next t ∧ t.pending = s.pending.erase e)

/-- R294: a core request appends one entry from the worker context and touches no register; a set that is empty or not allowed is
refused. -/
def Obligations.CoreRequestOnlyAppends : Prop :=
  ∀ (s : State) (delay : Nat) (k : KindSet), s.status = .live →
    (k ≠ ⟨false, false, false⟩ → (k.a = true → s.cfg.coreIrqKinds.a = true) → (k.b = true → s.cfg.coreIrqKinds.b = true) →
      (k.c = true → s.cfg.coreIrqKinds.c = true) →
      exec (.coreIrq delay k) s = .next { s with
        pending := s.pending ++ [⟨.dspInt k, s.now + delay, .worker, s.nextSeq⟩], nextSeq := s.nextSeq + 1
        log := s.log ++ [.schedule delay (.dspInt k) .worker], reply := .none }) ∧
    (k = ⟨false, false, false⟩ ∨ (k.a = true ∧ s.cfg.coreIrqKinds.a = false) ∨ (k.b = true ∧ s.cfg.coreIrqKinds.b = false) ∨
      (k.c = true ∧ s.cfg.coreIrqKinds.c = false) → exec (.coreIrq delay k) s = .refused (.coreKindNotAllowed k))

/-- R300, R297: credit adds to the budget; time moves to `n`, or backwards is refused. -/
def Obligations.CreditAndAdvanceMoveTheirCounters : Prop :=
  ∀ (s : State) (n : Nat), s.status = .live →
    exec (.sliceCredit n) s = .next { s with dspSlice := s.dspSlice + n, reply := .none } ∧
    (s.now ≤ n → exec (.advance n) s = .next { s with now := n, reply := .none }) ∧
    (n < s.now → exec (.advance n) s = .refused (.timeReversal n))

/-- R388, R58: only `ADVANCE` changes virtual time, and no step takes it back. -/
def Obligations.OnlyAdvanceMovesTime : Prop :=
  ∀ (i : Instr) (s t : State), WellFormed i = true → exec i s = .next t → (t.now ≠ s.now → ∃ n, i = .advance n) ∧ s.now ≤ t.now

/-- R296: an entry leaves `pending` only by its own delivery, by shutdown, or with the whole queue at init and restore (R306, R310). -/
def Obligations.NothingCancelsARequest : Prop :=
  ∀ (i : Instr) (s t : State) (e : Entry), WellFormed i = true → exec i s = .next t → e ∈ s.pending → e ∉ t.pending →
    (i = .fireDspint e.seq ∧ kindOf e.what = .dspInt) ∨ (i = .fireAramint e.seq ∧ kindOf e.what = .aramInt) ∨
    i = .shutdown ∨ i = .init ∨ ∃ snap q, i = .restore snap q

/-- R305: the snapshot holds the items, and taking it changes nothing but the record of the core's save. -/
def Obligations.SnapshotHoldsTheItems : Prop :=
  ∀ s : State, s.status = .live → ∃ (t : State) (img : CoreImage),
    exec .snapshot s = .next t ∧ img.shape = s.cfg.coreShape ∧
    t = { s with
      log := s.log ++ [.coreSave img], answers := t.answers, draws := t.draws
      reply := .snapshot
        ⟨if s.cfg.unified then none else some ⟨s.cfg.aramSize, s.aram⟩, s.ctrl, s.auSrc, s.auCtl, s.auCur, s.auRem,
         s.arMm, s.arAr, s.arCnt, s.arInfo, s.arMode, s.arRefresh, s.dspSlice, img⟩ }

/-- R306, R307: a snapshot of the right shape is loaded and the line recomputed, whatever the core answers (log 30); a wrong shape is the
fatal fault. -/
def Obligations.RestoreLoadsOrFaults : Prop :=
  ∀ (s : State) (snap : Snapshot) (q : List Entry), s.status = .live →
    (snap.aram.map (fun i => i.size) = (if s.cfg.unified then none else some s.cfg.aramSize) →
      snap.core.shape = s.cfg.coreShape →
      ∃ (t : State) (b : Bool), exec (.restore snap q) s = .next t ∧
        t = { s with
          ctrl := snap.ctrl, auSrc := snap.auSrc, auCtl := snap.auCtl, auCur := snap.auCur, auRem := snap.auRem
          arMm := snap.arMm, arAr := snap.arAr, arCnt := snap.arCnt, arInfo := snap.arInfo, arMode := snap.arMode
          arRefresh := snap.arRefresh, dspSlice := snap.dspSlice, pending := q, line := lineOf snap.ctrl
          log := s.log ++ [.coreRestore snap.core b, .setLine (lineOf snap.ctrl)], aram := t.aram
          answers := t.answers, draws := t.draws, reply := .none } ∧
        (∀ x rest, s.answers = x :: rest → b = (x != 0) ∧ t.answers = rest) ∧
        (snap.aram = none → t.aram = s.aram) ∧
        (∀ img, snap.aram = some img → ∀ x, x < img.size →
          t.aram.read x = (Memory.build img.cells).read x ∧ (img.cells.wf → t.aram.read x = img.cells.read x))) ∧
    (snap.aram.map (fun i => i.size) ≠ (if s.cfg.unified then none else some s.cfg.aramSize) ∨
        snap.core.shape ≠ s.cfg.coreShape →
      exec (.restore snap q) s = .fault .serializationShapeMismatch ∧
      statusAfter s (exec (.restore snap q) s) = .faulted .serializationShapeMismatch)

/-- R308: restoring a snapshot brings every field of R305 back bit for bit, from whatever live state of the instance. -/
def Obligations.RestoreUndoesSnapshot : Prop :=
  ∀ (s t u : State) (snap : Snapshot) (q : List Entry), s.Inv → s.status = .live → u.status = .live → u.cfg = s.cfg →
    exec .snapshot s = .next t → t.reply = .snapshot snap →
    ∃ w, exec (.restore snap q) u = .next w ∧
      w.ctrl = s.ctrl ∧ w.auSrc = s.auSrc ∧ w.auCtl = s.auCtl ∧ w.auCur = s.auCur ∧ w.auRem = s.auRem ∧
      w.arMm = s.arMm ∧ w.arAr = s.arAr ∧ w.arCnt = s.arCnt ∧ w.arInfo = s.arInfo ∧ w.arMode = s.arMode ∧
      w.arRefresh = s.arRefresh ∧ w.dspSlice = s.dspSlice ∧ w.pending = q ∧ w.line = s.line ∧
      (s.cfg.unified = false → w.aram = s.aram) ∧ (s.cfg.unified = true → w.aram = u.aram)

/-- R310, R66: what `INIT` leaves; the store's bytes in dedicated mode are not claimed. -/
def Obligations.InitLeavesTheResetValues : Prop :=
  ∀ s : State, s.status = .uninit ∨ s.status = .shut → ∃ t, exec .init s = .next t ∧
    t = { s with
      ctrl := 0x0004, arInfo := 0, arMode := s.cfg.arModeReset, arRefresh := s.cfg.arRefreshReset, arMm := 0, arAr := 0, arCnt := 0
      auSrc := 0, auCtl := 0, auCur := 0, auRem := 0, dspSlice := 0, pending := [], nextSeq := 0, line := false, log := []
      status := .live, aram := t.aram, draws := t.draws, reply := .none } ∧
    (s.cfg.unified = true → t.aram = s.aram)

/-- R312: shutdown calls the core, drops the pending entries and leaves the pool to its owner. -/
def Obligations.ShutdownDropsTheRequests : Prop :=
  ∀ s : State, s.status = .live → ∃ t, exec .shutdown s = .next t ∧
    t = { s with log := s.log ++ [.coreShutdown], pending := [], status := .shut, aram := t.aram, reply := .none } ∧
    (s.cfg.unified = true → t.aram = s.aram)

/-- R311: after a power cycle nothing of the block tells two states of one instance apart (the store's bytes aside). -/
def Obligations.NothingSurvivesAPowerCycle : Prop :=
  ∀ s₁ s₂ : State, s₁.cfg = s₂.cfg → s₁.status = .live → s₂.status = .live →
    ∃ t₁ u₁ t₂ u₂, exec .shutdown s₁ = .next t₁ ∧ exec .init t₁ = .next u₁ ∧ exec .shutdown s₂ = .next t₂ ∧
      exec .init t₂ = .next u₂ ∧
      u₁ = { u₂ with aram := u₁.aram, mem := u₁.mem, now := u₁.now, inbox := u₁.inbox, answers := u₁.answers, draws := u₁.draws } ∧
      u₁.mem = s₁.mem ∧ u₁.now = s₁.now ∧ (s₁.cfg.unified = true → u₁.aram = s₁.aram)

/-! ## The whole machine -/

/-- R13, R30: no step changes the instance's parameters (the model holds them in its state, log 1).  R60: the log only grows, except
that init, which no live block runs, starts it anew. -/
def Obligations.ParametersStayAndTheLogOnlyGrows : Prop :=
  ∀ s t : State, step s = .next t →
    t.cfg = s.cfg ∧ ((∃ extra, t.log = s.log ++ extra) ∨ (t.log = [] ∧ s.status ≠ .live))

/-- Every step keeps the invariant: canonical memories within their address spaces, the line as the latch says, the registers
within what the write masks leave of them, legal parameters. -/
def Obligations.EveryStepKeepsTheInvariant : Prop :=
  ∀ s t : State, s.Inv → step s = .next t → t.Inv

/-- The reset state meets the invariant. -/
def Obligations.ResetMeetsTheInvariant : Prop :=
  State.reset.Inv

/-- R66, R371: the reset state has the values of the init rule.  The parameters of the reset instance are the model's choices
(logs 1, 2) and the memories' contents are free (log 7), so nothing is claimed of them here. -/
def Obligations.ResetHasTheInitValues : Prop :=
  State.reset.ctrl = 0x0004 ∧ State.reset.arInfo = 0 ∧ State.reset.arMode = State.reset.cfg.arModeReset ∧
  State.reset.arRefresh = State.reset.cfg.arRefreshReset ∧ State.reset.arMm = 0 ∧ State.reset.arAr = 0 ∧ State.reset.arCnt = 0 ∧
  State.reset.auSrc = 0 ∧ State.reset.auCtl = 0 ∧ State.reset.auCur = 0 ∧ State.reset.auRem = 0 ∧ State.reset.dspSlice = 0 ∧
  State.reset.pending = [] ∧ State.reset.nextSeq = 0 ∧ State.reset.line = false ∧ State.reset.log = [] ∧
  State.reset.status = .live
end

