-- ==== Sys2Proof/Laws/Memory.lean ====
section
/-! SUPPORT. Laws of byte memories: a read after a write, the frame of a write, and the canonical form, which every operation
keeps and which makes equal memories equal data. -/

namespace Sys2Proof

/-- Addresses strictly rise. -/
abbrev Memory.rising (m : Memory) : Prop := m.Pairwise (fun x y => x.1 < y.1)

@[simp] theorem Memory.read_nil (a : Nat) : Memory.read [] a = unlistedByte := rfl

theorem Memory.read_of_lt (m : Memory) (a : Nat) (h : ∀ c ∈ m, a < c.1) : m.read a = unlistedByte := by
  induction m with
  | nil => rfl
  | cons c rest ih =>
    have hc := h c (by simp)
    obtain ⟨k, b⟩ := c
    simp only [Memory.read]
    rw [if_neg (by simp at hc; omega)]
    exact ih fun c hc => h c (by simp [hc])

theorem Memory.read_cell (a x : Nat) (b : Byte) (rest : Memory) (h : ∀ c ∈ rest, a < c.1) :
    Memory.read (Memory.cell a b rest) x = if x = a then b else Memory.read rest x := by
  unfold Memory.cell
  split
  · rename_i hb
    split
    · rename_i hx
      rw [hx, Memory.read_of_lt rest a h, hb]
    · rfl
  · simp only [Memory.read]
    by_cases hx : x = a
    · simp [hx]
    · rw [if_neg (fun e => hx e.symm), if_neg hx]

/-- A byte written reads back, in a memory whose addresses rise; every other byte is as before. -/
theorem Memory.read_write (m : Memory) (a x : Nat) (b : Byte) (h : m.rising) :
    (m.write a b).read x = if x = a then b else m.read x := by
  induction m with
  | nil => simp [Memory.write, Memory.read_cell]
  | cons c rest ih =>
    obtain ⟨k, v⟩ := c
    rw [Memory.rising, List.pairwise_cons] at h
    simp only [Memory.write]
    split
    · rename_i hlt
      rw [Memory.read_cell]
      intro c hc
      rcases List.mem_cons.1 hc with rfl | hc
      · exact hlt
      · exact Nat.lt_trans hlt (h.1 c hc)
    · split
      · rename_i heq
        subst heq
        rw [Memory.read_cell _ _ _ _ (fun c hc => h.1 c hc)]
        simp only [Memory.read]
        by_cases hx : x = a
        · simp [hx]
        · rw [if_neg hx, if_neg hx, if_neg (fun e => hx e.symm)]
      · rename_i h1 h2
        simp only [Memory.read]
        rw [ih h.2]
        by_cases hk : k = x
        · rw [if_pos hk, if_neg (by omega), if_pos hk]
        · rw [if_neg hk, if_neg hk]

theorem Memory.read_write_same (m : Memory) (a : Nat) (b : Byte) (h : m.rising) : (m.write a b).read a = b := by
  simp [Memory.read_write m a a b h]

theorem Memory.read_cell_other (a x : Nat) (b : Byte) (rest : Memory) (h : x ≠ a) :
    Memory.read (Memory.cell a b rest) x = Memory.read rest x := by
  unfold Memory.cell
  split
  · rfl
  · simp only [Memory.read]
    rw [if_neg (fun e => h e.symm)]

/-- The frame of a write, for any list of cells. -/
theorem Memory.read_write_other (m : Memory) (a x : Nat) (b : Byte) (h : x ≠ a) : (m.write a b).read x = m.read x := by
  induction m with
  | nil => simp [Memory.write, Memory.read_cell_other, h]
  | cons c rest ih =>
    obtain ⟨k, v⟩ := c
    simp only [Memory.write]
    split
    · rw [Memory.read_cell_other _ _ _ _ h]
    · split
      · rename_i heq
        rw [Memory.read_cell_other _ _ _ _ h]
        simp only [Memory.read]
        rw [if_neg (by omega)]
      · simp only [Memory.read, ih]

/-- The frame of several writes. -/
theorem Memory.read_writeAll_other (cells : List (Nat × Byte)) (m : Memory) (x : Nat) (h : ∀ c ∈ cells, c.1 ≠ x) :
    (m.writeAll cells).read x = m.read x := by
  induction cells generalizing m with
  | nil => rfl
  | cons c rest ih =>
    obtain ⟨a, b⟩ := c
    simp only [Memory.writeAll]
    rw [ih _ (fun c hc => h c (by simp [hc]))]
    exact Memory.read_write_other m a x b (by have := h (a, b) (by simp); simp at this; omega)

theorem Memory.mem_cell {a : Nat} {b : Byte} {rest : Memory} {c : Nat × Byte} (h : c ∈ Memory.cell a b rest) :
    (c = (a, b) ∧ b ≠ unlistedByte) ∨ c ∈ rest := by
  unfold Memory.cell at h
  split at h
  · exact .inr h
  · rename_i hb
    rcases List.mem_cons.1 h with h | h
    · exact .inl ⟨h, hb⟩
    · exact .inr h

/-- A cell of a memory after a write is the one written or one that was there. -/
theorem Memory.mem_write {m : Memory} {a : Nat} {b : Byte} {c : Nat × Byte} (h : c ∈ m.write a b) :
    (c = (a, b) ∧ b ≠ unlistedByte) ∨ c ∈ m := by
  induction m with
  | nil => exact Memory.mem_cell h
  | cons d rest ih =>
    obtain ⟨k, v⟩ := d
    simp only [Memory.write] at h
    split at h
    · exact Memory.mem_cell h
    · split at h
      · rcases Memory.mem_cell h with h | h
        · exact .inl h
        · exact .inr (by simp [h])
      · rcases List.mem_cons.1 h with h | h
        · exact .inr (by simp [h])
        · rcases ih h with h | h
          · exact .inl h
          · exact .inr (by simp [h])

theorem Memory.rising_cell {a : Nat} {b : Byte} {rest : Memory} (hr : rest.rising) (h : ∀ c ∈ rest, a < c.1) :
    (Memory.cell a b rest).rising := by
  unfold Memory.cell
  split
  · exact hr
  · exact List.pairwise_cons.2 ⟨h, hr⟩

theorem Memory.rising_write {m : Memory} (h : m.rising) (a : Nat) (b : Byte) : (m.write a b).rising := by
  induction m with
  | nil => exact Memory.rising_cell h (by simp)
  | cons d rest ih =>
    obtain ⟨k, v⟩ := d
    have h' := List.pairwise_cons.1 h
    simp only [Memory.write]
    split
    · rename_i hlt
      refine Memory.rising_cell h ?_
      intro c hc
      rcases List.mem_cons.1 hc with rfl | hc
      · exact hlt
      · exact Nat.lt_trans hlt (h'.1 c hc)
    · split
      · rename_i heq
        subst heq
        exact Memory.rising_cell h'.2 h'.1
      · refine List.pairwise_cons.2 ⟨?_, ih h'.2⟩
        intro c hc
        rcases Memory.mem_write hc with ⟨rfl, _⟩ | hc
        · simp; omega
        · exact h'.1 c hc

/-- A write keeps the canonical form. -/
theorem Memory.wf_write {m : Memory} (h : m.wf) (a : Nat) (b : Byte) : (m.write a b).wf := by
  refine ⟨Memory.rising_write h.1 a b, fun c hc => ?_⟩
  rcases Memory.mem_write hc with ⟨rfl, hb⟩ | hc
  · exact hb
  · exact h.2 c hc

/-- Several writes keep the canonical form. -/
theorem Memory.wf_writeAll {m : Memory} (h : m.wf) (cells : List (Nat × Byte)) : (m.writeAll cells).wf := by
  induction cells generalizing m with
  | nil => exact h
  | cons c rest ih =>
    obtain ⟨a, b⟩ := c
    exact ih (Memory.wf_write h a b)

theorem Memory.rising_writeAll {m : Memory} (h : m.rising) (cells : List (Nat × Byte)) : (m.writeAll cells).rising := by
  induction cells generalizing m with
  | nil => exact h
  | cons c rest ih =>
    obtain ⟨a, b⟩ := c
    exact ih (Memory.rising_write h a b)

/-- Two runs of writes, one after the other. -/
theorem Memory.writeAll_both (m : Memory) (xs ys : List (Nat × Byte)) : m.writeAll (xs ++ ys) = (m.writeAll xs).writeAll ys := by
  induction xs generalizing m with
  | nil => rfl
  | cons x rest ih =>
    obtain ⟨a, b⟩ := x
    exact ih (m.write a b)

/-- A run of bytes read back: byte `i` of the run stands at its address, unless a later byte of the run has the same address. -/
theorem Memory.read_run (f : Nat → Nat) (bytes : List Byte) {m : Memory} (hm : m.rising) {i : Nat} (hi : i < bytes.length)
    (hf : ∀ j, i < j → j < bytes.length → f j ≠ f i) :
    (m.writeAll (bytes.zipIdx.map fun (b, i) => (f i, b))).read (f i) = bytes[i] := by
  induction bytes using List.reverseRecOn with
  | nil => simp at hi
  | append_singleton bs b ih =>
    have hr : (m.writeAll (bs.zipIdx.map fun (b, i) => (f i, b))).rising := Memory.rising_writeAll hm _
    simp only [List.zipIdx_append, List.map_append, Memory.writeAll_both, List.zipIdx_singleton, List.map_cons, List.map_nil,
      Memory.writeAll, Memory.read_write _ _ _ _ hr, Nat.zero_add]
    simp only [List.length_append, List.length_singleton] at hi hf
    by_cases he : i = bs.length
    · subst he
      simp
    · have hlt : i < bs.length := by omega
      rw [if_neg (fun e => hf bs.length hlt (by omega) e.symm), ih hlt fun j h1 h2 => hf j h1 (by omega)]
      rw [List.getElem_append_left hlt]

/-- The frame of a run of bytes. -/
theorem Memory.read_run_other (f : Nat → Nat) (bytes : List Byte) (m : Memory) {x : Nat}
    (hf : ∀ j, j < bytes.length → f j ≠ x) : (m.writeAll (bytes.zipIdx.map fun (b, i) => (f i, b))).read x = m.read x := by
  refine Memory.read_writeAll_other _ _ _ fun c hc => ?_
  obtain ⟨⟨b, j⟩, hb, rfl⟩ := List.mem_map.1 hc
  exact hf j (by have := (List.mem_zipIdx hb).2.1; omega)

theorem Memory.wf_nil : Memory.wf [] := by simp [Memory.wf]

/-- A memory built from cells is canonical. -/
theorem Memory.wf_build (cells : List (Nat × Byte)) : (Memory.build cells).wf := Memory.wf_writeAll Memory.wf_nil cells

theorem Memory.below_write {m : Memory} {n : Nat} (h : Memory.below m n) {a : Nat} (ha : a < n) (b : Byte) :
    Memory.below (m.write a b) n := by
  intro c hc
  rcases Memory.mem_write hc with ⟨rfl, _⟩ | hc
  · exact ha
  · exact h c hc

/-- Writes below a bound leave every listed address below it. -/
theorem Memory.below_writeAll {m : Memory} {n : Nat} (h : Memory.below m n) {cells : List (Nat × Byte)}
    (hc : Memory.below cells n) : Memory.below (m.writeAll cells) n := by
  induction cells generalizing m with
  | nil => exact h
  | cons c rest ih =>
    obtain ⟨a, b⟩ := c
    exact ih (Memory.below_write h (hc (a, b) (by simp)) b) (fun c h => hc c (by simp [h]))

theorem Memory.below_cellsBelow (n : Nat) (cells : List (Nat × Byte)) : Memory.below (cellsBelow n cells) n := by
  intro c hc
  simpa [cellsBelow] using (List.mem_filter.1 hc).2

theorem Memory.below_build {n : Nat} (cells : List (Nat × Byte)) : Memory.below (Memory.build (cellsBelow n cells)) n :=
  Memory.below_writeAll (by simp [Memory.below]) (Memory.below_cellsBelow n cells)

theorem cellsBelow_of_below {n : Nat} {cells : List (Nat × Byte)} (h : Memory.below cells n) : cellsBelow n cells = cells := by
  simpa [cellsBelow, List.filter_eq_self] using h

theorem Memory.write_last {m : Memory} {a : Nat} {b : Byte} (hb : b ≠ unlistedByte) (h : ∀ c ∈ m, c.1 < a) :
    m.write a b = m ++ [(a, b)] := by
  induction m with
  | nil => simp [Memory.write, Memory.cell, hb]
  | cons d rest ih =>
    obtain ⟨k, v⟩ := d
    have hk := h (k, v) (by simp)
    simp only [Memory.write]
    rw [if_neg (by simp at hk; omega), if_neg (by simp at hk; omega), ih fun c hc => h c (by simp [hc])]
    rfl

theorem Memory.writeAll_append {m cells : Memory} (h : Memory.wf (m ++ cells)) : m.writeAll cells = m ++ cells := by
  induction cells generalizing m with
  | nil => simp [Memory.writeAll]
  | cons c rest ih =>
    obtain ⟨a, b⟩ := c
    simp only [Memory.writeAll]
    have hp := List.pairwise_append.1 h.1
    rw [Memory.write_last (h.2 (a, b) (by simp)) (fun c hc => hp.2.2 c hc (a, b) (by simp))]
    have := ih (m := m ++ [(a, b)]) (by simpa using h)
    simpa using this

/-- Building from a canonical memory gives it back: equal memories are equal data. -/
theorem Memory.build_of_wf {m : Memory} (h : m.wf) : Memory.build m = m := by
  simpa [Memory.build] using Memory.writeAll_append (m := []) (cells := m) (by simpa using h)

end Sys2Proof
end

