-- ==== Sys2Proof/Laws/State.lean ====
section
/-! SUPPORT. One lemma for each field of the state under each named update, so that no proof unfolds a record update. -/

namespace Sys2Proof.Machine

/-! ## `State.record` -/

@[simp] theorem record_cfg (s : State) (e : LogEntry) : (s.record e).cfg = s.cfg := rfl
@[simp] theorem record_ctrl (s : State) (e : LogEntry) : (s.record e).ctrl = s.ctrl := rfl
@[simp] theorem record_arInfo (s : State) (e : LogEntry) : (s.record e).arInfo = s.arInfo := rfl
@[simp] theorem record_arMode (s : State) (e : LogEntry) : (s.record e).arMode = s.arMode := rfl
@[simp] theorem record_arRefresh (s : State) (e : LogEntry) : (s.record e).arRefresh = s.arRefresh := rfl
@[simp] theorem record_arMm (s : State) (e : LogEntry) : (s.record e).arMm = s.arMm := rfl
@[simp] theorem record_arAr (s : State) (e : LogEntry) : (s.record e).arAr = s.arAr := rfl
@[simp] theorem record_arCnt (s : State) (e : LogEntry) : (s.record e).arCnt = s.arCnt := rfl
@[simp] theorem record_auSrc (s : State) (e : LogEntry) : (s.record e).auSrc = s.auSrc := rfl
@[simp] theorem record_auCtl (s : State) (e : LogEntry) : (s.record e).auCtl = s.auCtl := rfl
@[simp] theorem record_auCur (s : State) (e : LogEntry) : (s.record e).auCur = s.auCur := rfl
@[simp] theorem record_auRem (s : State) (e : LogEntry) : (s.record e).auRem = s.auRem := rfl
@[simp] theorem record_dspSlice (s : State) (e : LogEntry) : (s.record e).dspSlice = s.dspSlice := rfl
@[simp] theorem record_aram (s : State) (e : LogEntry) : (s.record e).aram = s.aram := rfl
@[simp] theorem record_pending (s : State) (e : LogEntry) : (s.record e).pending = s.pending := rfl
@[simp] theorem record_nextSeq (s : State) (e : LogEntry) : (s.record e).nextSeq = s.nextSeq := rfl
@[simp] theorem record_line (s : State) (e : LogEntry) : (s.record e).line = s.line := rfl
@[simp] theorem record_log (s : State) (e : LogEntry) : (s.record e).log = s.log ++ [e] := rfl
@[simp] theorem record_status (s : State) (e : LogEntry) : (s.record e).status = s.status := rfl
@[simp] theorem record_mem (s : State) (e : LogEntry) : (s.record e).mem = s.mem := rfl
@[simp] theorem record_now (s : State) (e : LogEntry) : (s.record e).now = s.now := rfl
@[simp] theorem record_inbox (s : State) (e : LogEntry) : (s.record e).inbox = s.inbox := rfl
@[simp] theorem record_answers (s : State) (e : LogEntry) : (s.record e).answers = s.answers := rfl
@[simp] theorem record_draws (s : State) (e : LogEntry) : (s.record e).draws = s.draws := rfl
@[simp] theorem record_reply (s : State) (e : LogEntry) : (s.record e).reply = s.reply := rfl

/-! ## `State.replied` -/

@[simp] theorem replied_cfg (s : State) (r : Reply) : (s.replied r).cfg = s.cfg := rfl
@[simp] theorem replied_ctrl (s : State) (r : Reply) : (s.replied r).ctrl = s.ctrl := rfl
@[simp] theorem replied_arInfo (s : State) (r : Reply) : (s.replied r).arInfo = s.arInfo := rfl
@[simp] theorem replied_arMode (s : State) (r : Reply) : (s.replied r).arMode = s.arMode := rfl
@[simp] theorem replied_arRefresh (s : State) (r : Reply) : (s.replied r).arRefresh = s.arRefresh := rfl
@[simp] theorem replied_arMm (s : State) (r : Reply) : (s.replied r).arMm = s.arMm := rfl
@[simp] theorem replied_arAr (s : State) (r : Reply) : (s.replied r).arAr = s.arAr := rfl
@[simp] theorem replied_arCnt (s : State) (r : Reply) : (s.replied r).arCnt = s.arCnt := rfl
@[simp] theorem replied_auSrc (s : State) (r : Reply) : (s.replied r).auSrc = s.auSrc := rfl
@[simp] theorem replied_auCtl (s : State) (r : Reply) : (s.replied r).auCtl = s.auCtl := rfl
@[simp] theorem replied_auCur (s : State) (r : Reply) : (s.replied r).auCur = s.auCur := rfl
@[simp] theorem replied_auRem (s : State) (r : Reply) : (s.replied r).auRem = s.auRem := rfl
@[simp] theorem replied_dspSlice (s : State) (r : Reply) : (s.replied r).dspSlice = s.dspSlice := rfl
@[simp] theorem replied_aram (s : State) (r : Reply) : (s.replied r).aram = s.aram := rfl
@[simp] theorem replied_pending (s : State) (r : Reply) : (s.replied r).pending = s.pending := rfl
@[simp] theorem replied_nextSeq (s : State) (r : Reply) : (s.replied r).nextSeq = s.nextSeq := rfl
@[simp] theorem replied_line (s : State) (r : Reply) : (s.replied r).line = s.line := rfl
@[simp] theorem replied_log (s : State) (r : Reply) : (s.replied r).log = s.log := rfl
@[simp] theorem replied_status (s : State) (r : Reply) : (s.replied r).status = s.status := rfl
@[simp] theorem replied_mem (s : State) (r : Reply) : (s.replied r).mem = s.mem := rfl
@[simp] theorem replied_now (s : State) (r : Reply) : (s.replied r).now = s.now := rfl
@[simp] theorem replied_inbox (s : State) (r : Reply) : (s.replied r).inbox = s.inbox := rfl
@[simp] theorem replied_answers (s : State) (r : Reply) : (s.replied r).answers = s.answers := rfl
@[simp] theorem replied_draws (s : State) (r : Reply) : (s.replied r).draws = s.draws := rfl
@[simp] theorem replied_reply (s : State) (r : Reply) : (s.replied r).reply = r := rfl

/-! ## `updateLine` -/

@[simp] theorem updateLine_cfg (s : State) : (updateLine s).cfg = s.cfg := rfl
@[simp] theorem updateLine_ctrl (s : State) : (updateLine s).ctrl = s.ctrl := rfl
@[simp] theorem updateLine_arInfo (s : State) : (updateLine s).arInfo = s.arInfo := rfl
@[simp] theorem updateLine_arMode (s : State) : (updateLine s).arMode = s.arMode := rfl
@[simp] theorem updateLine_arRefresh (s : State) : (updateLine s).arRefresh = s.arRefresh := rfl
@[simp] theorem updateLine_arMm (s : State) : (updateLine s).arMm = s.arMm := rfl
@[simp] theorem updateLine_arAr (s : State) : (updateLine s).arAr = s.arAr := rfl
@[simp] theorem updateLine_arCnt (s : State) : (updateLine s).arCnt = s.arCnt := rfl
@[simp] theorem updateLine_auSrc (s : State) : (updateLine s).auSrc = s.auSrc := rfl
@[simp] theorem updateLine_auCtl (s : State) : (updateLine s).auCtl = s.auCtl := rfl
@[simp] theorem updateLine_auCur (s : State) : (updateLine s).auCur = s.auCur := rfl
@[simp] theorem updateLine_auRem (s : State) : (updateLine s).auRem = s.auRem := rfl
@[simp] theorem updateLine_dspSlice (s : State) : (updateLine s).dspSlice = s.dspSlice := rfl
@[simp] theorem updateLine_aram (s : State) : (updateLine s).aram = s.aram := rfl
@[simp] theorem updateLine_pending (s : State) : (updateLine s).pending = s.pending := rfl
@[simp] theorem updateLine_nextSeq (s : State) : (updateLine s).nextSeq = s.nextSeq := rfl
@[simp] theorem updateLine_line (s : State) : (updateLine s).line = lineOf s.ctrl := rfl
@[simp] theorem updateLine_log (s : State) : (updateLine s).log = s.log ++ [.setLine (lineOf s.ctrl)] := rfl
@[simp] theorem updateLine_status (s : State) : (updateLine s).status = s.status := rfl
@[simp] theorem updateLine_mem (s : State) : (updateLine s).mem = s.mem := rfl
@[simp] theorem updateLine_now (s : State) : (updateLine s).now = s.now := rfl
@[simp] theorem updateLine_inbox (s : State) : (updateLine s).inbox = s.inbox := rfl
@[simp] theorem updateLine_answers (s : State) : (updateLine s).answers = s.answers := rfl
@[simp] theorem updateLine_draws (s : State) : (updateLine s).draws = s.draws := rfl
@[simp] theorem updateLine_reply (s : State) : (updateLine s).reply = s.reply := rfl

/-! ## `raise` -/

@[simp] theorem raise_cfg (kinds : KindSet) (s : State) : (raise kinds s).cfg = s.cfg := rfl
@[simp] theorem raise_ctrl (kinds : KindSet) (s : State) : (raise kinds s).ctrl = s.ctrl ||| (kinds.bits &&& kindBits) := rfl
@[simp] theorem raise_arInfo (kinds : KindSet) (s : State) : (raise kinds s).arInfo = s.arInfo := rfl
@[simp] theorem raise_arMode (kinds : KindSet) (s : State) : (raise kinds s).arMode = s.arMode := rfl
@[simp] theorem raise_arRefresh (kinds : KindSet) (s : State) : (raise kinds s).arRefresh = s.arRefresh := rfl
@[simp] theorem raise_arMm (kinds : KindSet) (s : State) : (raise kinds s).arMm = s.arMm := rfl
@[simp] theorem raise_arAr (kinds : KindSet) (s : State) : (raise kinds s).arAr = s.arAr := rfl
@[simp] theorem raise_arCnt (kinds : KindSet) (s : State) : (raise kinds s).arCnt = s.arCnt := rfl
@[simp] theorem raise_auSrc (kinds : KindSet) (s : State) : (raise kinds s).auSrc = s.auSrc := rfl
@[simp] theorem raise_auCtl (kinds : KindSet) (s : State) : (raise kinds s).auCtl = s.auCtl := rfl
@[simp] theorem raise_auCur (kinds : KindSet) (s : State) : (raise kinds s).auCur = s.auCur := rfl
@[simp] theorem raise_auRem (kinds : KindSet) (s : State) : (raise kinds s).auRem = s.auRem := rfl
@[simp] theorem raise_dspSlice (kinds : KindSet) (s : State) : (raise kinds s).dspSlice = s.dspSlice := rfl
@[simp] theorem raise_aram (kinds : KindSet) (s : State) : (raise kinds s).aram = s.aram := rfl
@[simp] theorem raise_pending (kinds : KindSet) (s : State) : (raise kinds s).pending = s.pending := rfl
@[simp] theorem raise_nextSeq (kinds : KindSet) (s : State) : (raise kinds s).nextSeq = s.nextSeq := rfl
@[simp] theorem raise_line (kinds : KindSet) (s : State) : (raise kinds s).line = lineOf (s.ctrl ||| (kinds.bits &&& kindBits)) := rfl
@[simp] theorem raise_log (kinds : KindSet) (s : State) : (raise kinds s).log = s.log ++ [.setLine (lineOf (s.ctrl ||| (kinds.bits &&& kindBits)))] := rfl
@[simp] theorem raise_status (kinds : KindSet) (s : State) : (raise kinds s).status = s.status := rfl
@[simp] theorem raise_mem (kinds : KindSet) (s : State) : (raise kinds s).mem = s.mem := rfl
@[simp] theorem raise_now (kinds : KindSet) (s : State) : (raise kinds s).now = s.now := rfl
@[simp] theorem raise_inbox (kinds : KindSet) (s : State) : (raise kinds s).inbox = s.inbox := rfl
@[simp] theorem raise_answers (kinds : KindSet) (s : State) : (raise kinds s).answers = s.answers := rfl
@[simp] theorem raise_draws (kinds : KindSet) (s : State) : (raise kinds s).draws = s.draws := rfl
@[simp] theorem raise_reply (kinds : KindSet) (s : State) : (raise kinds s).reply = s.reply := rfl

/-! ## `schedule` -/

@[simp] theorem schedule_cfg (delay : Nat) (what : Callback) (origin : Origin) (s : State) : (schedule delay what origin s).cfg = s.cfg := rfl
@[simp] theorem schedule_ctrl (delay : Nat) (what : Callback) (origin : Origin) (s : State) : (schedule delay what origin s).ctrl = s.ctrl := rfl
@[simp] theorem schedule_arInfo (delay : Nat) (what : Callback) (origin : Origin) (s : State) : (schedule delay what origin s).arInfo = s.arInfo := rfl
@[simp] theorem schedule_arMode (delay : Nat) (what : Callback) (origin : Origin) (s : State) : (schedule delay what origin s).arMode = s.arMode := rfl
@[simp] theorem schedule_arRefresh (delay : Nat) (what : Callback) (origin : Origin) (s : State) : (schedule delay what origin s).arRefresh = s.arRefresh := rfl
@[simp] theorem schedule_arMm (delay : Nat) (what : Callback) (origin : Origin) (s : State) : (schedule delay what origin s).arMm = s.arMm := rfl
@[simp] theorem schedule_arAr (delay : Nat) (what : Callback) (origin : Origin) (s : State) : (schedule delay what origin s).arAr = s.arAr := rfl
@[simp] theorem schedule_arCnt (delay : Nat) (what : Callback) (origin : Origin) (s : State) : (schedule delay what origin s).arCnt = s.arCnt := rfl
@[simp] theorem schedule_auSrc (delay : Nat) (what : Callback) (origin : Origin) (s : State) : (schedule delay what origin s).auSrc = s.auSrc := rfl
@[simp] theorem schedule_auCtl (delay : Nat) (what : Callback) (origin : Origin) (s : State) : (schedule delay what origin s).auCtl = s.auCtl := rfl
@[simp] theorem schedule_auCur (delay : Nat) (what : Callback) (origin : Origin) (s : State) : (schedule delay what origin s).auCur = s.auCur := rfl
@[simp] theorem schedule_auRem (delay : Nat) (what : Callback) (origin : Origin) (s : State) : (schedule delay what origin s).auRem = s.auRem := rfl
@[simp] theorem schedule_dspSlice (delay : Nat) (what : Callback) (origin : Origin) (s : State) : (schedule delay what origin s).dspSlice = s.dspSlice := rfl
@[simp] theorem schedule_aram (delay : Nat) (what : Callback) (origin : Origin) (s : State) : (schedule delay what origin s).aram = s.aram := rfl
@[simp] theorem schedule_pending (delay : Nat) (what : Callback) (origin : Origin) (s : State) : (schedule delay what origin s).pending = s.pending ++ [⟨what, s.now + delay, origin, s.nextSeq⟩] := rfl
@[simp] theorem schedule_nextSeq (delay : Nat) (what : Callback) (origin : Origin) (s : State) : (schedule delay what origin s).nextSeq = s.nextSeq + 1 := rfl
@[simp] theorem schedule_line (delay : Nat) (what : Callback) (origin : Origin) (s : State) : (schedule delay what origin s).line = s.line := rfl
@[simp] theorem schedule_log (delay : Nat) (what : Callback) (origin : Origin) (s : State) : (schedule delay what origin s).log = s.log ++ [.schedule delay what origin] := rfl
@[simp] theorem schedule_status (delay : Nat) (what : Callback) (origin : Origin) (s : State) : (schedule delay what origin s).status = s.status := rfl
@[simp] theorem schedule_mem (delay : Nat) (what : Callback) (origin : Origin) (s : State) : (schedule delay what origin s).mem = s.mem := rfl
@[simp] theorem schedule_now (delay : Nat) (what : Callback) (origin : Origin) (s : State) : (schedule delay what origin s).now = s.now := rfl
@[simp] theorem schedule_inbox (delay : Nat) (what : Callback) (origin : Origin) (s : State) : (schedule delay what origin s).inbox = s.inbox := rfl
@[simp] theorem schedule_answers (delay : Nat) (what : Callback) (origin : Origin) (s : State) : (schedule delay what origin s).answers = s.answers := rfl
@[simp] theorem schedule_draws (delay : Nat) (what : Callback) (origin : Origin) (s : State) : (schedule delay what origin s).draws = s.draws := rfl
@[simp] theorem schedule_reply (delay : Nat) (what : Callback) (origin : Origin) (s : State) : (schedule delay what origin s).reply = s.reply := rfl

/-! ## `removeEntry` -/

@[simp] theorem removeEntry_cfg (e : Entry) (s : State) : (removeEntry e s).cfg = s.cfg := rfl
@[simp] theorem removeEntry_ctrl (e : Entry) (s : State) : (removeEntry e s).ctrl = s.ctrl := rfl
@[simp] theorem removeEntry_arInfo (e : Entry) (s : State) : (removeEntry e s).arInfo = s.arInfo := rfl
@[simp] theorem removeEntry_arMode (e : Entry) (s : State) : (removeEntry e s).arMode = s.arMode := rfl
@[simp] theorem removeEntry_arRefresh (e : Entry) (s : State) : (removeEntry e s).arRefresh = s.arRefresh := rfl
@[simp] theorem removeEntry_arMm (e : Entry) (s : State) : (removeEntry e s).arMm = s.arMm := rfl
@[simp] theorem removeEntry_arAr (e : Entry) (s : State) : (removeEntry e s).arAr = s.arAr := rfl
@[simp] theorem removeEntry_arCnt (e : Entry) (s : State) : (removeEntry e s).arCnt = s.arCnt := rfl
@[simp] theorem removeEntry_auSrc (e : Entry) (s : State) : (removeEntry e s).auSrc = s.auSrc := rfl
@[simp] theorem removeEntry_auCtl (e : Entry) (s : State) : (removeEntry e s).auCtl = s.auCtl := rfl
@[simp] theorem removeEntry_auCur (e : Entry) (s : State) : (removeEntry e s).auCur = s.auCur := rfl
@[simp] theorem removeEntry_auRem (e : Entry) (s : State) : (removeEntry e s).auRem = s.auRem := rfl
@[simp] theorem removeEntry_dspSlice (e : Entry) (s : State) : (removeEntry e s).dspSlice = s.dspSlice := rfl
@[simp] theorem removeEntry_aram (e : Entry) (s : State) : (removeEntry e s).aram = s.aram := rfl
@[simp] theorem removeEntry_pending (e : Entry) (s : State) : (removeEntry e s).pending = s.pending.erase e := rfl
@[simp] theorem removeEntry_nextSeq (e : Entry) (s : State) : (removeEntry e s).nextSeq = s.nextSeq := rfl
@[simp] theorem removeEntry_line (e : Entry) (s : State) : (removeEntry e s).line = s.line := rfl
@[simp] theorem removeEntry_log (e : Entry) (s : State) : (removeEntry e s).log = s.log := rfl
@[simp] theorem removeEntry_status (e : Entry) (s : State) : (removeEntry e s).status = s.status := rfl
@[simp] theorem removeEntry_mem (e : Entry) (s : State) : (removeEntry e s).mem = s.mem := rfl
@[simp] theorem removeEntry_now (e : Entry) (s : State) : (removeEntry e s).now = s.now := rfl
@[simp] theorem removeEntry_inbox (e : Entry) (s : State) : (removeEntry e s).inbox = s.inbox := rfl
@[simp] theorem removeEntry_answers (e : Entry) (s : State) : (removeEntry e s).answers = s.answers := rfl
@[simp] theorem removeEntry_draws (e : Entry) (s : State) : (removeEntry e s).draws = s.draws := rfl
@[simp] theorem removeEntry_reply (e : Entry) (s : State) : (removeEntry e s).reply = s.reply := rfl

/-! ## `aramWrite` -/

@[simp] theorem aramWrite_cfg (a : Nat) (bytes : List Byte) (s : State) : (aramWrite a bytes s).cfg = s.cfg := rfl
@[simp] theorem aramWrite_ctrl (a : Nat) (bytes : List Byte) (s : State) : (aramWrite a bytes s).ctrl = s.ctrl := rfl
@[simp] theorem aramWrite_arInfo (a : Nat) (bytes : List Byte) (s : State) : (aramWrite a bytes s).arInfo = s.arInfo := rfl
@[simp] theorem aramWrite_arMode (a : Nat) (bytes : List Byte) (s : State) : (aramWrite a bytes s).arMode = s.arMode := rfl
@[simp] theorem aramWrite_arRefresh (a : Nat) (bytes : List Byte) (s : State) : (aramWrite a bytes s).arRefresh = s.arRefresh := rfl
@[simp] theorem aramWrite_arMm (a : Nat) (bytes : List Byte) (s : State) : (aramWrite a bytes s).arMm = s.arMm := rfl
@[simp] theorem aramWrite_arAr (a : Nat) (bytes : List Byte) (s : State) : (aramWrite a bytes s).arAr = s.arAr := rfl
@[simp] theorem aramWrite_arCnt (a : Nat) (bytes : List Byte) (s : State) : (aramWrite a bytes s).arCnt = s.arCnt := rfl
@[simp] theorem aramWrite_auSrc (a : Nat) (bytes : List Byte) (s : State) : (aramWrite a bytes s).auSrc = s.auSrc := rfl
@[simp] theorem aramWrite_auCtl (a : Nat) (bytes : List Byte) (s : State) : (aramWrite a bytes s).auCtl = s.auCtl := rfl
@[simp] theorem aramWrite_auCur (a : Nat) (bytes : List Byte) (s : State) : (aramWrite a bytes s).auCur = s.auCur := rfl
@[simp] theorem aramWrite_auRem (a : Nat) (bytes : List Byte) (s : State) : (aramWrite a bytes s).auRem = s.auRem := rfl
@[simp] theorem aramWrite_dspSlice (a : Nat) (bytes : List Byte) (s : State) : (aramWrite a bytes s).dspSlice = s.dspSlice := rfl
@[simp] theorem aramWrite_aram (a : Nat) (bytes : List Byte) (s : State) : (aramWrite a bytes s).aram = s.aram.writeAll (aramCells s.cfg a bytes) := rfl
@[simp] theorem aramWrite_pending (a : Nat) (bytes : List Byte) (s : State) : (aramWrite a bytes s).pending = s.pending := rfl
@[simp] theorem aramWrite_nextSeq (a : Nat) (bytes : List Byte) (s : State) : (aramWrite a bytes s).nextSeq = s.nextSeq := rfl
@[simp] theorem aramWrite_line (a : Nat) (bytes : List Byte) (s : State) : (aramWrite a bytes s).line = s.line := rfl
@[simp] theorem aramWrite_log (a : Nat) (bytes : List Byte) (s : State) : (aramWrite a bytes s).log = s.log := rfl
@[simp] theorem aramWrite_status (a : Nat) (bytes : List Byte) (s : State) : (aramWrite a bytes s).status = s.status := rfl
@[simp] theorem aramWrite_mem (a : Nat) (bytes : List Byte) (s : State) : (aramWrite a bytes s).mem = s.mem := rfl
@[simp] theorem aramWrite_now (a : Nat) (bytes : List Byte) (s : State) : (aramWrite a bytes s).now = s.now := rfl
@[simp] theorem aramWrite_inbox (a : Nat) (bytes : List Byte) (s : State) : (aramWrite a bytes s).inbox = s.inbox := rfl
@[simp] theorem aramWrite_answers (a : Nat) (bytes : List Byte) (s : State) : (aramWrite a bytes s).answers = s.answers := rfl
@[simp] theorem aramWrite_draws (a : Nat) (bytes : List Byte) (s : State) : (aramWrite a bytes s).draws = s.draws := rfl
@[simp] theorem aramWrite_reply (a : Nat) (bytes : List Byte) (s : State) : (aramWrite a bytes s).reply = s.reply := rfl

/-! ## `auReload` -/

@[simp] theorem auReload_cfg (s : State) : (auReload s).cfg = s.cfg := rfl
@[simp] theorem auReload_ctrl (s : State) : (auReload s).ctrl = s.ctrl := rfl
@[simp] theorem auReload_arInfo (s : State) : (auReload s).arInfo = s.arInfo := rfl
@[simp] theorem auReload_arMode (s : State) : (auReload s).arMode = s.arMode := rfl
@[simp] theorem auReload_arRefresh (s : State) : (auReload s).arRefresh = s.arRefresh := rfl
@[simp] theorem auReload_arMm (s : State) : (auReload s).arMm = s.arMm := rfl
@[simp] theorem auReload_arAr (s : State) : (auReload s).arAr = s.arAr := rfl
@[simp] theorem auReload_arCnt (s : State) : (auReload s).arCnt = s.arCnt := rfl
@[simp] theorem auReload_auSrc (s : State) : (auReload s).auSrc = s.auSrc := rfl
@[simp] theorem auReload_auCtl (s : State) : (auReload s).auCtl = s.auCtl := rfl
@[simp] theorem auReload_auCur (s : State) : (auReload s).auCur = s.auSrc := rfl
@[simp] theorem auReload_auRem (s : State) : (auReload s).auRem = numBlocks s.auCtl := rfl
@[simp] theorem auReload_dspSlice (s : State) : (auReload s).dspSlice = s.dspSlice := rfl
@[simp] theorem auReload_aram (s : State) : (auReload s).aram = s.aram := rfl
@[simp] theorem auReload_pending (s : State) : (auReload s).pending = s.pending := rfl
@[simp] theorem auReload_nextSeq (s : State) : (auReload s).nextSeq = s.nextSeq := rfl
@[simp] theorem auReload_line (s : State) : (auReload s).line = s.line := rfl
@[simp] theorem auReload_log (s : State) : (auReload s).log = s.log := rfl
@[simp] theorem auReload_status (s : State) : (auReload s).status = s.status := rfl
@[simp] theorem auReload_mem (s : State) : (auReload s).mem = s.mem := rfl
@[simp] theorem auReload_now (s : State) : (auReload s).now = s.now := rfl
@[simp] theorem auReload_inbox (s : State) : (auReload s).inbox = s.inbox := rfl
@[simp] theorem auReload_answers (s : State) : (auReload s).answers = s.answers := rfl
@[simp] theorem auReload_draws (s : State) : (auReload s).draws = s.draws := rfl
@[simp] theorem auReload_reply (s : State) : (auReload s).reply = s.reply := rfl

/-! ## `advanceDma` -/

@[simp] theorem advanceDma_cfg (s : State) : (advanceDma s).cfg = s.cfg := rfl
@[simp] theorem advanceDma_ctrl (s : State) : (advanceDma s).ctrl = s.ctrl := rfl
@[simp] theorem advanceDma_arInfo (s : State) : (advanceDma s).arInfo = s.arInfo := rfl
@[simp] theorem advanceDma_arMode (s : State) : (advanceDma s).arMode = s.arMode := rfl
@[simp] theorem advanceDma_arRefresh (s : State) : (advanceDma s).arRefresh = s.arRefresh := rfl
@[simp] theorem advanceDma_arMm (s : State) : (advanceDma s).arMm = s.arMm + BitVec.ofNat 32 granuleBytes := rfl
@[simp] theorem advanceDma_arAr (s : State) : (advanceDma s).arAr = s.arAr + BitVec.ofNat 32 granuleBytes := rfl
@[simp] theorem advanceDma_arCnt (s : State) : (advanceDma s).arCnt = setCount s.arCnt (countOf s.arCnt - BitVec.ofNat 31 granuleBytes) := rfl
@[simp] theorem advanceDma_auSrc (s : State) : (advanceDma s).auSrc = s.auSrc := rfl
@[simp] theorem advanceDma_auCtl (s : State) : (advanceDma s).auCtl = s.auCtl := rfl
@[simp] theorem advanceDma_auCur (s : State) : (advanceDma s).auCur = s.auCur := rfl
@[simp] theorem advanceDma_auRem (s : State) : (advanceDma s).auRem = s.auRem := rfl
@[simp] theorem advanceDma_dspSlice (s : State) : (advanceDma s).dspSlice = s.dspSlice := rfl
@[simp] theorem advanceDma_aram (s : State) : (advanceDma s).aram = s.aram := rfl
@[simp] theorem advanceDma_pending (s : State) : (advanceDma s).pending = s.pending := rfl
@[simp] theorem advanceDma_nextSeq (s : State) : (advanceDma s).nextSeq = s.nextSeq := rfl
@[simp] theorem advanceDma_line (s : State) : (advanceDma s).line = s.line := rfl
@[simp] theorem advanceDma_log (s : State) : (advanceDma s).log = s.log := rfl
@[simp] theorem advanceDma_status (s : State) : (advanceDma s).status = s.status := rfl
@[simp] theorem advanceDma_mem (s : State) : (advanceDma s).mem = s.mem := rfl
@[simp] theorem advanceDma_now (s : State) : (advanceDma s).now = s.now := rfl
@[simp] theorem advanceDma_inbox (s : State) : (advanceDma s).inbox = s.inbox := rfl
@[simp] theorem advanceDma_answers (s : State) : (advanceDma s).answers = s.answers := rfl
@[simp] theorem advanceDma_draws (s : State) : (advanceDma s).draws = s.draws := rfl
@[simp] theorem advanceDma_reply (s : State) : (advanceDma s).reply = s.reply := rfl

/-! ## `loadItems` -/

@[simp] theorem loadItems_cfg (snap : Snapshot) (s : State) : (loadItems snap s).cfg = s.cfg := rfl
@[simp] theorem loadItems_ctrl (snap : Snapshot) (s : State) : (loadItems snap s).ctrl = snap.ctrl := rfl
@[simp] theorem loadItems_arInfo (snap : Snapshot) (s : State) : (loadItems snap s).arInfo = snap.arInfo := rfl
@[simp] theorem loadItems_arMode (snap : Snapshot) (s : State) : (loadItems snap s).arMode = snap.arMode := rfl
@[simp] theorem loadItems_arRefresh (snap : Snapshot) (s : State) : (loadItems snap s).arRefresh = snap.arRefresh := rfl
@[simp] theorem loadItems_arMm (snap : Snapshot) (s : State) : (loadItems snap s).arMm = snap.arMm := rfl
@[simp] theorem loadItems_arAr (snap : Snapshot) (s : State) : (loadItems snap s).arAr = snap.arAr := rfl
@[simp] theorem loadItems_arCnt (snap : Snapshot) (s : State) : (loadItems snap s).arCnt = snap.arCnt := rfl
@[simp] theorem loadItems_auSrc (snap : Snapshot) (s : State) : (loadItems snap s).auSrc = snap.auSrc := rfl
@[simp] theorem loadItems_auCtl (snap : Snapshot) (s : State) : (loadItems snap s).auCtl = snap.auCtl := rfl
@[simp] theorem loadItems_auCur (snap : Snapshot) (s : State) : (loadItems snap s).auCur = snap.auCur := rfl
@[simp] theorem loadItems_auRem (snap : Snapshot) (s : State) : (loadItems snap s).auRem = snap.auRem := rfl
@[simp] theorem loadItems_dspSlice (snap : Snapshot) (s : State) : (loadItems snap s).dspSlice = snap.dspSlice := rfl
@[simp] theorem loadItems_aram (snap : Snapshot) (s : State) : (loadItems snap s).aram = aramLoaded snap s := rfl
@[simp] theorem loadItems_pending (snap : Snapshot) (s : State) : (loadItems snap s).pending = s.pending := rfl
@[simp] theorem loadItems_nextSeq (snap : Snapshot) (s : State) : (loadItems snap s).nextSeq = s.nextSeq := rfl
@[simp] theorem loadItems_line (snap : Snapshot) (s : State) : (loadItems snap s).line = s.line := rfl
@[simp] theorem loadItems_log (snap : Snapshot) (s : State) : (loadItems snap s).log = s.log := rfl
@[simp] theorem loadItems_status (snap : Snapshot) (s : State) : (loadItems snap s).status = s.status := rfl
@[simp] theorem loadItems_mem (snap : Snapshot) (s : State) : (loadItems snap s).mem = s.mem := rfl
@[simp] theorem loadItems_now (snap : Snapshot) (s : State) : (loadItems snap s).now = s.now := rfl
@[simp] theorem loadItems_inbox (snap : Snapshot) (s : State) : (loadItems snap s).inbox = s.inbox := rfl
@[simp] theorem loadItems_answers (snap : Snapshot) (s : State) : (loadItems snap s).answers = s.answers := rfl
@[simp] theorem loadItems_draws (snap : Snapshot) (s : State) : (loadItems snap s).draws = s.draws := rfl
@[simp] theorem loadItems_reply (snap : Snapshot) (s : State) : (loadItems snap s).reply = s.reply := rfl

/-! ## `arrive` -/

@[simp] theorem arrive_cfg (p : Input) (rest : List Input) (s : State) : (arrive p rest s).cfg = s.cfg := rfl
@[simp] theorem arrive_ctrl (p : Input) (rest : List Input) (s : State) : (arrive p rest s).ctrl = s.ctrl := rfl
@[simp] theorem arrive_arInfo (p : Input) (rest : List Input) (s : State) : (arrive p rest s).arInfo = s.arInfo := rfl
@[simp] theorem arrive_arMode (p : Input) (rest : List Input) (s : State) : (arrive p rest s).arMode = s.arMode := rfl
@[simp] theorem arrive_arRefresh (p : Input) (rest : List Input) (s : State) : (arrive p rest s).arRefresh = s.arRefresh := rfl
@[simp] theorem arrive_arMm (p : Input) (rest : List Input) (s : State) : (arrive p rest s).arMm = s.arMm := rfl
@[simp] theorem arrive_arAr (p : Input) (rest : List Input) (s : State) : (arrive p rest s).arAr = s.arAr := rfl
@[simp] theorem arrive_arCnt (p : Input) (rest : List Input) (s : State) : (arrive p rest s).arCnt = s.arCnt := rfl
@[simp] theorem arrive_auSrc (p : Input) (rest : List Input) (s : State) : (arrive p rest s).auSrc = s.auSrc := rfl
@[simp] theorem arrive_auCtl (p : Input) (rest : List Input) (s : State) : (arrive p rest s).auCtl = s.auCtl := rfl
@[simp] theorem arrive_auCur (p : Input) (rest : List Input) (s : State) : (arrive p rest s).auCur = s.auCur := rfl
@[simp] theorem arrive_auRem (p : Input) (rest : List Input) (s : State) : (arrive p rest s).auRem = s.auRem := rfl
@[simp] theorem arrive_dspSlice (p : Input) (rest : List Input) (s : State) : (arrive p rest s).dspSlice = s.dspSlice := rfl
@[simp] theorem arrive_aram (p : Input) (rest : List Input) (s : State) : (arrive p rest s).aram = if s.cfg.unified then s.aram.writeAll (cellsBelow s.cfg.aramSize p.poolWrites) else s.aram := rfl
@[simp] theorem arrive_pending (p : Input) (rest : List Input) (s : State) : (arrive p rest s).pending = s.pending := rfl
@[simp] theorem arrive_nextSeq (p : Input) (rest : List Input) (s : State) : (arrive p rest s).nextSeq = s.nextSeq := rfl
@[simp] theorem arrive_line (p : Input) (rest : List Input) (s : State) : (arrive p rest s).line = s.line := rfl
@[simp] theorem arrive_log (p : Input) (rest : List Input) (s : State) : (arrive p rest s).log = s.log := rfl
@[simp] theorem arrive_status (p : Input) (rest : List Input) (s : State) : (arrive p rest s).status = s.status := rfl
@[simp] theorem arrive_mem (p : Input) (rest : List Input) (s : State) : (arrive p rest s).mem = s.mem.writeAll (cellsBelow (2 ^ 32) p.mainWrites) := rfl
@[simp] theorem arrive_now (p : Input) (rest : List Input) (s : State) : (arrive p rest s).now = s.now := rfl
@[simp] theorem arrive_inbox (p : Input) (rest : List Input) (s : State) : (arrive p rest s).inbox = rest := rfl
@[simp] theorem arrive_answers (p : Input) (rest : List Input) (s : State) : (arrive p rest s).answers = p.answers := rfl
@[simp] theorem arrive_draws (p : Input) (rest : List Input) (s : State) : (arrive p rest s).draws = s.draws := rfl
@[simp] theorem arrive_reply (p : Input) (rest : List Input) (s : State) : (arrive p rest s).reply = s.reply := rfl

/-! ## `afterAnswer` -/

@[simp] theorem afterAnswer_cfg (s : State) : (afterAnswer s).cfg = s.cfg := by unfold afterAnswer; split <;> rfl
@[simp] theorem afterAnswer_ctrl (s : State) : (afterAnswer s).ctrl = s.ctrl := by unfold afterAnswer; split <;> rfl
@[simp] theorem afterAnswer_arInfo (s : State) : (afterAnswer s).arInfo = s.arInfo := by unfold afterAnswer; split <;> rfl
@[simp] theorem afterAnswer_arMode (s : State) : (afterAnswer s).arMode = s.arMode := by unfold afterAnswer; split <;> rfl
@[simp] theorem afterAnswer_arRefresh (s : State) : (afterAnswer s).arRefresh = s.arRefresh := by unfold afterAnswer; split <;> rfl
@[simp] theorem afterAnswer_arMm (s : State) : (afterAnswer s).arMm = s.arMm := by unfold afterAnswer; split <;> rfl
@[simp] theorem afterAnswer_arAr (s : State) : (afterAnswer s).arAr = s.arAr := by unfold afterAnswer; split <;> rfl
@[simp] theorem afterAnswer_arCnt (s : State) : (afterAnswer s).arCnt = s.arCnt := by unfold afterAnswer; split <;> rfl
@[simp] theorem afterAnswer_auSrc (s : State) : (afterAnswer s).auSrc = s.auSrc := by unfold afterAnswer; split <;> rfl
@[simp] theorem afterAnswer_auCtl (s : State) : (afterAnswer s).auCtl = s.auCtl := by unfold afterAnswer; split <;> rfl
@[simp] theorem afterAnswer_auCur (s : State) : (afterAnswer s).auCur = s.auCur := by unfold afterAnswer; split <;> rfl
@[simp] theorem afterAnswer_auRem (s : State) : (afterAnswer s).auRem = s.auRem := by unfold afterAnswer; split <;> rfl
@[simp] theorem afterAnswer_dspSlice (s : State) : (afterAnswer s).dspSlice = s.dspSlice := by unfold afterAnswer; split <;> rfl
@[simp] theorem afterAnswer_aram (s : State) : (afterAnswer s).aram = s.aram := by unfold afterAnswer; split <;> rfl
@[simp] theorem afterAnswer_pending (s : State) : (afterAnswer s).pending = s.pending := by unfold afterAnswer; split <;> rfl
@[simp] theorem afterAnswer_nextSeq (s : State) : (afterAnswer s).nextSeq = s.nextSeq := by unfold afterAnswer; split <;> rfl
@[simp] theorem afterAnswer_line (s : State) : (afterAnswer s).line = s.line := by unfold afterAnswer; split <;> rfl
@[simp] theorem afterAnswer_log (s : State) : (afterAnswer s).log = s.log := by unfold afterAnswer; split <;> rfl
@[simp] theorem afterAnswer_status (s : State) : (afterAnswer s).status = s.status := by unfold afterAnswer; split <;> rfl
@[simp] theorem afterAnswer_mem (s : State) : (afterAnswer s).mem = s.mem := by unfold afterAnswer; split <;> rfl
@[simp] theorem afterAnswer_now (s : State) : (afterAnswer s).now = s.now := by unfold afterAnswer; split <;> rfl
@[simp] theorem afterAnswer_inbox (s : State) : (afterAnswer s).inbox = s.inbox := by unfold afterAnswer; split <;> rfl
@[simp] theorem afterAnswer_reply (s : State) : (afterAnswer s).reply = s.reply := by unfold afterAnswer; split <;> rfl

/-! ## `auConsume` -/

@[simp] theorem auConsume_cfg (s : State) : (auConsume s).cfg = s.cfg := by unfold auConsume; split <;> rfl
@[simp] theorem auConsume_ctrl (s : State) : (auConsume s).ctrl = s.ctrl := by unfold auConsume; split <;> rfl
@[simp] theorem auConsume_arInfo (s : State) : (auConsume s).arInfo = s.arInfo := by unfold auConsume; split <;> rfl
@[simp] theorem auConsume_arMode (s : State) : (auConsume s).arMode = s.arMode := by unfold auConsume; split <;> rfl
@[simp] theorem auConsume_arRefresh (s : State) : (auConsume s).arRefresh = s.arRefresh := by unfold auConsume; split <;> rfl
@[simp] theorem auConsume_arMm (s : State) : (auConsume s).arMm = s.arMm := by unfold auConsume; split <;> rfl
@[simp] theorem auConsume_arAr (s : State) : (auConsume s).arAr = s.arAr := by unfold auConsume; split <;> rfl
@[simp] theorem auConsume_arCnt (s : State) : (auConsume s).arCnt = s.arCnt := by unfold auConsume; split <;> rfl
@[simp] theorem auConsume_auSrc (s : State) : (auConsume s).auSrc = s.auSrc := by unfold auConsume; split <;> rfl
@[simp] theorem auConsume_auCtl (s : State) : (auConsume s).auCtl = s.auCtl := by unfold auConsume; split <;> rfl
@[simp] theorem auConsume_dspSlice (s : State) : (auConsume s).dspSlice = s.dspSlice := by unfold auConsume; split <;> rfl
@[simp] theorem auConsume_aram (s : State) : (auConsume s).aram = s.aram := by unfold auConsume; split <;> rfl
@[simp] theorem auConsume_pending (s : State) : (auConsume s).pending = s.pending := by unfold auConsume; split <;> rfl
@[simp] theorem auConsume_nextSeq (s : State) : (auConsume s).nextSeq = s.nextSeq := by unfold auConsume; split <;> rfl
@[simp] theorem auConsume_line (s : State) : (auConsume s).line = s.line := by unfold auConsume; split <;> rfl
@[simp] theorem auConsume_log (s : State) : (auConsume s).log = s.log := by unfold auConsume; split <;> rfl
@[simp] theorem auConsume_status (s : State) : (auConsume s).status = s.status := by unfold auConsume; split <;> rfl
@[simp] theorem auConsume_mem (s : State) : (auConsume s).mem = s.mem := by unfold auConsume; split <;> rfl
@[simp] theorem auConsume_now (s : State) : (auConsume s).now = s.now := by unfold auConsume; split <;> rfl
@[simp] theorem auConsume_inbox (s : State) : (auConsume s).inbox = s.inbox := by unfold auConsume; split <;> rfl
@[simp] theorem auConsume_answers (s : State) : (auConsume s).answers = s.answers := by unfold auConsume; split <;> rfl
@[simp] theorem auConsume_draws (s : State) : (auConsume s).draws = s.draws := by unfold auConsume; split <;> rfl
@[simp] theorem auConsume_reply (s : State) : (auConsume s).reply = s.reply := by unfold auConsume; split <;> rfl

/-! ## `sliceAccount` -/

@[simp] theorem sliceAccount_cfg (s : State) : (sliceAccount s).cfg = s.cfg := by simp only [sliceAccount]; split <;> rfl
@[simp] theorem sliceAccount_ctrl (s : State) : (sliceAccount s).ctrl = s.ctrl := by simp only [sliceAccount]; split <;> rfl
@[simp] theorem sliceAccount_arInfo (s : State) : (sliceAccount s).arInfo = s.arInfo := by simp only [sliceAccount]; split <;> rfl
@[simp] theorem sliceAccount_arMode (s : State) : (sliceAccount s).arMode = s.arMode := by simp only [sliceAccount]; split <;> rfl
@[simp] theorem sliceAccount_arRefresh (s : State) : (sliceAccount s).arRefresh = s.arRefresh := by simp only [sliceAccount]; split <;> rfl
@[simp] theorem sliceAccount_arMm (s : State) : (sliceAccount s).arMm = s.arMm := by simp only [sliceAccount]; split <;> rfl
@[simp] theorem sliceAccount_arAr (s : State) : (sliceAccount s).arAr = s.arAr := by simp only [sliceAccount]; split <;> rfl
@[simp] theorem sliceAccount_arCnt (s : State) : (sliceAccount s).arCnt = s.arCnt := by simp only [sliceAccount]; split <;> rfl
@[simp] theorem sliceAccount_auSrc (s : State) : (sliceAccount s).auSrc = s.auSrc := by simp only [sliceAccount]; split <;> rfl
@[simp] theorem sliceAccount_auCtl (s : State) : (sliceAccount s).auCtl = s.auCtl := by simp only [sliceAccount]; split <;> rfl
@[simp] theorem sliceAccount_auCur (s : State) : (sliceAccount s).auCur = s.auCur := by simp only [sliceAccount]; split <;> rfl
@[simp] theorem sliceAccount_auRem (s : State) : (sliceAccount s).auRem = s.auRem := by simp only [sliceAccount]; split <;> rfl
@[simp] theorem sliceAccount_aram (s : State) : (sliceAccount s).aram = s.aram := by simp only [sliceAccount]; split <;> rfl
@[simp] theorem sliceAccount_pending (s : State) : (sliceAccount s).pending = s.pending := by simp only [sliceAccount]; split <;> rfl
@[simp] theorem sliceAccount_nextSeq (s : State) : (sliceAccount s).nextSeq = s.nextSeq := by simp only [sliceAccount]; split <;> rfl
@[simp] theorem sliceAccount_line (s : State) : (sliceAccount s).line = s.line := by simp only [sliceAccount]; split <;> rfl
@[simp] theorem sliceAccount_status (s : State) : (sliceAccount s).status = s.status := by simp only [sliceAccount]; split <;> rfl
@[simp] theorem sliceAccount_mem (s : State) : (sliceAccount s).mem = s.mem := by simp only [sliceAccount]; split <;> rfl
@[simp] theorem sliceAccount_now (s : State) : (sliceAccount s).now = s.now := by simp only [sliceAccount]; split <;> rfl
@[simp] theorem sliceAccount_inbox (s : State) : (sliceAccount s).inbox = s.inbox := by simp only [sliceAccount]; split <;> rfl
@[simp] theorem sliceAccount_answers (s : State) : (sliceAccount s).answers = s.answers := by simp only [sliceAccount]; split <;> rfl
@[simp] theorem sliceAccount_draws (s : State) : (sliceAccount s).draws = s.draws := by simp only [sliceAccount]; split <;> rfl
@[simp] theorem sliceAccount_reply (s : State) : (sliceAccount s).reply = s.reply := by simp only [sliceAccount]; split <;> rfl

end Sys2Proof.Machine
end

