-- ==== Sys2Proof/Laws/Ops.lean ====
section
/-! SUPPORT. One lemma for each shared operation that says once everything it can do; the provers cite these and do not unfold
the operations. -/

namespace Sys2Proof.Machine

/-! ## Outcomes -/

@[simp] theorem whenLive_of_live {s : State} (k : Result) (h : s.status = .live) : whenLive s k = k := by
  simp [whenLive, h]

theorem whenLive_of_not_live {s : State} (k : Result) (h : s.status ≠ .live) :
    whenLive s k = .fault (.stuck .statusForbids) := by
  simp [whenLive, h]

theorem whenLive_eq_next {s t : State} {k : Result} : whenLive s k = .next t ↔ s.status = .live ∧ k = .next t := by
  unfold whenLive
  split <;> simp_all

theorem whenLive_eq_refused {s : State} {k : Result} {r : Refusal} :
    whenLive s k = .refused r ↔ s.status = .live ∧ k = .refused r := by
  unfold whenLive
  split <;> simp_all

/-- A read step answers a next state only from a live state, and then the state its effect leaves with the value as the reply. -/
theorem readStep_eq_next {rd : State → Half × State} {s t : State} :
    readStep rd s = .next t ↔ s.status = .live ∧ t = (rd s).2.replied (.half (rd s).1) := by
  rw [readStep, whenLive_eq_next, Host.Outcome.next.injEq, eq_comm (a := t)]

theorem readStep_of_live (rd : State → Half × State) {s : State} (h : s.status = .live) :
    readStep rd s = .next ((rd s).2.replied (.half (rd s).1)) := by
  simp [readStep, h]

/-- A quiet step answers a next state only from a live state where its effect meets no fault. -/
theorem quietStep_eq_next {op : State → Except Fault State} {s t : State} :
    quietStep op s = .next t ↔ s.status = .live ∧ ∃ u, op s = .ok u ∧ t = u.replied .none := by
  rw [quietStep, whenLive_eq_next]
  cases op s <;> simp [eq_comm]

theorem quietStep_of_ok {op : State → Except Fault State} {s u : State} (h : s.status = .live) (ho : op s = .ok u) :
    quietStep op s = .next (u.replied .none) := by
  simp [quietStep, h, ho]

/-- The next state of a quiet step, from the state its effect leaves. -/
theorem quietStep_next {op : State → Except Fault State} {s t : State} (u : State) (h : s.status = .live) (ho : op s = .ok u)
    (ht : u.replied .none = t) : quietStep op s = .next t := by
  rw [quietStep_of_ok h ho, ht]

theorem quietStep_of_error {op : State → Except Fault State} {s : State} {f : Fault} (h : s.status = .live)
    (ho : op s = .error f) : quietStep op s = .fault f := by
  simp [quietStep, h, ho]

theorem quietStep_not_refused (op : State → Except Fault State) (s : State) (r : Refusal) : quietStep op s ≠ .refused r := by
  rw [quietStep, Ne, whenLive_eq_refused]
  cases op s <;> simp

/-! ## Answers -/

theorem nextAnswer_cons {s : State} {a : Nat} {rest : List Nat} (h : s.answers = a :: rest) : nextAnswer s = a := by
  simp [nextAnswer, h]

theorem afterAnswer_answers {s : State} {a : Nat} {rest : List Nat} (h : s.answers = a :: rest) :
    (afterAnswer s).answers = rest := by
  simp [afterAnswer, h]

/-- Consuming an answer touches the two model fields and nothing else. -/
theorem afterAnswer_eq (s : State) :
    afterAnswer s = { s with answers := (afterAnswer s).answers, draws := (afterAnswer s).draws } := by
  unfold afterAnswer
  split <;> rfl

/-- The core's restore touches the record and the two model fields of answers, and nothing else. -/
theorem coreRestore_eq (image : CoreImage) (s : State) :
    coreRestore image s = { s with
      log := s.log ++ [.coreRestore image (nextAnswer s != 0)]
      answers := (afterAnswer s).answers, draws := (afterAnswer s).draws } := by
  rw [coreRestore, afterAnswer_eq s]
  rfl

/-! ## Fetch -/

theorem fetchedOf_run {r : Except DecodeError Instr} {i : Instr} (h : fetchedOf r = .run i) : r = .ok i := by
  cases r with
  | ok j => exact congrArg _ (Fetched.run.inj h)
  | error e => cases h

/-- An access of the window that runs a row runs what some key with the access's data decodes to. -/
theorem fetchBus_run {width : Width} {write : Bool} {off : Nat} {data : Word} {i : Instr}
    (h : fetchBus width write off data = .run i) : ∃ key, decode key { data := data } = .ok i := by
  cases width with
  | bits8 => cases h
  | bits16 =>
    by_cases h2 : off % 2 = 0
    · exact ⟨_, fetchedOf_run ((if_pos h2).symm.trans h)⟩
    · cases (if_neg h2).symm.trans h
  | bits32 =>
    by_cases h4 : off % 4 = 0
    · exact ⟨_, fetchedOf_run ((if_pos h4).symm.trans h)⟩
    · cases (if_neg h4).symm.trans h

/-! ## Deliveries -/

theorem mayDeliver_iff {kind : EventKind} {seq : Nat} {s : State} {e : Entry} :
    mayDeliver kind seq s e = true ↔ mayFire kind seq s e := by
  simp only [mayDeliver, mayFire, isEntry, comesBefore, Bool.and_eq_true, beq_iff_eq, decide_eq_true_eq, Bool.not_eq_true',
    List.any_eq_false, and_assoc, not_and, Nat.not_le]
  constructor
  · rintro ⟨rfl, rfl, hd, h⟩
    exact ⟨rfl, rfl, hd, h⟩
  · rintro ⟨rfl, rfl, hd, h⟩
    exact ⟨rfl, rfl, hd, h⟩

/-- A delivery that goes ahead takes an entry that may be delivered, and touches at most the two model fields of answers. -/
theorem deliverable_ok {kind : EventKind} {seq : Nat} {s t : State} {e : Entry} (h : deliverable kind seq s = .ok (e, t)) :
    e ∈ s.pending ∧ mayFire kind seq s e ∧ ∃ x d, t = { s with answers := x, draws := d } := by
  have key : ∀ e, e ∈ s.pending.filter (mayDeliver kind seq s) → e ∈ s.pending ∧ mayFire kind seq s e := fun e he =>
    ⟨(List.mem_filter.1 he).1, mayDeliver_iff.1 (List.mem_filter.1 he).2⟩
  unfold deliverable at h
  split at h
  · cases h
  · rename_i e' hf
    cases h
    exact ⟨(key e (by simp [hf])).1, (key e (by simp [hf])).2, s.answers, s.draws, rfl⟩
  · rename_i e' rest _ hf
    cases h
    have hlt : nextAnswer s % (rest.length + 1) < (e' :: rest).length := Nat.mod_lt _ (by simp)
    rw [List.getD_eq_getElem _ _ hlt]
    obtain ⟨h1, h2⟩ := key ((e' :: rest)[nextAnswer s % (rest.length + 1)]'hlt) (by rw [hf]; exact List.getElem_mem hlt)
    exact ⟨h1, h2, _, _, afterAnswer_eq s⟩

/-- A delivery that does not go ahead finds no entry that may be delivered. -/
theorem deliverable_error {kind : EventKind} {seq : Nat} {s : State} {w : Stuck} :
    deliverable kind seq s = .error w ↔ (∀ e ∈ s.pending, ¬mayFire kind seq s e) ∧ w = whyStuck kind seq s := by
  have key : (∀ e ∈ s.pending, ¬mayFire kind seq s e) ↔ s.pending.filter (mayDeliver kind seq s) = [] := by
    simp [List.filter_eq_nil_iff, mayDeliver_iff]
  rw [key]
  unfold deliverable
  split
  · rename_i h
    rw [h]
    simp [eq_comm]
  · rename_i e h
    rw [h]
    simp
  · rename_i e rest _ h
    rw [h]
    simp

/-- The only entry that may be delivered is the one delivered. -/
theorem deliverable_only {kind : EventKind} {seq : Nat} {s : State} {pre post : List Entry} {e : Entry}
    (hp : s.pending = pre ++ e :: post) (he : mayFire kind seq s e) (h : ∀ x ∈ pre ++ post, ¬mayFire kind seq s x) :
    deliverable kind seq s = .ok (e, s) := by
  have hf : s.pending.filter (mayDeliver kind seq s) = [e] := by
    have h1 : pre.filter (mayDeliver kind seq s) = [] := by
      rw [List.filter_eq_nil_iff]
      exact fun x hx hm => h x (by simp [hx]) (mayDeliver_iff.1 hm)
    have h2 : post.filter (mayDeliver kind seq s) = [] := by
      rw [List.filter_eq_nil_iff]
      exact fun x hx hm => h x (by simp [hx]) (mayDeliver_iff.1 hm)
    rw [hp, List.filter_append, List.filter_cons_of_pos (mayDeliver_iff.2 he), h1, h2]
    rfl
  unfold deliverable
  rw [hf]

/-- Every entry that may be delivered is delivered for some answer of the scheduler. -/
theorem deliverable_any {kind : EventKind} {seq : Nat} {s : State} {e : Entry} (hm : e ∈ s.pending) (he : mayFire kind seq s e)
    (rest : List Nat) : ∃ n t, deliverable kind seq { s with answers := n :: rest } = .ok (e, t) := by
  have hf : e ∈ s.pending.filter (mayDeliver kind seq s) := List.mem_filter.2 ⟨hm, mayDeliver_iff.2 he⟩
  obtain ⟨n, hn, hg⟩ := List.getElem_of_mem hf
  refine ⟨n, ?_⟩
  have hs : ∀ l, ({ s with answers := l } : State).pending.filter (mayDeliver kind seq { s with answers := l }) =
      s.pending.filter (mayDeliver kind seq s) := fun _ => rfl
  unfold deliverable
  rw [hs]
  split
  · rename_i h0
    rw [h0] at hf
    cases hf
  · rename_i e' h1
    rw [h1] at hf
    obtain rfl := List.mem_singleton.1 hf
    exact ⟨_, rfl⟩
  · rename_i e' r _ h1
    simp only [h1] at hn hg
    refine ⟨_, congrArg Except.ok (Prod.ext ?_ rfl)⟩
    have : n % (r.length + 1) = n := Nat.mod_eq_of_lt (by simpa using hn)
    show (e' :: r).getD (n % (r.length + 1)) e' = e
    rw [this, List.getD_eq_getElem _ _ hn, hg]

/-! ## Memory -/

theorem memRead_of_mapped {a : Word} {n : Nat} {s : State} (h : mainMap s.cfg a n = true) :
    memRead a n s = .ok (mainBytes s.mem a n, s.record (.memRead a (mainBytes s.mem a n))) := by
  simp [memRead, h]

theorem memRead_of_unmapped {a : Word} {n : Nat} {s : State} (h : mainMap s.cfg a n = false) :
    memRead a n s = .error (.mainUnmapped a n) := by
  simp [memRead, h]

/-- A main-memory read is its bytes and its record, and only where memory stands behind the run. -/
theorem memRead_eq_ok {a : Word} {n : Nat} {s : State} {r : List Byte × State} :
    memRead a n s = .ok r ↔
      mainMap s.cfg a n = true ∧ r = (mainBytes s.mem a n, s.record (.memRead a (mainBytes s.mem a n))) := by
  cases h : mainMap s.cfg a n
  · simp [memRead, h]
  · simp only [memRead, h, if_true, Except.ok.injEq, true_and]
    exact eq_comm

theorem memRead_eq_error {a : Word} {n : Nat} {s : State} {f : Fault} :
    memRead a n s = .error f ↔ mainMap s.cfg a n = false ∧ f = .mainUnmapped a n := by
  cases h : mainMap s.cfg a n
  · simp [memRead, h, eq_comm]
  · simp [memRead, h]

/-- A main-memory write stores its bytes and its record, and only where memory stands behind the run. -/
theorem memWrite_eq_ok {a : Word} {bytes : List Byte} {s t : State} :
    memWrite a bytes s = .ok t ↔ mainMap s.cfg a bytes.length = true ∧
      t = State.record { s with mem := s.mem.writeAll (mainCells a bytes) } (.memWrite a bytes) := by
  cases h : mainMap s.cfg a bytes.length
  · simp [memWrite, h]
  · simp only [memWrite, h, if_true, Except.ok.injEq, true_and]
    exact eq_comm

theorem memWrite_eq_error {a : Word} {bytes : List Byte} {s : State} {f : Fault} :
    memWrite a bytes s = .error f ↔ mainMap s.cfg a bytes.length = false ∧ f = .mainUnmapped a bytes.length := by
  cases h : mainMap s.cfg a bytes.length
  · simp [memWrite, h, eq_comm]
  · simp [memWrite, h]

@[simp] theorem mainBytes_length (m : Memory) (a : Word) (n : Nat) : (mainBytes m a n).length = n := by simp [mainBytes]

@[simp] theorem aramRead_length (a n : Nat) (s : State) : (aramRead a n s).length = n := by simp [aramRead]

@[simp] theorem orderGranule_length (o : GranuleOrder) (bytes : List Byte) : (orderGranule o bytes).length = bytes.length := by
  cases o <;> simp [orderGranule]

@[simp] theorem bytesOfDword_length (v : DWord) : (bytesOfDword v).length = 8 := rfl

theorem mainAddr_lt (a : Word) (i : Nat) : mainAddr a i < 2 ^ 32 := by
  have := (a + BitVec.ofNat 32 i).isLt
  simpa [mainAddr] using this

theorem mainAddr_eq (a : Word) (i : Nat) : mainAddr a i = (a.toNat + i) % 2 ^ 32 := by
  simp [mainAddr, BitVec.toNat_add]

/-- The store's size as the power of two it is. -/
theorem aramIndex_eq {p : Params} (h : p.wf) (a i : Nat) : aramIndex p a i = (a + i) % p.aramSize := by
  obtain ⟨⟨k, _, hk⟩, _⟩ := h
  simp only [aramIndex, aramMask, hk, Nat.and_two_pow_sub_one_eq_mod]

theorem aramIndex_lt {p : Params} (h : p.wf) (a i : Nat) : aramIndex p a i < p.aramSize := by
  rw [aramIndex_eq h]
  obtain ⟨⟨k, _, hk⟩, _⟩ := h
  exact Nat.mod_lt _ (by rw [hk]; exact Nat.two_pow_pos _)

theorem mainCells_below (a : Word) (bytes : List Byte) : Memory.below (mainCells a bytes) (2 ^ 32) := by
  intro c hc
  obtain ⟨x, _, rfl⟩ := List.mem_map.1 hc
  exact mainAddr_lt a x.2

theorem aramCells_below {p : Params} (h : p.wf) (a : Nat) (bytes : List Byte) :
    Memory.below (aramCells p a bytes) p.aramSize := by
  intro c hc
  obtain ⟨x, _, rfl⟩ := List.mem_map.1 hc
  exact aramIndex_lt h a x.2

/-- A granule to the store changes the store and the log, and only where memory stands behind it. -/
theorem granuleToAram_eq_ok {m : Word} {a : Nat} {s t : State} :
    granuleToAram m a s = .ok t ↔ mainMap s.cfg m 8 = true ∧
      t = { s with
        aram := s.aram.writeAll (aramCells s.cfg a (orderGranule s.cfg.granuleOrder (mainBytes s.mem m 8)))
        log := s.log ++ [.memRead m (mainBytes s.mem m 8)] } := by
  unfold granuleToAram
  cases h : mainMap s.cfg m 8
  · simp [granuleBytes, memRead_of_unmapped h]
  · simp only [granuleBytes, memRead_of_mapped h, Except.ok.injEq, true_and]
    exact eq_comm

theorem granuleToAram_eq_error {m : Word} {a : Nat} {s : State} {f : Fault} :
    granuleToAram m a s = .error f ↔ mainMap s.cfg m 8 = false ∧ f = .mainUnmapped m 8 := by
  unfold granuleToAram
  cases h : mainMap s.cfg m 8
  · simp [granuleBytes, memRead_of_unmapped h, eq_comm]
  · simp [granuleBytes, memRead_of_mapped h]

/-- A granule to main memory. -/
theorem granuleToMain_eq_ok {a : Nat} {m : Word} {s t : State} :
    granuleToMain a m s = .ok t ↔ mainMap s.cfg m 8 = true ∧
      t = { s with
        mem := s.mem.writeAll (mainCells m (orderGranule s.cfg.granuleOrder (aramRead a 8 s)))
        log := s.log ++ [.memWrite m (orderGranule s.cfg.granuleOrder (aramRead a 8 s))] } := by
  unfold granuleToMain
  rw [memWrite_eq_ok]
  simp [granuleBytes, State.record]

theorem granuleToMain_eq_error {a : Nat} {m : Word} {s : State} {f : Fault} :
    granuleToMain a m s = .error f ↔ mainMap s.cfg m 8 = false ∧ f = .mainUnmapped m 8 := by
  unfold granuleToMain
  rw [memWrite_eq_error]
  simp [granuleBytes]

theorem sinkPush_zero (a : Word) (s : State) : sinkPush a 0 s = .ok (s.record (.push (.main a) 0 [])) := rfl

theorem sinkPush_of_mapped {a : Word} {n : Nat} {s : State} (hn : n ≠ 0) (h : mainMap s.cfg a (n * frameBytes) = true) :
    sinkPush a n s = .ok ((s.record (.memRead a (mainBytes s.mem a (n * frameBytes)))).record
      (.push (.main a) n (mainBytes s.mem a (n * frameBytes)))) := by
  simp only [sinkPush, if_neg hn, memRead_of_mapped h]

theorem sinkPush_of_unmapped {a : Word} {n : Nat} {s : State} (hn : n ≠ 0) (h : mainMap s.cfg a (n * frameBytes) = false) :
    sinkPush a n s = .error (.mainUnmapped a (n * frameBytes)) := by
  simp only [sinkPush, if_neg hn, memRead_of_unmapped h]

/-- The sink's push changes the log only. -/
theorem sinkPush_eq_ok {a : Word} {n : Nat} {s t : State} (h : sinkPush a n s = .ok t) : ∃ l, t = { s with log := s.log ++ l } := by
  unfold sinkPush at h
  split at h
  · exact ⟨_, (Except.ok.inj h).symm⟩
  · split at h
    · cases h
    · rename_i bytes u hr
      obtain ⟨-, hr⟩ := memRead_eq_ok.1 hr
      cases hr
      refine ⟨[.memRead a (mainBytes s.mem a (n * frameBytes)), .push (.main a) n (mainBytes s.mem a (n * frameBytes))], ?_⟩
      rw [← Except.ok.inj h]
      simp [State.record]

end Sys2Proof.Machine
end

