-- ==== Sys2Proof/Laws/Audio.lean ====
section
/-! SUPPORT. The audio engine: the block count as a number, the push of a buffer, and the tick's cases (spec 42_audio_dma.md R208, R215
to R218). -/

namespace Sys2Proof.Machine

theorem numBlocks_toNat (c : Half) : (numBlocks c).toNat = c.toNat % 0x8000 := by
  simp [numBlocks, BitVec.extractLsb'_toNat]

theorem numBlocks_eq (c : Half) : numBlocks c = BitVec.ofNat 15 (c.toNat % 0x8000) := by
  apply BitVec.eq_of_toNat_eq
  rw [numBlocks_toNat]
  simp

theorem auEnable_eq (c : Half) : auEnable c = c.getLsbD 15 := rfl

theorem mainBytes_eq (m : Memory) (a : Word) (n : Nat) :
    mainBytes m a n = (List.range n).map fun i => m.read ((a.toNat + i) % 2 ^ 32) := by
  simp only [mainBytes, mainAddr_eq]

theorem auPush_of_empty {s : State} (h : numBlocks s.auCtl = 0) : auPush s = .ok (s.record (.push (.main s.auSrc) 0 [])) := by
  simp only [auPush, h]
  rfl

/-- The push of a buffer with memory behind it: one read of the whole buffer, then the push. -/
theorem auPush_of_mapped {s : State} (hn : numBlocks s.auCtl ≠ 0)
    (h : mainMap s.cfg s.auSrc ((numBlocks s.auCtl).toNat * blockBytes) = true) :
    auPush s = .ok { s with
      log := s.log ++ [.memRead s.auSrc (mainBytes s.mem s.auSrc ((numBlocks s.auCtl).toNat * blockBytes)),
        .push (.main s.auSrc) ((numBlocks s.auCtl).toNat * framesPerBlock)
          (mainBytes s.mem s.auSrc ((numBlocks s.auCtl).toNat * blockBytes))] } := by
  have hf : (numBlocks s.auCtl).toNat * framesPerBlock * frameBytes = (numBlocks s.auCtl).toNat * blockBytes := by
    simp only [framesPerBlock, frameBytes, blockBytes]
    omega
  have h0 : (numBlocks s.auCtl).toNat * framesPerBlock ≠ 0 := by
    have : (numBlocks s.auCtl).toNat ≠ 0 := fun e => hn (BitVec.eq_of_toNat_eq e)
    simp only [framesPerBlock]
    omega
  rw [auPush, sinkPush_of_mapped h0 (by rw [hf]; exact h), hf]
  simp [State.record]

theorem auPush_of_unmapped {s : State} (hn : numBlocks s.auCtl ≠ 0)
    (h : mainMap s.cfg s.auSrc ((numBlocks s.auCtl).toNat * blockBytes) = false) :
    auPush s = .error (.mainUnmapped s.auSrc ((numBlocks s.auCtl).toNat * blockBytes)) := by
  have hf : (numBlocks s.auCtl).toNat * framesPerBlock * frameBytes = (numBlocks s.auCtl).toNat * blockBytes := by
    simp only [framesPerBlock, frameBytes, blockBytes]
    omega
  have h0 : (numBlocks s.auCtl).toNat * framesPerBlock ≠ 0 := by
    have : (numBlocks s.auCtl).toNat ≠ 0 := fun e => hn (BitVec.eq_of_toNat_eq e)
    simp only [framesPerBlock]
    omega
  rw [auPush, sinkPush_of_unmapped h0 (by rw [hf]; exact h), hf]

/-- The push touches the log only. -/
theorem auPush_ok {s t : State} (h : auPush s = .ok t) : ∃ l, t = { s with log := s.log ++ l } := sinkPush_eq_ok h

/-- With one block or none left, the decrement leaves none. -/
theorem auConsume_last {s : State} (h : s.auRem.toNat ≤ 1) : (auConsume s).auRem = 0 := by
  unfold auConsume
  split
  · assumption
  · rename_i h0
    have h1 : s.auRem.toNat ≠ 0 := fun e => h0 (BitVec.eq_of_toNat_eq e)
    have h2 : s.auRem = 1 := by
      apply BitVec.eq_of_toNat_eq
      simp
      omega
    simp [h2]

/-- With more left, the decrement consumes one block. -/
theorem auConsume_more {s : State} (h : 2 ≤ s.auRem.toNat) :
    auConsume s = { s with auRem := s.auRem - 1, auCur := s.auCur + 32 } ∧ (s.auRem - 1).toNat = s.auRem.toNat - 1 ∧
      s.auRem - 1 ≠ 0 := by
  have h0 : s.auRem ≠ 0 := fun e => by rw [e] at h; simp at h
  have h1 : (s.auRem - 1).toNat = s.auRem.toNat - 1 := by
    have := s.auRem.isLt
    rw [BitVec.toNat_sub_of_le (by rw [BitVec.le_def]; simp; omega)]
    simp
  refine ⟨?_, h1, fun e => ?_⟩
  · rw [auConsume, if_neg h0]
    rfl
  · rw [e] at h1
    simp at h1
    omega

/-- The reload after the decrement is the reload. -/
theorem auReload_auConsume (s : State) : auReload (auConsume s) = auReload s := by
  unfold auConsume
  split <;> rfl

/-- The reload leaves no block exactly when the configured count is 0. -/
theorem auReload_auRem_eq (s : State) : (auReload s).auRem = numBlocks s.auCtl := rfl

theorem tickOp_disabled {s : State} (h : auEnable s.auCtl = false) : tickOp s = .ok (sinkSilence framesPerBlock s) := by
  simp [tickOp, h]

theorem tickOp_more {s : State} (h : auEnable s.auCtl = true) (h2 : 2 ≤ s.auRem.toNat) : tickOp s = .ok (auConsume s) := by
  obtain ⟨e1, -, e3⟩ := auConsume_more h2
  simp only [tickOp, h, e1, e3, ne_eq, not_false_iff, if_true, Bool.not_true, Bool.false_eq_true, if_false]

theorem tickOp_reload {s : State} (h : auEnable s.auCtl = true) (h2 : s.auRem.toNat ≤ 1) :
    tickOp s =
      if numBlocks s.auCtl = 0 then .ok (auReload s)
      else
        match auPush (auReload s) with
        | .error f => .error f
        | .ok w => .ok (raise KindSet.kindA w) := by
  simp only [tickOp, h, auConsume_last h2, auReload_auConsume, auReload_auRem_eq, ne_eq, not_true, if_false, Bool.not_true,
    Bool.false_eq_true]
  all_goals rfl

theorem auPush_fault {s : State} {f : Fault} (h : auPush s = .error f) : ∃ a n, f = .mainUnmapped a n := by
  unfold auPush sinkPush at h
  split at h
  · cases h
  · split at h
    · rename_i f' hf
      obtain ⟨-, rfl⟩ := memRead_eq_error.1 hf
      exact ⟨_, _, (Except.error.inj h).symm⟩
    · cases h

/-- Everything a write of the audio control register can do. -/
theorem wrAuCtl_frame {v : Half} {s t : State} (h : wrAuCtl v s = .ok t) :
    (¬(s.auCtl.getLsbD 15 = false ∧ v.getLsbD 15 = true) ∧ t = { s with auCtl := v }) ∨
    ((s.auCtl.getLsbD 15 = false ∧ v.getLsbD 15 = true) ∧ ∃ l, t = { s with
      auCtl := v, auCur := s.auSrc, auRem := numBlocks v
      pending := s.pending ++ [⟨.dspInt KindSet.kindA, s.now + audioStartDelay, .emu, s.nextSeq⟩]
      nextSeq := s.nextSeq + 1, log := s.log ++ l }) := by
  unfold wrAuCtl at h
  split at h
  · rename_i he
    simp only [Bool.and_eq_true, Bool.not_eq_true', auEnable] at he
    refine .inr ⟨he, ?_⟩
    unfold audioStart at h
    split at h
    · cases h
    · rename_i u hu
      obtain ⟨l, rfl⟩ := auPush_ok hu
      refine ⟨l ++ [.schedule audioStartDelay (.dspInt KindSet.kindA) .emu], ?_⟩
      rw [← Except.ok.inj h]
      simp [schedule, State.record, auReload]
  · rename_i he
    simp only [Bool.and_eq_true, Bool.not_eq_true', auEnable] at he
    exact .inl ⟨he, (Except.ok.inj h).symm⟩

theorem wrAuCtl_fault {v : Half} {s : State} {f : Fault} (h : wrAuCtl v s = .error f) : ∃ a n, f = .mainUnmapped a n := by
  unfold wrAuCtl at h
  split at h
  · unfold audioStart at h
    split at h
    · rename_i f' hf
      exact Except.error.inj h ▸ auPush_fault hf
    · cases h
  · cases h

/-- Everything a tick can do: silence; a block consumed; a reload to nothing; a reload, a push and kind A. -/
theorem tickOp_frame {s t : State} (h : tickOp s = .ok t) :
    (∃ l, t = { s with log := s.log ++ l }) ∨ (∃ c r, t = { s with auCur := c, auRem := r }) ∨
    ∃ c r l, t = { s with
      auCur := c, auRem := r, ctrl := s.ctrl ||| 0x0008#16, line := lineOf (s.ctrl ||| 0x0008#16), log := s.log ++ l } := by
  cases he : auEnable s.auCtl
  · rw [tickOp_disabled he] at h
    exact .inl ⟨_, (Except.ok.inj h).symm⟩
  · rcases Nat.lt_or_ge s.auRem.toNat 2 with h2 | h2
    · rw [tickOp_reload he (by omega)] at h
      split at h
      · exact .inr (.inl ⟨_, _, (Except.ok.inj h).symm⟩)
      · split at h
        · cases h
        · rename_i u hu
          obtain ⟨l, rfl⟩ := auPush_ok hu
          refine .inr (.inr ⟨s.auSrc, numBlocks s.auCtl, l ++ [.setLine (lineOf (s.ctrl ||| 0x0008#16))], ?_⟩)
          rw [← Except.ok.inj h]
          simp [raise, updateLine, State.record, auReload, KindSet.kindA, KindSet.bits, kindBits]
    · rw [tickOp_more he h2, (auConsume_more h2).1] at h
      exact .inr (.inl ⟨_, _, (Except.ok.inj h).symm⟩)

theorem tickOp_fault {s : State} {f : Fault} (h : tickOp s = .error f) : ∃ a n, f = .mainUnmapped a n := by
  cases he : auEnable s.auCtl
  · rw [tickOp_disabled he] at h
    cases h
  · rcases Nat.lt_or_ge s.auRem.toNat 2 with h2 | h2
    · rw [tickOp_reload he (by omega)] at h
      split at h
      · cases h
      · split at h
        · rename_i f' hf
          exact Except.error.inj h ▸ auPush_fault hf
        · cases h
    · rw [tickOp_more he h2] at h
      cases h

end Sys2Proof.Machine
end

