-- ==== Sys2Proof/Laws/Decode.lean ====
section
/-! SUPPORT. The key's fields read back out of a key word, the register map read both ways, and the decoder on a key built from its
fields. -/

namespace Sys2Proof

/-- A key word as a number (spec 30_encoding.md R111). -/
theorem keyWord_toNat (c : BitVec 7) (w : Bool) (off : Half) :
    (keyWord c w off).toNat = c.toNat * 0x20000 + w.toNat * 0x10000 + off.toNat := by
  have h1 : (BitVec.ofBool w).toNat = w.toNat := by cases w <;> rfl
  have h2 : w.toNat < 2 := by cases w <;> decide
  have ho := off.isLt
  show (c ++ BitVec.ofBool w ++ off).toNat = _
  rw [BitVec.toNat_append, BitVec.toNat_append, h1, ← Nat.shiftLeft_add_eq_or_of_lt (by omega),
    ← Nat.shiftLeft_add_eq_or_of_lt (by omega), Nat.shiftLeft_eq, Nat.shiftLeft_eq]
  omega

@[simp] theorem keyWord_class (c : BitVec 7) (w : Bool) (off : Half) : (keyWord c w off).extractLsb' 17 7 = c := by
  have h2 : w.toNat < 2 := by cases w <;> decide
  have ho := off.isLt
  have hc := c.isLt
  apply BitVec.eq_of_toNat_eq
  rw [BitVec.extractLsb'_toNat, keyWord_toNat, Nat.shiftRight_eq_div_pow]
  omega

@[simp] theorem keyWord_write (c : BitVec 7) (w : Bool) (off : Half) : (keyWord c w off).getLsbD 16 = w := by
  have ho := off.isLt
  have hn : (keyWord c w off).toNat / 2 ^ 16 = c.toNat * 2 + w.toNat := by
    have h2 : w.toNat < 2 := by cases w <;> decide
    rw [keyWord_toNat]; omega
  rw [BitVec.getLsbD, Nat.testBit_eq_decide_div_mod_eq, hn]
  cases w <;> simp

@[simp] theorem keyWord_offset (c : BitVec 7) (w : Bool) (off : Half) : (keyWord c w off).extractLsb' 0 16 = off := by
  have ho := off.isLt
  apply BitVec.eq_of_toNat_eq
  rw [BitVec.extractLsb'_toNat, keyWord_toNat, Nat.shiftRight_zero]
  omega

/-- A key word is its three fields. -/
theorem keyWord_fields (x : BitVec 24) : keyWord (x.extractLsb' 17 7) (x.getLsbD 16) (x.extractLsb' 0 16) = x := by
  have hx := x.isLt
  have hw : (x.getLsbD 16).toNat = x.toNat / 2 ^ 16 % 2 := by
    rw [BitVec.getLsbD, Nat.testBit_eq_decide_div_mod_eq]
    rcases Nat.mod_two_eq_zero_or_one (x.toNat / 65536) with h | h <;> simp [h]
  apply BitVec.eq_of_toNat_eq
  rw [keyWord_toNat, hw, BitVec.extractLsb'_toNat, BitVec.extractLsb'_toNat, Nat.shiftRight_eq_div_pow, Nat.shiftRight_zero]
  omega

@[simp] theorem Reg.ofOffset_offset (r : Reg) : Reg.ofOffset r.offset = some r := by cases r <;> rfl

theorem Reg.offset_of_ofOffset {off : Half} {r : Reg} (h : Reg.ofOffset off = some r) : r.offset = off := by
  have := List.find?_some h
  simpa using this

theorem Reg.ofOffset_none {off : Half} (h : ∀ r : Reg, r.offset ≠ off) : Reg.ofOffset off = none := by
  cases e : Reg.ofOffset off with
  | none => rfl
  | some r => exact absurd (Reg.offset_of_ofOffset e) (h r)

/-- Every mapped offset is even. -/
theorem Reg.offset_even (r : Reg) : r.offset.getLsbD 0 = false := by cases r <;> rfl

theorem decode_bus16 (w : Bool) (off : Half) (op : Operand) : decode (keyWord 0 w off) op = decodeBus16 w off op := by
  simp only [decode, keyWord_class, keyWord_write, keyWord_offset]; rfl

theorem decode_bus32 (w : Bool) (off : Half) (op : Operand) : decode (keyWord 1 w off) op = decodeBus32 w off op := by
  simp only [decode, keyWord_class, keyWord_write, keyWord_offset]; rfl

theorem decode_event (code : Half) (op : Operand) :
    decode (keyWord 2 false code) op = decodeEvent (keyWord 2 false code).toNat code op := by
  simp only [decode, keyWord_class, keyWord_write, keyWord_offset]; rfl

end Sys2Proof
end

