-- ==== Sys2Proof/Laws/Operands.lean ====
section
/-! SUPPORT. The halves of a pair, masks of a pair half by half, and what the write masks leave of the registers. -/

namespace Sys2Proof.Machine

@[simp] theorem hiHalf_append (h l : Half) : hiHalf (h ++ l) = h := by
  apply BitVec.eq_of_toNat_eq
  have := l.isLt
  have := h.isLt
  simp only [hiHalf, BitVec.extractLsb'_toNat, BitVec.toNat_append, Nat.shiftRight_eq_div_pow]
  rw [← Nat.shiftLeft_add_eq_or_of_lt (by omega), Nat.shiftLeft_eq]
  omega

@[simp] theorem loHalf_append (h l : Half) : loHalf (h ++ l) = l := by
  apply BitVec.eq_of_toNat_eq
  have := l.isLt
  simp only [loHalf, BitVec.extractLsb'_toNat, BitVec.toNat_append, Nat.shiftRight_zero]
  rw [← Nat.shiftLeft_add_eq_or_of_lt (by omega), Nat.shiftLeft_eq]
  omega

@[simp] theorem hiHalf_setHi (f : Word) (h : Half) : hiHalf (setHi f h) = h := hiHalf_append _ _

@[simp] theorem loHalf_setHi (f : Word) (h : Half) : loHalf (setHi f h) = loHalf f := loHalf_append _ _

@[simp] theorem hiHalf_setLo (f : Word) (l : Half) : hiHalf (setLo f l) = hiHalf f := hiHalf_append _ _

@[simp] theorem loHalf_setLo (f : Word) (l : Half) : loHalf (setLo f l) = l := loHalf_append _ _

/-- A pair is its halves. -/
theorem hiHalf_append_loHalf (f : Word) : hiHalf f ++ loHalf f = f := by
  apply BitVec.eq_of_toNat_eq
  have := f.isLt
  simp only [hiHalf, loHalf, BitVec.extractLsb'_toNat, BitVec.toNat_append, Nat.shiftRight_eq_div_pow]
  rw [← Nat.shiftLeft_add_eq_or_of_lt (by omega), Nat.shiftLeft_eq]
  omega

/-- A pair masked to nothing is both halves masked to nothing. -/
theorem pair_and_eq_zero (f : Word) (mh ml : Half) : f &&& (mh ++ ml) = 0 ↔ hiHalf f &&& mh = 0 ∧ loHalf f &&& ml = 0 := by
  have e : f &&& (mh ++ ml) = (hiHalf f &&& mh) ++ (loHalf f &&& ml) := by
    conv_lhs => rw [← hiHalf_append_loHalf f]
    exact BitVec.and_append
  rw [e]
  constructor
  · intro h
    have h1 := congrArg hiHalf h
    have h2 := congrArg loHalf h
    rw [hiHalf_append] at h1
    rw [loHalf_append] at h2
    exact ⟨h1, h2⟩
  · rintro ⟨h1, h2⟩
    rw [h1, h2]
    rfl

/-- A mask keeps nothing outside itself. -/
theorem and_and_disjoint {w : Nat} (v m k : BitVec w) (h : m &&& k = 0) : (v &&& m) &&& k = 0 := by
  rw [BitVec.and_assoc, h]
  exact BitVec.and_zero

/-! ## The masks of `RegsLegal`, half by half -/

theorem low7_iff (f : Word) : f &&& 0x00000007#32 = 0 ↔ loHalf f &&& 0x0007#16 = 0 := by
  have h := pair_and_eq_zero f 0x0000#16 0x0007#16
  simpa using h

theorem cntMask_iff (f : Word) :
    f &&& 0x7C000007#32 = 0 ↔ hiHalf f &&& 0x7C00#16 = 0 ∧ loHalf f &&& 0x0007#16 = 0 :=
  pair_and_eq_zero f 0x7C00#16 0x0007#16

theorem auMask_iff (p : Params) (f : Word) :
    f &&& ~~~((if p.unified then 0x1FFFFFE0#32 else 0x03FFFFE0#32)) = 0 ↔
      hiHalf f &&& ~~~(auSrcHiWmask p) = 0 ∧ loHalf f &&& 0x001F#16 = 0 := by
  unfold auSrcHiWmask
  cases p.unified
  · exact pair_and_eq_zero f (~~~0x03FF#16) 0x001F#16
  · exact pair_and_eq_zero f (~~~0x1FFF#16) 0x001F#16

theorem low7_toNat (f : Word) : f &&& 0x00000007#32 = 0 ↔ f.toNat % 8 = 0 := by
  rw [← BitVec.toNat_inj, BitVec.toNat_and]
  have h := Nat.and_two_pow_sub_one_eq_mod f.toNat 3
  simp at h ⊢
  rw [h]

/-- The registers of a state are within what the write masks leave. -/
abbrev State.RegsLegal (s : State) : Prop := Sys2Proof.Machine.RegsLegal s.cfg s.arInfo s.arMm s.arAr s.arCnt s.auSrc

theorem legal_arInfo {s : State} (h : s.RegsLegal) (v : Half) : State.RegsLegal { s with arInfo := v &&& arInfoWmask } :=
  ⟨and_and_disjoint _ _ _ (by decide), h.2⟩

theorem legal_arMmHi {s : State} (h : s.RegsLegal) (v : Half) :
    State.RegsLegal { s with arMm := setHi s.arMm (v &&& arAddrHiWmask) } := by
  refine ⟨h.1, ?_, h.2.2⟩
  rw [low7_iff, loHalf_setHi, ← low7_iff]
  exact h.2.1

theorem legal_arMmLo {s : State} (h : s.RegsLegal) (v : Half) :
    State.RegsLegal { s with arMm := setLo s.arMm (v &&& arAddrLoWmask) } := by
  refine ⟨h.1, ?_, h.2.2⟩
  rw [low7_iff, loHalf_setLo]
  exact and_and_disjoint _ _ _ (by decide)

theorem legal_arArHi {s : State} (h : s.RegsLegal) (v : Half) :
    State.RegsLegal { s with arAr := setHi s.arAr (v &&& arAddrHiWmask) } := by
  refine ⟨h.1, h.2.1, ?_, h.2.2.2⟩
  rw [low7_iff, loHalf_setHi, ← low7_iff]
  exact h.2.2.1

theorem legal_arArLo {s : State} (h : s.RegsLegal) (v : Half) :
    State.RegsLegal { s with arAr := setLo s.arAr (v &&& arAddrLoWmask) } := by
  refine ⟨h.1, h.2.1, ?_, h.2.2.2⟩
  rw [low7_iff, loHalf_setLo]
  exact and_and_disjoint _ _ _ (by decide)

theorem legal_arCntHi {s : State} (h : s.RegsLegal) (v : Half) :
    State.RegsLegal { s with arCnt := setHi s.arCnt (v &&& arCntHiWmask) } := by
  refine ⟨h.1, h.2.1, h.2.2.1, ?_, h.2.2.2.2⟩
  rw [cntMask_iff, hiHalf_setHi, loHalf_setHi]
  exact ⟨and_and_disjoint _ _ _ (by decide), ((cntMask_iff _).1 h.2.2.2.1).2⟩

theorem legal_arCntLo {s : State} (hc : s.cfg.wf) (h : s.RegsLegal) (v : Half) :
    State.RegsLegal { s with arCnt := setLo s.arCnt (v &&& s.cfg.arCntLoWmask) } := by
  refine ⟨h.1, h.2.1, h.2.2.1, ?_, h.2.2.2.2⟩
  rw [cntMask_iff, hiHalf_setLo, loHalf_setLo]
  exact ⟨((cntMask_iff _).1 h.2.2.2.1).1, and_and_disjoint _ _ _ hc.2.1⟩

theorem legal_auSrcHi {s : State} (h : s.RegsLegal) (v : Half) :
    State.RegsLegal { s with auSrc := setHi s.auSrc (v &&& auSrcHiWmask s.cfg) } := by
  refine ⟨h.1, h.2.1, h.2.2.1, h.2.2.2.1, ?_⟩
  rw [auMask_iff, hiHalf_setHi, loHalf_setHi]
  exact ⟨and_and_disjoint _ _ _ (BitVec.and_not_self _), ((auMask_iff _ _).1 h.2.2.2.2).2⟩

theorem legal_auSrcLo {s : State} (h : s.RegsLegal) (v : Half) :
    State.RegsLegal { s with auSrc := setLo s.auSrc (v &&& auSrcLoWmask) } := by
  refine ⟨h.1, h.2.1, h.2.2.1, h.2.2.2.1, ?_⟩
  rw [auMask_iff, hiHalf_setLo, loHalf_setLo]
  exact ⟨((auMask_iff _ _).1 h.2.2.2.2).1, and_and_disjoint _ _ _ (by decide)⟩

theorem legal_zero (p : Params) : RegsLegal p 0 0 0 0 0 :=
  ⟨by decide, by decide, by decide, by decide, BitVec.zero_and⟩

/-- `MAIN_MAP` can be any predicate on an address and a length up to a bound (00_scope.md R13): the block's own lengths are 8 and at
most 0x7FFF blocks of 32 bytes. -/
theorem mainMap_any (f : Word → Nat → Bool) (bound : Nat) :
    ∃ list, ∀ (p : Params) (a : Word) (n : Nat), n ≤ bound → mainMap { p with mainMap := .runs list } a n = f a n := by
  refine ⟨(Finset.univ : Finset Word).toList.flatMap fun a =>
    ((List.range (bound + 1)).filter (f a)).map fun n => ⟨a.toNat, 1, n, n⟩, fun p a n hn => Bool.eq_iff_iff.2 ?_⟩
  simp only [mainMap, List.any_eq_true, List.mem_flatMap, Finset.mem_toList, Finset.mem_univ, true_and, List.mem_map, List.mem_filter,
    List.mem_range, ruleHolds, decide_eq_true_eq]
  constructor
  · rintro ⟨r, ⟨b, m, ⟨-, hf⟩, rfl⟩, h1, h2, h3, h4⟩
    obtain rfl : b = a := BitVec.eq_of_toNat_eq (by simp at h1 h2; omega)
    obtain rfl : m = n := by simp at h3 h4; omega
    exact hf
  · exact fun hf => ⟨_, ⟨a, n, ⟨by omega, hf⟩, rfl⟩, by simp, by simp, by simp, by simp⟩

end Sys2Proof.Machine
end

