-- ==== Sys2Proof/Laws/Transfer.lean ====
section
/-! SUPPORT. The granule loop once (spec 43_aram_dma.md R244 to R249): an invariant indexed by the granule carries through it, the
first granule that faults ends it, and each granule operation as one equation. -/

namespace Sys2Proof.Machine

/-- The loop completes where an indexed invariant says each granule does. -/
theorem granules_ok {g : State → Except Fault State} {n : Nat} {s : State} (P : Nat → State → Prop) (h0 : P 0 s)
    (hs : ∀ k u, k < n → P k u → ∃ t, g u = .ok t ∧ P (k + 1) t) : ∃ t, granules g n s = .ok t ∧ P n t := by
  suffices H : ∀ m k u, k + m = n → P k u → ∃ t, granules g m u = .ok t ∧ P n t from H n 0 s (by omega) h0
  intro m
  induction m with
  | zero => rintro k u rfl hp; exact ⟨u, rfl, hp⟩
  | succ m ih =>
    intro k u hk hp
    obtain ⟨t, ht, hp'⟩ := hs k u (by omega) hp
    obtain ⟨w, hw, hP⟩ := ih (k + 1) t (by omega) hp'
    exact ⟨w, by simp only [granules, ht, hw], hP⟩

/-- The first granule that faults is the loop's fault. -/
theorem granules_error {g : State → Except Fault State} {n k : Nat} {s : State} {f : Fault} (P : Nat → State → Prop) (hk : k < n)
    (h0 : P 0 s) (hs : ∀ j u, j < k → P j u → ∃ t, g u = .ok t ∧ P (j + 1) t) (hf : ∀ u, P k u → g u = .error f) :
    granules g n s = .error f := by
  suffices H : ∀ m j u, j + m = n → j ≤ k → P j u → granules g m u = .error f from H n 0 s (by omega) (by omega) h0
  intro m
  induction m with
  | zero => intro j u hj hjk; omega
  | succ m ih =>
    intro j u hj hjk hp
    by_cases he : j = k
    · subst he
      simp only [granules, hf u hp]
    · obtain ⟨t, ht, hp'⟩ := hs j u (by omega) hp
      simp only [granules, ht]
      exact ih (j + 1) t (by omega) (by omega) hp'

/-- What each granule keeps, the loop keeps. -/
theorem granules_keep {g : State → Except Fault State} (R : State → Prop) (hg : ∀ u t, R u → g u = .ok t → R t) {n : Nat} {s t : State}
    (h0 : R s) (h : granules g n s = .ok t) : R t := by
  induction n generalizing s with
  | zero => exact Except.ok.inj h ▸ h0
  | succ n ih =>
    simp only [granules] at h
    split at h
    · cases h
    · rename_i u hu
      exact ih (hg s u h0 hu) h

/-- The loop faults only as a granule does. -/
theorem granules_error_from {g : State → Except Fault State} {F : Fault → Prop} (hg : ∀ u f, g u = .error f → F f) {n : Nat} {s : State}
    {f : Fault} (h : granules g n s = .error f) : F f := by
  induction n generalizing s with
  | zero => cases h
  | succ n ih =>
    simp only [granules] at h
    split at h
    · rename_i f' hf
      exact Except.error.inj h ▸ hg s f' hf
    · exact ih h

/-- The bytes of the granule at `reg.AR_MM`, in store order. -/
def granuleBytesOf (s : State) : List Byte := orderGranule s.cfg.granuleOrder (mainBytes s.mem s.arMm 8)

/-- The cells one granule of a main-to-ARAM transfer writes, in order: the mirror copy's, then the normal ones. -/
def granuleCells (s : State) : List (Nat × Byte) :=
  (if mirrors s.arInfo ∧ s.arAr.toNat < mirrorLimit then aramCells s.cfg (s.arAr.toNat + mirrorOffset) (granuleBytesOf s) else []) ++
    aramCells s.cfg s.arAr.toNat (granuleBytesOf s)

/-- One granule to the store, where memory stands behind it: the store takes the granule's cells, the registers advance. -/
theorem mainToAram_of_mapped {s : State} (h : mainMap s.cfg s.arMm 8 = true) :
    ∃ l, mainToAram s = .ok (advanceDma { s with aram := s.aram.writeAll (granuleCells s), log := s.log ++ l }) := by
  unfold mainToAram mirrorGranule
  by_cases hm : mirrors s.arInfo ∧ s.arAr.toNat < mirrorLimit
  · refine ⟨[.memRead s.arMm (mainBytes s.mem s.arMm 8), .memRead s.arMm (mainBytes s.mem s.arMm 8)], ?_⟩
    rw [if_pos hm]
    simp only [granuleToAram, granuleBytes, memRead_of_mapped h, granuleCells, if_pos hm, Memory.writeAll_both]
    rw [memRead_of_mapped (by simpa using h)]
    simp [aramWrite, State.record, granuleBytesOf]
  · refine ⟨[.memRead s.arMm (mainBytes s.mem s.arMm 8)], ?_⟩
    rw [if_neg hm]
    simp only [granuleToAram, granuleBytes, memRead_of_mapped h, granuleCells, if_neg hm]
    simp [aramWrite, State.record, granuleBytesOf]

theorem mainToAram_of_unmapped {s : State} (h : mainMap s.cfg s.arMm 8 = false) :
    mainToAram s = .error (.mainUnmapped s.arMm 8) := by
  unfold mainToAram mirrorGranule
  split
  · rename_i f hf
    split at hf
    · rw [(granuleToAram_eq_error.1 hf).2]
    · cases hf
  · rename_i t ht
    split at ht
    · exact absurd (granuleToAram_eq_ok.1 ht).1 (by simp [h])
    · cases ht
      simp only [granuleToAram_eq_error.2 ⟨h, rfl⟩]

/-- One granule to main memory. -/
theorem aramToMain_of_mapped {s : State} (h : mainMap s.cfg s.arMm 8 = true) :
    aramToMain s = .ok (advanceDma { s with
      mem := s.mem.writeAll (mainCells s.arMm (orderGranule s.cfg.granuleOrder (aramRead s.arAr.toNat 8 s)))
      log := s.log ++ [.memWrite s.arMm (orderGranule s.cfg.granuleOrder (aramRead s.arAr.toNat 8 s))] }) := by
  unfold aramToMain
  rw [granuleToMain_eq_ok.2 ⟨h, rfl⟩]

theorem aramToMain_of_unmapped {s : State} (h : mainMap s.cfg s.arMm 8 = false) :
    aramToMain s = .error (.mainUnmapped s.arMm 8) := by
  unfold aramToMain
  rw [granuleToMain_eq_error.2 ⟨h, rfl⟩]

/-- One granule to the secondary bus: recorded only. -/
theorem mainToAux_of_mapped {s : State} (h : mainMap s.cfg s.arMm 8 = true) :
    mainToAux s = .ok (advanceDma { s with
      log := s.log ++ [.memRead s.arMm (mainBytes s.mem s.arMm 8),
        .auxWrite s.arAr (dwordOfBytes (mainBytes s.mem s.arMm 8))] }) := by
  unfold mainToAux
  simp only [memRead64, granuleBytes, memRead_of_mapped h]
  simp [auxWrite64, State.record]

theorem mainToAux_of_unmapped {s : State} (h : mainMap s.cfg s.arMm 8 = false) :
    mainToAux s = .error (.mainUnmapped s.arMm 8) := by
  unfold mainToAux
  simp only [memRead64, granuleBytes, memRead_of_unmapped h]

/-- One granule from the secondary bus: the answer's bytes go to main memory. -/
theorem auxToMain_of_mapped {s : State} (h : mainMap s.cfg s.arMm 8 = true) :
    auxToMain s = .ok (advanceDma { s with
      mem := s.mem.writeAll (mainCells s.arMm (bytesOfDword (BitVec.ofNat 64 (nextAnswer s))))
      answers := (afterAnswer s).answers
      draws := (afterAnswer s).draws
      log := s.log ++ [.auxRead s.arAr (BitVec.ofNat 64 (nextAnswer s)),
        .memWrite s.arMm (bytesOfDword (BitVec.ofNat 64 (nextAnswer s)))] }) := by
  unfold auxToMain
  have hm : memWrite64 s.arMm (auxRead64 s.arAr s).1 (auxRead64 s.arAr s).2 =
      .ok (State.record { (auxRead64 s.arAr s).2 with
          mem := (auxRead64 s.arAr s).2.mem.writeAll (mainCells s.arMm (bytesOfDword (auxRead64 s.arAr s).1)) }
        (.memWrite s.arMm (bytesOfDword (auxRead64 s.arAr s).1))) := by
    refine memWrite_eq_ok.2 ⟨?_, rfl⟩
    simpa [auxRead64] using h
  rw [hm]
  simp only [auxRead64]
  rw [afterAnswer_eq s]
  simp [State.record]

theorem auxToMain_of_unmapped {s : State} (h : mainMap s.cfg s.arMm 8 = false) :
    auxToMain s = .error (.mainUnmapped s.arMm 8) := by
  unfold auxToMain
  rw [show memWrite64 s.arMm (auxRead64 s.arAr s).1 (auxRead64 s.arAr s).2 = .error (.mainUnmapped s.arMm 8) from
    memWrite_eq_error.2 ⟨by simpa [auxRead64] using h, rfl⟩]

/-- A granule of the direction and target in force. -/
def granuleOp (bus dir : Bool) : State → Except Fault State :=
  match bus, dir with
  | false, false => mainToAram
  | false, true => aramToMain
  | true, false => mainToAux
  | true, true => auxToMain

/-- Every granule operation completes where memory stands behind it, and then touches, beside the three registers it advances, the two
memories, the log and the model's answer fields. -/
theorem granuleOp_of_mapped (bus dir : Bool) {s : State} (h : mainMap s.cfg s.arMm 8 = true) :
    ∃ m a l x d, granuleOp bus dir s = .ok { s with
      mem := m, aram := a, log := s.log ++ l, answers := x, draws := d
      arMm := s.arMm + 8, arAr := s.arAr + 8, arCnt := setCount s.arCnt (countOf s.arCnt - 8) } := by
  cases bus <;> cases dir
  · obtain ⟨l, hl⟩ := mainToAram_of_mapped h
    exact ⟨_, _, l, _, _, hl⟩
  · exact ⟨_, _, _, _, _, aramToMain_of_mapped h⟩
  · exact ⟨_, _, _, _, _, mainToAux_of_mapped h⟩
  · exact ⟨_, _, _, _, _, auxToMain_of_mapped h⟩

theorem granuleOp_of_unmapped (bus dir : Bool) {s : State} (h : mainMap s.cfg s.arMm 8 = false) :
    granuleOp bus dir s = .error (.mainUnmapped s.arMm 8) := by
  cases bus <;> cases dir
  · exact mainToAram_of_unmapped h
  · exact aramToMain_of_unmapped h
  · exact mainToAux_of_unmapped h
  · exact auxToMain_of_unmapped h

/-- A granule operation that completes had memory behind it. -/
theorem granuleOp_mapped {bus dir : Bool} {s t : State} (h : granuleOp bus dir s = .ok t) : mainMap s.cfg s.arMm 8 = true := by
  cases hm : mainMap s.cfg s.arMm 8
  · rw [granuleOp_of_unmapped bus dir hm] at h; cases h
  · rfl

theorem aramTransfer_eq (s : State) : aramTransfer s = granules (granuleOp false (dirOf s.arCnt)) (granuleCount s) s := by
  unfold aramTransfer
  cases dirOf s.arCnt <;> rfl

theorem auxBusTransfer_eq (s : State) : auxBusTransfer s = granules (granuleOp true (dirOf s.arCnt)) (granuleCount s) s := by
  unfold auxBusTransfer
  cases dirOf s.arCnt <;> rfl

/-- The move is one loop over the granule operation of the chosen target, or nothing. -/
theorem aramMove_eq (s : State) :
    aramMove s =
      if s.cfg.aramSize ≤ s.arAr.toNat ∧ s.cfg.unified = true then .ok s
      else granules (granuleOp (decide (s.cfg.aramSize ≤ s.arAr.toNat)) (dirOf s.arCnt)) (granuleCount s) s := by
  unfold aramMove
  by_cases h : s.arAr.toNat < s.cfg.aramSize
  · have h' : ¬ s.cfg.aramSize ≤ s.arAr.toNat := by omega
    simp [h, h', aramTransfer_eq]
  · have h' : s.cfg.aramSize ≤ s.arAr.toNat := by omega
    cases hu : s.cfg.unified <;> simp [h, h', auxBusTransfer_eq]

/-! ## Counts and directions -/

@[simp] theorem countOf_setLo_lt (c : Word) (l : Half) : (countOf (setLo c l)).toNat < 2 ^ 31 := (countOf (setLo c l)).isLt

/-- The halves put together. -/
theorem setLo_toNat (c : Word) (l : Half) : (setLo c l).toNat = c.toNat / 0x10000 * 0x10000 + l.toNat := by
  have hl := l.isLt
  have hc := c.isLt
  simp only [setLo, hiHalf, BitVec.toNat_append, BitVec.extractLsb'_toNat, Nat.shiftRight_eq_div_pow]
  rw [← Nat.shiftLeft_add_eq_or_of_lt (by omega), Nat.shiftLeft_eq]
  omega

theorem setHi_toNat (c : Word) (h : Half) : (setHi c h).toNat = h.toNat * 0x10000 + c.toNat % 0x10000 := by
  have hl := h.isLt
  simp only [setHi, loHalf, BitVec.toNat_append, BitVec.extractLsb'_toNat, Nat.shiftRight_zero]
  rw [← Nat.shiftLeft_add_eq_or_of_lt (Nat.mod_lt _ (by omega)), Nat.shiftLeft_eq]

theorem countOf_toNat (c : Word) : (countOf c).toNat = c.toNat % 2 ^ 31 := by
  simp [countOf, BitVec.extractLsb'_toNat]

theorem dirOf_eq (c : Word) : dirOf c = decide (2 ^ 31 ≤ c.toNat) := by
  have hc := c.isLt
  rw [dirOf, BitVec.getLsbD, Nat.testBit_eq_decide_div_mod_eq]
  congr 1
  rw [eq_iff_iff]
  omega

theorem setCount_toNat (c : Word) (n : BitVec 31) : (setCount c n).toNat = c.toNat / 2 ^ 31 * 2 ^ 31 + n.toNat := by
  have hc := c.isLt
  have hn := n.isLt
  simp only [setCount, BitVec.toNat_append, BitVec.extractLsb'_toNat, Nat.shiftRight_eq_div_pow]
  rw [← Nat.shiftLeft_add_eq_or_of_lt hn, Nat.shiftLeft_eq]
  omega

@[simp] theorem countOf_setCount (c : Word) (n : BitVec 31) : countOf (setCount c n) = n := by
  apply BitVec.eq_of_toNat_eq
  have hn := n.isLt
  rw [countOf_toNat, setCount_toNat]
  omega

@[simp] theorem setCount_setCount (c : Word) (n m : BitVec 31) : setCount (setCount c n) m = setCount c m := by
  apply BitVec.eq_of_toNat_eq
  have hn := n.isLt
  have hc := c.isLt
  rw [setCount_toNat, setCount_toNat, setCount_toNat]
  omega

@[simp] theorem dirOf_setCount (c : Word) (n : BitVec 31) : dirOf (setCount c n) = dirOf c := by
  have hn := n.isLt
  have hc := c.isLt
  rw [dirOf_eq, dirOf_eq, setCount_toNat]
  congr 1
  rw [eq_iff_iff]
  omega

@[simp] theorem dirOf_setLo (c : Word) (l : Half) : dirOf (setLo c l) = dirOf c := by
  have hl := l.isLt
  have hc := c.isLt
  rw [dirOf_eq, dirOf_eq, setLo_toNat]
  congr 1
  rw [eq_iff_iff]
  omega

@[simp] theorem setCount_countOf (c : Word) : setCount c (countOf c) = c := by
  apply BitVec.eq_of_toNat_eq
  rw [setCount_toNat, countOf_toNat]
  omega

/-- A count of 0 leaves the direction alone. -/
theorem setCount_zero (c : Word) : setCount c 0 = if dirOf c then 0x80000000#32 else 0 := by
  apply BitVec.eq_of_toNat_eq
  have hc := c.isLt
  rw [setCount_toNat, dirOf_eq]
  by_cases h : 2 ^ 31 ≤ c.toNat
  · rw [decide_eq_true h, if_pos rfl]
    show c.toNat / 2 ^ 31 * 2 ^ 31 + 0 = 0x80000000
    omega
  · rw [decide_eq_false h, if_neg (by decide)]
    show c.toNat / 2 ^ 31 * 2 ^ 31 + 0 = 0
    omega

/-! ## The bytes of a granule -/

theorem sourceByte_lt (o : GranuleOrder) {r : Nat} (_hr : r < 8) : sourceByte o r < 8 := by
  cases o <;> (simp only [sourceByte]; omega)

/-- The order of a granule's bytes is a matter of its own 8 bytes. -/
theorem sourceByte_granule (o : GranuleOrder) (k : Nat) {r : Nat} (_hr : r < 8) :
    sourceByte o (8 * k + r) = 8 * k + sourceByte o r := by
  cases o
  · rfl
  · simp only [sourceByte]
    omega

theorem orderGranule_getElem (o : GranuleOrder) {bytes : List Byte} (h : bytes.length = 8) {r : Nat} (hr : r < 8) :
    (orderGranule o bytes)[r]'(by simpa [h] using hr) = bytes[sourceByte o r]'(by rw [h]; exact sourceByte_lt o hr) := by
  cases o
  · rfl
  · simp only [orderGranule, List.getElem_reverse, sourceByte]
    congr 1
    omega

/-! ## The state between two granules -/

/-- A state `k` granules into a transfer from `b`, with the memories, the log and the model's answer fields as given. -/
def State.advanced (b : State) (k : Nat) (m a : Memory) (l : List LogEntry) (x : List Nat) (d : Nat) : State :=
  { b with
    mem := m, aram := a, log := l, answers := x, draws := d
    arMm := b.arMm + BitVec.ofNat 32 (8 * k)
    arAr := b.arAr + BitVec.ofNat 32 (8 * k)
    arCnt := setCount b.arCnt (countOf b.arCnt - BitVec.ofNat 31 (8 * k)) }

theorem advanced_zero (b : State) : b.advanced 0 b.mem b.aram b.log b.answers b.draws = b := by
  simp [State.advanced]

/-- Advancing the registers goes from one granule to the next. -/
theorem advanceDma_advanced (b : State) (k : Nat) (m a m' a' : Memory) (l l' : List LogEntry) (x x' : List Nat) (d d' : Nat) :
    advanceDma { b.advanced k m a l x d with mem := m', aram := a', log := l', answers := x', draws := d' } =
      b.advanced (k + 1) m' a' l' x' d' := by
  have hc (c : BitVec 31) : c - BitVec.ofNat 31 (8 * k) - 8 = c - BitVec.ofNat 31 (8 * k + 8) := by
    rw [BitVec.ofNat_add, ← sub_sub]
    rfl
  have hw (c : Word) : c + BitVec.ofNat 32 (8 * k) + 8 = c + BitVec.ofNat 32 (8 * k + 8) := by
    rw [BitVec.add_assoc, BitVec.ofNat_add]
    rfl
  simp only [State.advanced, advanceDma, setCount_setCount, countOf_setCount, granuleBytes, Nat.mul_add, Nat.mul_one]
  rw [← hc, ← hw, ← hw]
  rfl

/-- One granule, `k` granules into a transfer, completes where memory stands behind it and leads `k + 1` granules into it. -/
theorem granuleOp_advanced (bus dir : Bool) (b : State) (k : Nat) (m a : Memory) (l : List LogEntry) (x : List Nat) (d : Nat)
    (h : mainMap b.cfg (b.arMm + BitVec.ofNat 32 (8 * k)) 8 = true) :
    ∃ m' a' l' x' d', granuleOp bus dir (b.advanced k m a l x d) = .ok (b.advanced (k + 1) m' a' l' x' d') := by
  have h' : mainMap (b.advanced k m a l x d).cfg (b.advanced k m a l x d).arMm 8 = true := h
  cases bus <;> cases dir
  · obtain ⟨l', hl⟩ := mainToAram_of_mapped h'
    exact ⟨_, _, _, _, _, by rw [granuleOp, hl, advanceDma_advanced]⟩
  · exact ⟨_, _, _, _, _, by rw [granuleOp, aramToMain_of_mapped h', advanceDma_advanced]⟩
  · exact ⟨_, _, _, _, _, by rw [granuleOp, mainToAux_of_mapped h', advanceDma_advanced]⟩
  · exact ⟨_, _, _, _, _, by rw [granuleOp, auxToMain_of_mapped h', advanceDma_advanced]⟩

/-! ## The trigger -/

/-- What the trigger does before the bytes move (R240, R242, R243). -/
theorem aramArm_eq (v : Half) (s : State) :
    aramArm v s = { s with
      arCnt := setLo s.arCnt (v &&& s.cfg.arCntLoWmask)
      ctrl := s.ctrl ||| 0x0200#16
      line := lineOf (s.ctrl ||| 0x0200#16)
      pending := s.pending ++ [⟨.aramInt, s.now + triggerCount v s / 32 * 246, .emu, s.nextSeq⟩]
      nextSeq := s.nextSeq + 1
      log := s.log ++ [.setLine (lineOf (s.ctrl ||| 0x0200#16)), .schedule (triggerCount v s / 32 * 246) .aramInt .emu]
      arMm := triggerMain s
      arAr := triggerAux s } := by
  simp only [aramArm, updateLine, schedule, State.record, List.append_assoc, List.cons_append, List.nil_append]
  rfl

/-- The trigger is one loop, or nothing (R243, R251), from the armed state. -/
theorem wrArCntLo_eq (v : Half) (s : State) :
    wrArCntLo v s =
      if s.cfg.aramSize ≤ (triggerAux s).toNat ∧ s.cfg.unified = true then .ok (aramArm v s)
      else granules (granuleOp (decide (s.cfg.aramSize ≤ (triggerAux s).toNat)) (dirOf s.arCnt)) (triggerCount v s / 8)
        (aramArm v s) := by
  rw [wrArCntLo, aramMove_eq, aramArm_eq]
  simp only [dirOf_setLo]
  rfl

/-- The count of a trigger is a multiple of 8 (R249). -/
theorem triggerCount_dvd {s : State} (h : s.cfg.wf) (v : Half) : triggerCount v s % 8 = 0 := by
  have hm : s.cfg.arCntLoWmask &&& 0x0007#16 = 0 := h.2.1
  have h2 : (v &&& s.cfg.arCntLoWmask).toNat % 8 = 0 := by
    have e : (v &&& s.cfg.arCntLoWmask) &&& 0x0007#16 = 0 := by rw [BitVec.and_assoc, hm]; exact BitVec.and_zero
    have e2 := congrArg BitVec.toNat e
    rw [BitVec.toNat_and] at e2
    simpa [Nat.and_two_pow_sub_one_eq_mod _ 3] using e2
  rw [triggerCount, countOf_toNat, setLo_toNat]
  omega

theorem triggerCount_lt (v : Half) (s : State) : triggerCount v s < 2 ^ 31 := (countOf _).isLt

/-- A legal count is below 64 MB. -/
theorem triggerMain_lt (s : State) : (triggerMain s).toNat < 2 ^ 26 := by
  rw [triggerMain, BitVec.toNat_and]
  exact Nat.lt_of_le_of_lt Nat.and_le_right (by decide)

theorem triggerAux_lt (s : State) : (triggerAux s).toNat < 2 ^ 26 := by
  rw [triggerAux, BitVec.toNat_and]
  exact Nat.lt_of_le_of_lt Nat.and_le_right (by decide)

/-- The loop touches the two memories, the three registers it advances, the log and the model's answer fields. -/
theorem granules_frame {bus dir : Bool} {n : Nat} {s t : State} (h : granules (granuleOp bus dir) n s = .ok t) :
    ∃ m a l x d mm ar c, t = { s with
      mem := m, aram := a, log := s.log ++ l, answers := x, draws := d, arMm := mm, arAr := ar, arCnt := c } := by
  refine granules_keep (g := granuleOp bus dir)
    (fun t => ∃ m a l x d mm ar c, t = { s with
      mem := m, aram := a, log := s.log ++ l, answers := x, draws := d, arMm := mm, arAr := ar, arCnt := c })
    ?_ ⟨s.mem, s.aram, [], s.answers, s.draws, s.arMm, s.arAr, s.arCnt, by simp⟩ h
  rintro u w ⟨m, a, l, x, d, mm, ar, c, rfl⟩ hu
  obtain ⟨m', a', l', x', d', hw⟩ := granuleOp_of_mapped bus dir (granuleOp_mapped hu)
  rw [hw] at hu
  exact ⟨m', a', l ++ l', x', d', _, _, _, by rw [← Except.ok.inj hu, List.append_assoc]⟩

/-- Everything a trigger that completes can do. -/
theorem wrArCntLo_frame {v : Half} {s t : State} (h : wrArCntLo v s = .ok t) :
    ∃ m a l x d mm ar c, t = { s with
      mem := m, aram := a, log := s.log ++ l, answers := x, draws := d, arMm := mm, arAr := ar, arCnt := c
      ctrl := s.ctrl ||| 0x0200#16
      line := lineOf (s.ctrl ||| 0x0200#16)
      pending := s.pending ++ [⟨.aramInt, s.now + triggerCount v s / 32 * 246, .emu, s.nextSeq⟩]
      nextSeq := s.nextSeq + 1 } := by
  rw [wrArCntLo_eq] at h
  split at h
  · rw [aramArm_eq] at h
    exact ⟨s.mem, s.aram, _, s.answers, s.draws, _, _, _, (Except.ok.inj h).symm⟩
  · obtain ⟨m, a, l, x, d, mm, ar, c, rfl⟩ := granules_frame h
    rw [aramArm_eq]
    simp only [List.append_assoc]
    exact ⟨m, a, _, x, d, mm, ar, c, rfl⟩

/-- A trigger faults only as a main-memory access does. -/
theorem wrArCntLo_fault {v : Half} {s : State} {f : Fault} (h : wrArCntLo v s = .error f) : ∃ a n, f = .mainUnmapped a n := by
  rw [wrArCntLo_eq] at h
  split at h
  · cases h
  · refine granules_error_from (F := fun f => ∃ a n, f = .mainUnmapped a n) (fun u f hu => ?_) h
    cases hm : mainMap u.cfg u.arMm 8
    · rw [granuleOp_of_unmapped _ _ hm] at hu
      exact ⟨_, _, (Except.error.inj hu).symm⟩
    · obtain ⟨m, a, l, x, d, hw⟩ := granuleOp_of_mapped _ _ hm
      rw [hw] at hu
      cases hu

end Sys2Proof.Machine
end

