-- ==== Sys2Proof/Laws/Bus.lean ====
section
/-! SUPPORT. Register accesses by offset: what a read can touch, what a write can touch, and the two halves of a 32-bit access (spec
40_register_bank.md R155 to R157). -/

namespace Sys2Proof.Machine

/-! ## Reads -/

/-- One slice, with a cycle-stepped core and a budget above 72 (44_mailbox.md R276). -/
theorem sliceAccount_step {s : State} (h : s.cfg.coreCycleStepped = true ∧ 72 < s.dspSlice) :
    sliceAccount s = { s with
      dspSlice := s.dspSlice - 72
      log := s.log ++ [.coreIsCycleStepped s.cfg.coreCycleStepped, .coreUpdate 72] } := by
  have h' : s.cfg.coreCycleStepped = true ∧ (mailSlice : Int) < s.dspSlice := h
  simp only [sliceAccount]
  rw [if_pos h']
  simp only [State.record, List.append_assoc, List.cons_append, List.nil_append]
  rfl

/-- No slice otherwise. -/
theorem sliceAccount_none {s : State} (h : ¬(s.cfg.coreCycleStepped = true ∧ 72 < s.dspSlice)) :
    sliceAccount s = { s with log := s.log ++ [.coreIsCycleStepped s.cfg.coreCycleStepped] } := by
  have h' : ¬(s.cfg.coreCycleStepped = true ∧ (mailSlice : Int) < s.dspSlice) := h
  simp only [sliceAccount]
  rw [if_neg h']
  rfl

/-- The slice account touches the budget and the log. -/
theorem sliceAccount_frame (s : State) : ∃ d l, sliceAccount s = { s with dspSlice := d, log := s.log ++ l } := by
  by_cases h : s.cfg.coreCycleStepped = true ∧ 72 < s.dspSlice
  · exact ⟨_, _, sliceAccount_step h⟩
  · exact ⟨_, _, sliceAccount_none h⟩

/-- At most one slice of 72 cycles, and only of a budget above it. -/
theorem sliceAccount_dspSlice (s : State) :
    (sliceAccount s).dspSlice = if s.cfg.coreCycleStepped = true ∧ 72 < s.dspSlice then s.dspSlice - 72 else s.dspSlice := by
  split
  · rw [sliceAccount_step (by assumption)]
  · rw [sliceAccount_none (by assumption)]

/-- A 16-bit read touches the budget, the log and the model's answer fields. -/
theorem read16_frame (off : Half) (s : State) :
    ∃ c l x d, (read16 off s).2 = { s with dspSlice := c, log := s.log ++ l, answers := x, draws := d } := by
  have core (half : MailHalf) (box : MailBox) (u : State) : (coreReadMailbox half box u).2 = { u with
      log := u.log ++ [.coreReadMailbox half box (coreReadMailbox half box u).1]
      answers := (afterAnswer u).answers, draws := (afterAnswer u).draws } := by
    simp only [coreReadMailbox]
    rw [afterAnswer_eq u]
    rfl
  have ctl : (rdCtrl s).2 = { s with
      log := s.log ++ [.coreReadControl (coreReadControl s).1]
      answers := (afterAnswer s).answers, draws := (afterAnswer s).draws } := by
    simp only [rdCtrl, coreReadControl]
    rw [afterAnswer_eq s]
    rfl
  unfold read16
  split
  case h_2 | h_4 =>
    obtain ⟨c, l, hs⟩ := sliceAccount_frame s
    simp only [rdMboxToHi, rdMboxFromHi, core]
    rw [hs]
    exact ⟨c, _, _, _, by rw [List.append_assoc]⟩
  case h_3 | h_5 => exact ⟨s.dspSlice, _, _, _, core ..⟩
  case h_6 => exact ⟨s.dspSlice, _, _, _, ctl⟩
  all_goals exact ⟨s.dspSlice, [], s.answers, s.draws, by simp only [List.append_nil]; rfl⟩

/-- A 16-bit read moves the budget only at the two high mailbox halves, and then by at most one slice. -/
theorem read16_dspSlice (off : Half) (s : State) :
    (read16 off s).2.dspSlice = if off = 0x5000 ∨ off = 0x5004 then (sliceAccount s).dspSlice else s.dspSlice := by
  unfold read16
  split
  case h_2 h =>
    rw [← Reg.offset_of_ofOffset h]
    simp [rdMboxToHi, coreReadMailbox, Reg.offset]
  case h_4 h =>
    rw [← Reg.offset_of_ofOffset h]
    simp [rdMboxFromHi, coreReadMailbox, Reg.offset]
  case h_1 h =>
    rw [if_neg]
    · rfl
    · rintro (rfl | rfl) <;> cases h
  all_goals
    rename_i h
    rw [← Reg.offset_of_ofOffset h, if_neg (by decide)]
    first | rfl | simp [rdMboxToLo, rdMboxFromLo, rdCtrl, coreReadMailbox, coreReadControl]

/-! ## Writes -/

/-- What a write without a rule of its own beyond its register can touch: the plain registers, within their masks, and the log. -/
structure PlainWrite (s t : State) : Prop where
  frame : ∃ i r mm ar c au l, t = { s with
    arInfo := i, arRefresh := r, arMm := mm, arAr := ar, arCnt := c, auSrc := au, log := s.log ++ l }
  legal : s.RegsLegal → t.RegsLegal

theorem PlainWrite.refl (s : State) : PlainWrite s s :=
  ⟨⟨s.arInfo, s.arRefresh, s.arMm, s.arAr, s.arCnt, s.auSrc, [], by simp⟩, id⟩

theorem PlainWrite.trans {s t u : State} (h : PlainWrite s t) (h' : PlainWrite t u) : PlainWrite s u := by
  refine ⟨?_, h'.legal ∘ h.legal⟩
  obtain ⟨i, r, mm, ar, c, au, l, rfl⟩ := h.frame
  obtain ⟨i', r', mm', ar', c', au', l', rfl⟩ := h'.frame
  exact ⟨i', r', mm', ar', c', au', l ++ l', by simp⟩

/-- The three offsets whose writes do more than store: ControlRegister, the trigger, the audio control register. -/
def specialWrite (off : Half) : Bool := off == 0x500A || off == 0x502A || off == 0x5036

/-- Every other write completes and is plain. -/
theorem write16_plain {off : Half} (v : Half) (s : State) (h : specialWrite off = false) :
    ∃ t, write16 off v s = .ok t ∧ PlainWrite s t := by
  unfold write16
  split
  case h_6 h' => rw [← Reg.offset_of_ofOffset h'] at h; cases h
  case h_15 h' => rw [← Reg.offset_of_ofOffset h'] at h; cases h
  case h_18 h' => rw [← Reg.offset_of_ofOffset h'] at h; cases h
  case h_2 | h_3 | h_4 | h_5 | h_8 | h_19 => exact ⟨_, rfl, ⟨_, _, _, _, _, _, [_], rfl⟩, id⟩
  case h_1 => exact ⟨_, rfl, PlainWrite.refl s⟩
  case h_7 => exact ⟨_, rfl, ⟨_, _, _, _, _, _, [], by simp only [List.append_nil]; rfl⟩, fun h => legal_arInfo h v⟩
  case h_9 => exact ⟨_, rfl, ⟨_, _, _, _, _, _, [], by simp only [List.append_nil]; rfl⟩, id⟩
  case h_10 => exact ⟨_, rfl, ⟨_, _, _, _, _, _, [], by simp only [List.append_nil]; rfl⟩, fun h => legal_arMmHi h v⟩
  case h_11 => exact ⟨_, rfl, ⟨_, _, _, _, _, _, [], by simp only [List.append_nil]; rfl⟩, fun h => legal_arMmLo h v⟩
  case h_12 => exact ⟨_, rfl, ⟨_, _, _, _, _, _, [], by simp only [List.append_nil]; rfl⟩, fun h => legal_arArHi h v⟩
  case h_13 => exact ⟨_, rfl, ⟨_, _, _, _, _, _, [], by simp only [List.append_nil]; rfl⟩, fun h => legal_arArLo h v⟩
  case h_14 => exact ⟨_, rfl, ⟨_, _, _, _, _, _, [], by simp only [List.append_nil]; rfl⟩, fun h => legal_arCntHi h v⟩
  case h_16 => exact ⟨_, rfl, ⟨_, _, _, _, _, _, [], by simp only [List.append_nil]; rfl⟩, fun h => legal_auSrcHi h v⟩
  case h_17 => exact ⟨_, rfl, ⟨_, _, _, _, _, _, [], by simp only [List.append_nil]; rfl⟩, fun h => legal_auSrcLo h v⟩

/-! ## 32-bit writes -/

/-- A multiple of 4 is none of the three special offsets. -/
theorem specialWrite_wide {off : Half} (h : wideOffset off = true) : specialWrite off = false := by
  cases hs : specialWrite off
  · rfl
  · simp only [specialWrite, Bool.or_eq_true, beq_iff_eq] at hs
    rcases hs with (rfl | rfl) | rfl <;> cases h

theorem add_two_eq {off k : Half} (h : off + 2 = k) : off = k - 2 := by
  rw [← h, BitVec.add_sub_cancel]

/-- The pair whose low half is ControlRegister. -/
theorem write32_ctrl (d : Word) (s : State) : write32 0x5008 d s = wrCtrl (loHalf d) s := rfl

/-- The pair whose low half triggers: the high half is stored first. -/
theorem write32_arCnt (d : Word) (s : State) :
    write32 0x5028 d s = wrArCntLo (loHalf d) { s with arCnt := setHi s.arCnt (hiHalf d &&& arCntHiWmask) } := rfl

/-- The pair whose low half is the audio control register. -/
theorem write32_auCtl (d : Word) (s : State) : write32 0x5034 d s = wrAuCtl (loHalf d) s := rfl

/-- Every other pair completes and is plain. -/
theorem write32_plain {off : Half} (d : Word) (s : State) (h : wideOffset off = true) (h1 : off ≠ 0x5008) (h2 : off ≠ 0x5028)
    (h3 : off ≠ 0x5034) : ∃ t, write32 off d s = .ok t ∧ PlainWrite s t := by
  have hs : specialWrite (off + 2) = false := by
    cases hs : specialWrite (off + 2)
    · rfl
    · simp only [specialWrite, Bool.or_eq_true, beq_iff_eq] at hs
      rcases hs with (hs | hs) | hs
      · exact absurd (add_two_eq hs) h1
      · exact absurd (add_two_eq hs) h2
      · exact absurd (add_two_eq hs) h3
  obtain ⟨t, ht, hp⟩ := write16_plain (hiHalf d) s (specialWrite_wide h)
  obtain ⟨u, hu, hp'⟩ := write16_plain (loHalf d) t hs
  exact ⟨u, by simp only [write32, ht, hu], hp.trans hp'⟩

/-- A ControlRegister write that completes touches the register, the line, the log and the model's answer fields. -/
theorem wrCtrl_eq (v : Half) (s : State) :
    wrCtrl v s = .ok { s with
      ctrl := ctrlWritten s.ctrl v
      line := lineOf (ctrlWritten s.ctrl v)
      log := s.log ++ ([.coreWriteControl v (BitVec.ofNat 16 (nextAnswer s))] ++
        (if padAnomaly v then [.configurationAnomaly v] else []) ++ [.setLine (lineOf (ctrlWritten s.ctrl v))])
      answers := (afterAnswer s).answers
      draws := (afterAnswer s).draws } := by
  unfold wrCtrl coreWriteControl
  cases padAnomaly v
  · simp only [Bool.false_eq_true, if_false, updateLine, State.record, afterAnswer_ctrl]
    rw [afterAnswer_eq s]
    simp
  · simp only [if_true, updateLine, State.record, afterAnswer_ctrl]
    rw [afterAnswer_eq s]
    simp

end Sys2Proof.Machine
end

