-- ==== Sys2Proof/Laws/PerInstr.lean ====
section
/-! SUPPORT. Per instruction: the key of an encoding has the match word of its row of spec/opcode_table.json under the row's mask. -/

namespace Sys2Proof.Laws.KeyMatchesRow

/-- The match word and the mask of an instruction's row of the opcode table. -/
def row : Instr → BitVec 24 × BitVec 24
  | .rd16MboxToHi => (0x05000, 0x7FFFF)
  | .wr16MboxToHi _ => (0x15000, 0x7FFFF)
  | .rd16MboxToLo => (0x05002, 0x7FFFF)
  | .wr16MboxToLo _ => (0x15002, 0x7FFFF)
  | .rd16MboxFromHi => (0x05004, 0x7FFFF)
  | .wr16MboxFromHi _ => (0x15004, 0x7FFFF)
  | .rd16MboxFromLo => (0x05006, 0x7FFFF)
  | .wr16MboxFromLo _ => (0x15006, 0x7FFFF)
  | .rd16Ctrl => (0x0500A, 0x7FFFF)
  | .wr16Ctrl _ => (0x1500A, 0x7FFFF)
  | .rd16ArInfo => (0x05012, 0x7FFFF)
  | .wr16ArInfo _ => (0x15012, 0x7FFFF)
  | .rd16ArMode => (0x05016, 0x7FFFF)
  | .wr16ArMode _ => (0x15016, 0x7FFFF)
  | .rd16ArRefresh => (0x0501A, 0x7FFFF)
  | .wr16ArRefresh _ => (0x1501A, 0x7FFFF)
  | .rd16ArMmHi => (0x05020, 0x7FFFF)
  | .wr16ArMmHi _ => (0x15020, 0x7FFFF)
  | .rd16ArMmLo => (0x05022, 0x7FFFF)
  | .wr16ArMmLo _ => (0x15022, 0x7FFFF)
  | .rd16ArArHi => (0x05024, 0x7FFFF)
  | .wr16ArArHi _ => (0x15024, 0x7FFFF)
  | .rd16ArArLo => (0x05026, 0x7FFFF)
  | .wr16ArArLo _ => (0x15026, 0x7FFFF)
  | .rd16ArCntHi => (0x05028, 0x7FFFF)
  | .wr16ArCntHi _ => (0x15028, 0x7FFFF)
  | .rd16ArCntLo => (0x0502A, 0x7FFFF)
  | .wr16ArCntLo _ => (0x1502A, 0x7FFFF)
  | .rd16AuSrcHi => (0x05030, 0x7FFFF)
  | .wr16AuSrcHi _ => (0x15030, 0x7FFFF)
  | .rd16AuSrcLo => (0x05032, 0x7FFFF)
  | .wr16AuSrcLo _ => (0x15032, 0x7FFFF)
  | .rd16AuCtl => (0x05036, 0x7FFFF)
  | .wr16AuCtl _ => (0x15036, 0x7FFFF)
  | .rd16AuLeft => (0x0503A, 0x7FFFF)
  | .wr16AuLeft _ => (0x1503A, 0x7FFFF)
  | .rd16Unmapped _ => (0x00000, 0x70000)
  | .wr16Unmapped _ _ => (0x10000, 0x70000)
  | .rd32 _ => (0x20000, 0x70000)
  | .wr32 _ _ => (0x30000, 0x70000)
  | .tick => (0x40001, 0x7FFFF)
  | .fireDspint _ => (0x40002, 0x7FFFF)
  | .fireAramint _ => (0x40003, 0x7FFFF)
  | .coreIrq _ _ => (0x40004, 0x7FFFF)
  | .sliceCredit _ => (0x40005, 0x7FFFF)
  | .advance _ => (0x40006, 0x7FFFF)
  | .init => (0x40007, 0x7FFFF)
  | .shutdown => (0x40008, 0x7FFFF)
  | .snapshot => (0x40009, 0x7FFFF)
  | .restore _ _ => (0x4000A, 0x7FFFF)

/-- The key of the encoding, under the row's mask, is the row's match word. -/
def Statement (i : Instr) : Prop := (encode i).word &&& (row i).2 = (row i).1

/-- Under a row's class and write mask, a key is its class and write bits. -/
theorem keyWord_mask (c : BitVec 7) (w : Bool) (off : Half) :
    keyWord c w off &&& 0x70000#24 = keyWord (c &&& 3) w 0 := by
  have h : (0x70000#24) = (3#7 ++ 1#1) ++ 0#16 := by decide
  have hw : BitVec.ofBool w &&& 1#1 = BitVec.ofBool w := by cases w <;> decide
  unfold keyWord
  rw [h, BitVec.and_append, BitVec.and_append, hw]
  congr 1
  exact BitVec.and_zero

theorem rd16MboxToHi : Statement .rd16MboxToHi := by
  show keyWord 0 false 0x5000 &&& 0x7FFFF = 0x05000
  decide
theorem wr16MboxToHi (v : Half) : Statement (.wr16MboxToHi v) := by
  show keyWord 0 true 0x5000 &&& 0x7FFFF = 0x15000
  decide
theorem rd16MboxToLo : Statement .rd16MboxToLo := by
  show keyWord 0 false 0x5002 &&& 0x7FFFF = 0x05002
  decide
theorem wr16MboxToLo (v : Half) : Statement (.wr16MboxToLo v) := by
  show keyWord 0 true 0x5002 &&& 0x7FFFF = 0x15002
  decide
theorem rd16MboxFromHi : Statement .rd16MboxFromHi := by
  show keyWord 0 false 0x5004 &&& 0x7FFFF = 0x05004
  decide
theorem wr16MboxFromHi (v : Half) : Statement (.wr16MboxFromHi v) := by
  show keyWord 0 true 0x5004 &&& 0x7FFFF = 0x15004
  decide
theorem rd16MboxFromLo : Statement .rd16MboxFromLo := by
  show keyWord 0 false 0x5006 &&& 0x7FFFF = 0x05006
  decide
theorem wr16MboxFromLo (v : Half) : Statement (.wr16MboxFromLo v) := by
  show keyWord 0 true 0x5006 &&& 0x7FFFF = 0x15006
  decide
theorem rd16Ctrl : Statement .rd16Ctrl := by
  show keyWord 0 false 0x500A &&& 0x7FFFF = 0x0500A
  decide
theorem wr16Ctrl (v : Half) : Statement (.wr16Ctrl v) := by
  show keyWord 0 true 0x500A &&& 0x7FFFF = 0x1500A
  decide
theorem rd16ArInfo : Statement .rd16ArInfo := by
  show keyWord 0 false 0x5012 &&& 0x7FFFF = 0x05012
  decide
theorem wr16ArInfo (v : Half) : Statement (.wr16ArInfo v) := by
  show keyWord 0 true 0x5012 &&& 0x7FFFF = 0x15012
  decide
theorem rd16ArMode : Statement .rd16ArMode := by
  show keyWord 0 false 0x5016 &&& 0x7FFFF = 0x05016
  decide
theorem wr16ArMode (v : Half) : Statement (.wr16ArMode v) := by
  show keyWord 0 true 0x5016 &&& 0x7FFFF = 0x15016
  decide
theorem rd16ArRefresh : Statement .rd16ArRefresh := by
  show keyWord 0 false 0x501A &&& 0x7FFFF = 0x0501A
  decide
theorem wr16ArRefresh (v : Half) : Statement (.wr16ArRefresh v) := by
  show keyWord 0 true 0x501A &&& 0x7FFFF = 0x1501A
  decide
theorem rd16ArMmHi : Statement .rd16ArMmHi := by
  show keyWord 0 false 0x5020 &&& 0x7FFFF = 0x05020
  decide
theorem wr16ArMmHi (v : Half) : Statement (.wr16ArMmHi v) := by
  show keyWord 0 true 0x5020 &&& 0x7FFFF = 0x15020
  decide
theorem rd16ArMmLo : Statement .rd16ArMmLo := by
  show keyWord 0 false 0x5022 &&& 0x7FFFF = 0x05022
  decide
theorem wr16ArMmLo (v : Half) : Statement (.wr16ArMmLo v) := by
  show keyWord 0 true 0x5022 &&& 0x7FFFF = 0x15022
  decide
theorem rd16ArArHi : Statement .rd16ArArHi := by
  show keyWord 0 false 0x5024 &&& 0x7FFFF = 0x05024
  decide
theorem wr16ArArHi (v : Half) : Statement (.wr16ArArHi v) := by
  show keyWord 0 true 0x5024 &&& 0x7FFFF = 0x15024
  decide
theorem rd16ArArLo : Statement .rd16ArArLo := by
  show keyWord 0 false 0x5026 &&& 0x7FFFF = 0x05026
  decide
theorem wr16ArArLo (v : Half) : Statement (.wr16ArArLo v) := by
  show keyWord 0 true 0x5026 &&& 0x7FFFF = 0x15026
  decide
theorem rd16ArCntHi : Statement .rd16ArCntHi := by
  show keyWord 0 false 0x5028 &&& 0x7FFFF = 0x05028
  decide
theorem wr16ArCntHi (v : Half) : Statement (.wr16ArCntHi v) := by
  show keyWord 0 true 0x5028 &&& 0x7FFFF = 0x15028
  decide
theorem rd16ArCntLo : Statement .rd16ArCntLo := by
  show keyWord 0 false 0x502A &&& 0x7FFFF = 0x0502A
  decide
theorem wr16ArCntLo (v : Half) : Statement (.wr16ArCntLo v) := by
  show keyWord 0 true 0x502A &&& 0x7FFFF = 0x1502A
  decide
theorem rd16AuSrcHi : Statement .rd16AuSrcHi := by
  show keyWord 0 false 0x5030 &&& 0x7FFFF = 0x05030
  decide
theorem wr16AuSrcHi (v : Half) : Statement (.wr16AuSrcHi v) := by
  show keyWord 0 true 0x5030 &&& 0x7FFFF = 0x15030
  decide
theorem rd16AuSrcLo : Statement .rd16AuSrcLo := by
  show keyWord 0 false 0x5032 &&& 0x7FFFF = 0x05032
  decide
theorem wr16AuSrcLo (v : Half) : Statement (.wr16AuSrcLo v) := by
  show keyWord 0 true 0x5032 &&& 0x7FFFF = 0x15032
  decide
theorem rd16AuCtl : Statement .rd16AuCtl := by
  show keyWord 0 false 0x5036 &&& 0x7FFFF = 0x05036
  decide
theorem wr16AuCtl (v : Half) : Statement (.wr16AuCtl v) := by
  show keyWord 0 true 0x5036 &&& 0x7FFFF = 0x15036
  decide
theorem rd16AuLeft : Statement .rd16AuLeft := by
  show keyWord 0 false 0x503A &&& 0x7FFFF = 0x0503A
  decide
theorem wr16AuLeft (v : Half) : Statement (.wr16AuLeft v) := by
  show keyWord 0 true 0x503A &&& 0x7FFFF = 0x1503A
  decide
theorem rd16Unmapped (off : Half) : Statement (.rd16Unmapped off) := keyWord_mask _ false off
theorem wr16Unmapped (off : Half) (v : Half) : Statement (.wr16Unmapped off v) := keyWord_mask _ true off
theorem rd32 (off : Half) : Statement (.rd32 off) := keyWord_mask _ false off
theorem wr32 (off : Half) (d : Word) : Statement (.wr32 off d) := keyWord_mask _ true off
theorem tick : Statement .tick := by
  show keyWord 2 false 0x0001 &&& 0x7FFFF = 0x40001
  decide
theorem fireDspint (seq : Nat) : Statement (.fireDspint seq) := by
  show keyWord 2 false 0x0002 &&& 0x7FFFF = 0x40002
  decide
theorem fireAramint (seq : Nat) : Statement (.fireAramint seq) := by
  show keyWord 2 false 0x0003 &&& 0x7FFFF = 0x40003
  decide
theorem coreIrq (delay : Nat) (kinds : KindSet) : Statement (.coreIrq delay kinds) := by
  show keyWord 2 false 0x0004 &&& 0x7FFFF = 0x40004
  decide
theorem sliceCredit (n : Nat) : Statement (.sliceCredit n) := by
  show keyWord 2 false 0x0005 &&& 0x7FFFF = 0x40005
  decide
theorem advance (t : Nat) : Statement (.advance t) := by
  show keyWord 2 false 0x0006 &&& 0x7FFFF = 0x40006
  decide
theorem init : Statement .init := by
  show keyWord 2 false 0x0007 &&& 0x7FFFF = 0x40007
  decide
theorem shutdown : Statement .shutdown := by
  show keyWord 2 false 0x0008 &&& 0x7FFFF = 0x40008
  decide
theorem snapshot : Statement .snapshot := by
  show keyWord 2 false 0x0009 &&& 0x7FFFF = 0x40009
  decide
theorem restore (snap : Snapshot) (queue : List Entry) : Statement (.restore snap queue) := by
  show keyWord 2 false 0x000A &&& 0x7FFFF = 0x4000A
  decide

end Sys2Proof.Laws.KeyMatchesRow
end

