-- ==== Sys2Proof/Laws/Reply.lean ====
section
/-! SUPPORT. No register access looks at the reply of the step before: it can be set before the access or after it.  This is what joins
the two halves of a 32-bit access (spec 40_register_bank.md R155, R156). -/

namespace Sys2Proof.Machine

/-- An operation that does not look at the reply. -/
def ReplyBlind (op : State → Except Fault State) : Prop :=
  ∀ s r, op (s.replied r) = (op s).map fun t => t.replied r

theorem replyBlind_granuleToAram (m : Word) (a : Nat) : ReplyBlind (granuleToAram m a) := by
  intro s r
  unfold granuleToAram
  cases h : mainMap s.cfg m 8
  · simp only [granuleBytes, memRead_of_unmapped h, memRead_of_unmapped (s := s.replied r) h]
    rfl
  · simp only [granuleBytes, memRead_of_mapped h, memRead_of_mapped (s := s.replied r) h]
    rfl

theorem afterAnswer_replied (s : State) (r : Reply) : afterAnswer (s.replied r) = (afterAnswer s).replied r := by
  unfold afterAnswer
  rw [show (s.replied r).answers = s.answers from rfl]
  cases s.answers <;> rfl

theorem replyBlind_mirrorGranule : ReplyBlind mirrorGranule := by
  intro s r
  unfold mirrorGranule
  by_cases hc : mirrors s.arInfo = true ∧ s.arAr.toNat < mirrorLimit
  · rw [if_pos hc, if_pos (show mirrors (s.replied r).arInfo = true ∧ (s.replied r).arAr.toNat < mirrorLimit from hc)]
    exact replyBlind_granuleToAram _ _ s r
  · rw [if_neg hc, if_neg (show ¬(mirrors (s.replied r).arInfo = true ∧ (s.replied r).arAr.toNat < mirrorLimit) from hc)]
    rfl

theorem replyBlind_mainToAram : ReplyBlind mainToAram := by
  intro s r
  unfold mainToAram
  rw [replyBlind_mirrorGranule s r]
  cases mirrorGranule s with
  | error f => rfl
  | ok t =>
    simp only [Except.map]
    rw [show granuleToAram (s.replied r).arMm (s.replied r).arAr.toNat (t.replied r) =
      (granuleToAram s.arMm s.arAr.toNat t).map (fun t => t.replied r) from replyBlind_granuleToAram _ _ t r]
    cases granuleToAram s.arMm s.arAr.toNat t <;> rfl

theorem replyBlind_granuleOp (bus dir : Bool) : ReplyBlind (granuleOp bus dir) := by
  intro s r
  cases h : mainMap s.cfg s.arMm 8
  · rw [granuleOp_of_unmapped _ _ h, granuleOp_of_unmapped _ _ (s := s.replied r) h]
    rfl
  · cases bus <;> cases dir
    · exact replyBlind_mainToAram s r
    · rw [granuleOp, aramToMain_of_mapped h, aramToMain_of_mapped (s := s.replied r) h]
      rfl
    · rw [granuleOp, mainToAux_of_mapped h, mainToAux_of_mapped (s := s.replied r) h]
      rfl
    · rw [granuleOp, auxToMain_of_mapped h, auxToMain_of_mapped (s := s.replied r) h, afterAnswer_replied]
      rfl

theorem replyBlind_granules {g : State → Except Fault State} (hg : ReplyBlind g) (n : Nat) : ReplyBlind (granules g n) := by
  intro s r
  induction n generalizing s with
  | zero => rfl
  | succ n ih =>
    rw [granules, granules, hg]
    cases g s with
    | error f => rfl
    | ok t => exact ih t

theorem replyBlind_wrArCntLo (v : Half) : ReplyBlind (wrArCntLo v) := by
  intro s r
  rw [wrArCntLo_eq, wrArCntLo_eq, show aramArm v (s.replied r) = (aramArm v s).replied r by rw [aramArm_eq, aramArm_eq]; rfl]
  by_cases hc : s.cfg.aramSize ≤ (triggerAux s).toNat ∧ s.cfg.unified = true
  · rw [if_pos hc, if_pos (by exact hc)]
    rfl
  · rw [if_neg hc, if_neg (by exact hc)]
    exact replyBlind_granules (replyBlind_granuleOp _ _) _ _ _

theorem replyBlind_auPush : ReplyBlind auPush := by
  intro s r
  by_cases h0 : numBlocks s.auCtl = 0
  · rw [auPush_of_empty h0, auPush_of_empty (s := s.replied r) h0]
    rfl
  · cases h : mainMap s.cfg s.auSrc ((numBlocks s.auCtl).toNat * blockBytes)
    · rw [auPush_of_unmapped h0 h, auPush_of_unmapped (s := s.replied r) h0 h]
      rfl
    · rw [auPush_of_mapped h0 h, auPush_of_mapped (s := s.replied r) h0 h]
      rfl

theorem replyBlind_wrAuCtl (v : Half) : ReplyBlind (wrAuCtl v) := by
  intro s r
  unfold wrAuCtl
  rw [show (s.replied r).auCtl = s.auCtl from rfl]
  split
  · unfold audioStart
    rw [show auPush (auReload { (s.replied r) with auCtl := v }) =
      (auPush (auReload { s with auCtl := v })).map (fun t => t.replied r) from
      replyBlind_auPush (auReload { s with auCtl := v }) r]
    cases auPush (auReload { s with auCtl := v }) <;> rfl
  · rfl

theorem replyBlind_wrCtrl (v : Half) : ReplyBlind (wrCtrl v) := by
  intro s r
  rw [wrCtrl_eq, wrCtrl_eq, afterAnswer_replied]
  rfl

/-- No 16-bit write looks at the reply. -/
theorem replyBlind_write16 (off v : Half) : ReplyBlind (write16 off v) := by
  intro s r
  unfold write16
  split
  case h_6 => exact replyBlind_wrCtrl v s r
  case h_15 => exact replyBlind_wrArCntLo v s r
  case h_18 => exact replyBlind_wrAuCtl v s r
  all_goals rfl

/-- No read of a mailbox half looks at the reply. -/
theorem coreReadMailbox_replied (half : MailHalf) (box : MailBox) (s : State) (r : Reply) :
    coreReadMailbox half box (s.replied r) = ((coreReadMailbox half box s).1, (coreReadMailbox half box s).2.replied r) := by
  simp only [coreReadMailbox, afterAnswer_replied]
  rfl

theorem sliceAccount_replied (s : State) (r : Reply) : sliceAccount (s.replied r) = (sliceAccount s).replied r := by
  by_cases h : s.cfg.coreCycleStepped = true ∧ 72 < s.dspSlice
  · rw [sliceAccount_step h, sliceAccount_step (s := s.replied r) h]
    rfl
  · rw [sliceAccount_none h, sliceAccount_none (s := s.replied r) h]
    rfl

/-- No 16-bit read looks at the reply. -/
theorem read16_replied (off : Half) (s : State) (r : Reply) :
    read16 off (s.replied r) = ((read16 off s).1, (read16 off s).2.replied r) := by
  unfold read16
  split
  case h_2 | h_4 => simp only [rdMboxToHi, rdMboxFromHi, sliceAccount_replied, coreReadMailbox_replied]
  case h_3 | h_5 => exact coreReadMailbox_replied _ _ s r
  case h_6 =>
    simp only [rdCtrl, coreReadControl, afterAnswer_replied]
    rfl
  all_goals rfl

end Sys2Proof.Machine
end

