-- ==== Sys2Proof/Laws/Step.lean ====
section
/-! SUPPORT. Said once: what an instruction that answers a next state can have done.  A claim over all instructions is a case
analysis of `exec_effect`. -/

namespace Sys2Proof.Machine

/-- The rows whose effect is a value returned, plain registers and records: every read, and every write that is not a
ControlRegister write, a trigger, or a write of the audio control register. -/
def plainRow : Instr → Bool
  | .rd16MboxToHi | .rd16MboxToLo | .rd16MboxFromHi | .rd16MboxFromLo | .rd16Ctrl | .rd16ArInfo | .rd16ArMode | .rd16ArRefresh
  | .rd16ArMmHi | .rd16ArMmLo | .rd16ArArHi | .rd16ArArLo | .rd16ArCntHi | .rd16ArCntLo | .rd16AuSrcHi | .rd16AuSrcLo
  | .rd16AuCtl | .rd16AuLeft | .rd16Unmapped _ | .rd32 _ => true
  | .wr16MboxToHi _ | .wr16MboxToLo _ | .wr16MboxFromHi _ | .wr16MboxFromLo _ | .wr16ArInfo _ | .wr16ArMode _
  | .wr16ArRefresh _ | .wr16ArMmHi _ | .wr16ArMmLo _ | .wr16ArArHi _ | .wr16ArArLo _ | .wr16ArCntHi _ | .wr16AuSrcHi _
  | .wr16AuSrcLo _ | .wr16AuLeft _ | .wr16Unmapped _ _ => true
  | .wr32 off _ => !(off == 0x5008 || off == 0x5028 || off == 0x5034)
  | .wr16Ctrl _ | .wr16ArCntLo _ | .wr16AuCtl _ => false
  | .tick | .fireDspint _ | .fireAramint _ | .coreIrq _ _ | .sliceCredit _ | .advance _ | .init | .shutdown | .snapshot
  | .restore _ _ => false

/-- The rows that can account a slice: the reads of a high mailbox half. -/
def budgetRow (i : Instr) : Prop := i = .rd16MboxToHi ∨ i = .rd16MboxFromHi ∨ i = .rd32 0x5000 ∨ i = .rd32 0x5004

/-- The rows that write ControlRegister, with the value. -/
def ctrlRow (i : Instr) (v : Half) : Prop := i = .wr16Ctrl v ∨ ∃ d, i = .wr32 0x5008 d ∧ v = loHalf d

/-- The rows that trigger an ARAM DMA, with the value and the state the trigger meets. -/
def triggerRow (i : Instr) (v : Half) (s u : State) : Prop :=
  (i = .wr16ArCntLo v ∧ u = s) ∨
    ∃ d, i = .wr32 0x5028 d ∧ v = loHalf d ∧ u = { s with arCnt := setHi s.arCnt (hiHalf d &&& arCntHiWmask) }

/-- The rows that write the audio control register, with the value. -/
def auCtlRow (i : Instr) (v : Half) : Prop := i = .wr16AuCtl v ∨ ∃ d, i = .wr32 0x5034 d ∧ v = loHalf d

/-- What an instruction can have done. -/
inductive Effect : Instr → State → State → Prop
  | plain (i : Instr) (s : State) (c : Int) (info r : Half) (mm ar cnt au : Word) (l : List LogEntry) (x : List Nat) (d : Nat)
      (rep : Reply) : plainRow i = true →
      (s.RegsLegal → RegsLegal s.cfg info mm ar cnt au) →
      (c ≠ s.dspSlice → budgetRow i ∧ s.cfg.coreCycleStepped = true ∧ 72 < s.dspSlice ∧ c = s.dspSlice - 72) →
      Effect i s { s with
        dspSlice := c, arInfo := info, arRefresh := r, arMm := mm, arAr := ar, arCnt := cnt, auSrc := au
        log := s.log ++ l, answers := x, draws := d, reply := rep }
  | ctrl (i : Instr) (s : State) (v : Half) (l : List LogEntry) (x : List Nat) (d : Nat) : ctrlRow i v →
      Effect i s { s with
        ctrl := ctrlWritten s.ctrl v, line := lineOf (ctrlWritten s.ctrl v)
        log := s.log ++ l, answers := x, draws := d, reply := .none }
  | trigger (i : Instr) (s u t : State) (v : Half) : triggerRow i v s u → wrArCntLo v u = .ok t → Effect i s (t.replied .none)
  | auCtl (i : Instr) (s t : State) (v : Half) : auCtlRow i v → wrAuCtl v s = .ok t → Effect i s (t.replied .none)
  | tick (s t : State) : tickOp s = .ok t → Effect .tick s (t.replied .none)
  | fireDspint (seq : Nat) (s : State) (e : Entry) (x : List Nat) (d : Nat) : e ∈ s.pending → mayFire .dspInt seq s e →
      Effect (.fireDspint seq) s
        ((raise (payloadKinds e.what) { s with pending := s.pending.erase e, answers := x, draws := d }).replied .none)
  | fireAramint (seq : Nat) (s : State) (e : Entry) (x : List Nat) (d : Nat) : e ∈ s.pending → mayFire .aramInt seq s e →
      Effect (.fireAramint seq) s
        ((raise KindSet.kindB { s with
          pending := s.pending.erase e, ctrl := s.ctrl &&& ~~~dmaActBit, answers := x, draws := d }).replied .none)
  | coreIrq (delay : Nat) (kinds : KindSet) (s : State) : coreMayRaise s.cfg kinds = true →
      Effect (.coreIrq delay kinds) s ((schedule delay (.dspInt kinds) .worker s).replied .none)
  | sliceCredit (n : Nat) (s : State) : Effect (.sliceCredit n) s { s with dspSlice := s.dspSlice + n, reply := .none }
  | advance (n : Nat) (s : State) : s.now ≤ n → Effect (.advance n) s { s with now := n, reply := .none }
  | init (s : State) : s.status = .uninit ∨ s.status = .shut → Effect .init s ((initialised s).replied .none)
  | shutdown (s : State) : Effect .shutdown s { s with
      log := s.log ++ [.coreShutdown], aram := if s.cfg.unified then s.aram else [], pending := [], status := .shut, reply := .none }
  | snapshot (s : State) (x : List Nat) (d : Nat) : Effect .snapshot s { s with
      log := s.log ++ [.coreSave (coreSaved s)], answers := x, draws := d, reply := .snapshot (snapshotOf s) }
  | restore (snap : Snapshot) (queue : List Entry) (s : State) (b : Bool) (x : List Nat) (d : Nat) : shapeOf snap = liveShape s →
      Effect (.restore snap queue) s { loadItems snap s with
        line := lineOf snap.ctrl, log := s.log ++ [.coreRestore snap.core b, .setLine (lineOf snap.ctrl)], pending := queue
        answers := x, draws := d, reply := .none }

/-- A read that leaves the budget, as an effect. -/
theorem Effect.ofRead16 {i : Instr} (off : Half) (s : State) (h : plainRow i = true)
    (hb : off = 0x5000 ∨ off = 0x5004 → budgetRow i) :
    Effect i s ((read16 off s).2.replied (.half (read16 off s).1)) := by
  obtain ⟨c, l, x, d, hr⟩ := read16_frame off s
  have hc : c = (read16 off s).2.dspSlice := by rw [hr]
  have := Effect.plain i s c s.arInfo s.arRefresh s.arMm s.arAr s.arCnt s.auSrc l x d (.half (read16 off s).1) h id (by
    intro hne
    rw [hc, read16_dspSlice, sliceAccount_dspSlice] at hne ⊢
    split at hne
    · split at hne
      · rename_i h1 h2
        exact ⟨hb h1, h2.1, h2.2, by rw [if_pos h1, if_pos h2]⟩
      · exact absurd rfl hne
    · exact absurd rfl hne)
  rw [hr]
  exact this

/-- A plain write, as an effect. -/
theorem Effect.ofPlain {i : Instr} {s t : State} (h : plainRow i = true) (hp : PlainWrite s t) : Effect i s (t.replied .none) := by
  have hl := hp.legal
  obtain ⟨info, r, mm, ar, c, au, l, rfl⟩ := hp.frame
  exact Effect.plain i s s.dspSlice info r mm ar c au l s.answers s.draws .none h hl (fun hne => absurd rfl hne)

theorem Effect.ofRd32 (off : Half) (s : State) (h : wideOffset off = true) :
    Effect (.rd32 off) s ((read16 (off + 2) (read16 off s).2).2.replied
      (.word ((read16 off s).1 ++ (read16 (off + 2) (read16 off s).2).1))) := by
  obtain ⟨c, l, x, d, hr⟩ := read16_frame off s
  obtain ⟨c', l', x', d', hr'⟩ := read16_frame (off + 2) (read16 off s).2
  generalize (read16 off s).1 ++ (read16 (off + 2) (read16 off s).2).1 = w
  have hc : c = (read16 off s).2.dspSlice := by rw [hr]
  have hc' : c' = c := by
    have e : c' = (read16 (off + 2) (read16 off s).2).2.dspSlice := by rw [hr']
    rw [e, read16_dspSlice, if_neg, hc]
    rintro (h2 | h2) <;> rw [add_two_eq h2] at h <;> cases h
  rw [hr', hr]
  simp only [List.append_assoc]
  refine Effect.plain (.rd32 off) s c' s.arInfo s.arRefresh s.arMm s.arAr s.arCnt s.auSrc (l ++ l') x' d' (.word w) rfl id fun hne => ?_
  rw [hc', hc, read16_dspSlice, sliceAccount_dspSlice] at hne ⊢
  split at hne
  · split at hne
    · rename_i h1 h2
      refine ⟨?_, h2.1, h2.2, by rw [if_pos h1, if_pos h2]⟩
      rcases h1 with rfl | rfl
      · exact .inr (.inr (.inl rfl))
      · exact .inr (.inr (.inr rfl))
    · exact absurd rfl hne
  · exact absurd rfl hne

/-- Every well-formed instruction that answers a next state did one of these. -/
theorem exec_effect {i : Instr} {s t : State} (hw : WellFormed i = true) (h : exec i s = .next t) : Effect i s t := by
  cases i with
  | rd16MboxToHi =>
    obtain ⟨-, rfl⟩ := readStep_eq_next.1 h
    exact Effect.ofRead16 0x5000 s rfl (fun _ => .inl rfl)
  | wr16MboxToHi v =>
    obtain ⟨-, u, hu, rfl⟩ := (quietStep_eq_next (op := wrMboxToHi v)).1 h
    obtain ⟨w, hw, hp⟩ := write16_plain (off := 0x5000) v s rfl
    obtain rfl : w = u := Except.ok.inj (hw.symm.trans hu)
    exact Effect.ofPlain rfl hp
  | rd16MboxToLo =>
    obtain ⟨-, rfl⟩ := readStep_eq_next.1 h
    exact Effect.ofRead16 0x5002 s rfl (fun h => by rcases h with h | h <;> cases h)
  | wr16MboxToLo v =>
    obtain ⟨-, u, hu, rfl⟩ := (quietStep_eq_next (op := wrMboxToLo v)).1 h
    obtain ⟨w, hw, hp⟩ := write16_plain (off := 0x5002) v s rfl
    obtain rfl : w = u := Except.ok.inj (hw.symm.trans hu)
    exact Effect.ofPlain rfl hp
  | rd16MboxFromHi =>
    obtain ⟨-, rfl⟩ := readStep_eq_next.1 h
    exact Effect.ofRead16 0x5004 s rfl (fun _ => .inr (.inl rfl))
  | wr16MboxFromHi v =>
    obtain ⟨-, u, hu, rfl⟩ := (quietStep_eq_next (op := wrMboxFromHi v)).1 h
    obtain ⟨w, hw, hp⟩ := write16_plain (off := 0x5004) v s rfl
    obtain rfl : w = u := Except.ok.inj (hw.symm.trans hu)
    exact Effect.ofPlain rfl hp
  | rd16MboxFromLo =>
    obtain ⟨-, rfl⟩ := readStep_eq_next.1 h
    exact Effect.ofRead16 0x5006 s rfl (fun h => by rcases h with h | h <;> cases h)
  | wr16MboxFromLo v =>
    obtain ⟨-, u, hu, rfl⟩ := (quietStep_eq_next (op := wrMboxFromLo v)).1 h
    obtain ⟨w, hw, hp⟩ := write16_plain (off := 0x5006) v s rfl
    obtain rfl : w = u := Except.ok.inj (hw.symm.trans hu)
    exact Effect.ofPlain rfl hp
  | rd16Ctrl =>
    obtain ⟨-, rfl⟩ := readStep_eq_next.1 h
    exact Effect.ofRead16 0x500A s rfl (fun h => by rcases h with h | h <;> cases h)
  | wr16Ctrl v =>
    obtain ⟨-, u, hu, rfl⟩ := (quietStep_eq_next (op := wrCtrl v)).1 h
    rw [wrCtrl_eq] at hu
    rw [← Except.ok.inj hu]
    exact Effect.ctrl (.wr16Ctrl v) s v _ _ _ (.inl rfl)
  | rd16ArInfo =>
    obtain ⟨-, rfl⟩ := readStep_eq_next.1 h
    exact Effect.ofRead16 0x5012 s rfl (fun h => by rcases h with h | h <;> cases h)
  | wr16ArInfo v =>
    obtain ⟨-, u, hu, rfl⟩ := (quietStep_eq_next (op := wrArInfo v)).1 h
    obtain ⟨w, hw, hp⟩ := write16_plain (off := 0x5012) v s rfl
    obtain rfl : w = u := Except.ok.inj (hw.symm.trans hu)
    exact Effect.ofPlain rfl hp
  | rd16ArMode =>
    obtain ⟨-, rfl⟩ := readStep_eq_next.1 h
    exact Effect.ofRead16 0x5016 s rfl (fun h => by rcases h with h | h <;> cases h)
  | wr16ArMode v =>
    obtain ⟨-, u, hu, rfl⟩ := (quietStep_eq_next (op := wrArMode v)).1 h
    obtain ⟨w, hw, hp⟩ := write16_plain (off := 0x5016) v s rfl
    obtain rfl : w = u := Except.ok.inj (hw.symm.trans hu)
    exact Effect.ofPlain rfl hp
  | rd16ArRefresh =>
    obtain ⟨-, rfl⟩ := readStep_eq_next.1 h
    exact Effect.ofRead16 0x501A s rfl (fun h => by rcases h with h | h <;> cases h)
  | wr16ArRefresh v =>
    obtain ⟨-, u, hu, rfl⟩ := (quietStep_eq_next (op := wrArRefresh v)).1 h
    obtain ⟨w, hw, hp⟩ := write16_plain (off := 0x501A) v s rfl
    obtain rfl : w = u := Except.ok.inj (hw.symm.trans hu)
    exact Effect.ofPlain rfl hp
  | rd16ArMmHi =>
    obtain ⟨-, rfl⟩ := readStep_eq_next.1 h
    exact Effect.ofRead16 0x5020 s rfl (fun h => by rcases h with h | h <;> cases h)
  | wr16ArMmHi v =>
    obtain ⟨-, u, hu, rfl⟩ := (quietStep_eq_next (op := wrArMmHi v)).1 h
    obtain ⟨w, hw, hp⟩ := write16_plain (off := 0x5020) v s rfl
    obtain rfl : w = u := Except.ok.inj (hw.symm.trans hu)
    exact Effect.ofPlain rfl hp
  | rd16ArMmLo =>
    obtain ⟨-, rfl⟩ := readStep_eq_next.1 h
    exact Effect.ofRead16 0x5022 s rfl (fun h => by rcases h with h | h <;> cases h)
  | wr16ArMmLo v =>
    obtain ⟨-, u, hu, rfl⟩ := (quietStep_eq_next (op := wrArMmLo v)).1 h
    obtain ⟨w, hw, hp⟩ := write16_plain (off := 0x5022) v s rfl
    obtain rfl : w = u := Except.ok.inj (hw.symm.trans hu)
    exact Effect.ofPlain rfl hp
  | rd16ArArHi =>
    obtain ⟨-, rfl⟩ := readStep_eq_next.1 h
    exact Effect.ofRead16 0x5024 s rfl (fun h => by rcases h with h | h <;> cases h)
  | wr16ArArHi v =>
    obtain ⟨-, u, hu, rfl⟩ := (quietStep_eq_next (op := wrArArHi v)).1 h
    obtain ⟨w, hw, hp⟩ := write16_plain (off := 0x5024) v s rfl
    obtain rfl : w = u := Except.ok.inj (hw.symm.trans hu)
    exact Effect.ofPlain rfl hp
  | rd16ArArLo =>
    obtain ⟨-, rfl⟩ := readStep_eq_next.1 h
    exact Effect.ofRead16 0x5026 s rfl (fun h => by rcases h with h | h <;> cases h)
  | wr16ArArLo v =>
    obtain ⟨-, u, hu, rfl⟩ := (quietStep_eq_next (op := wrArArLo v)).1 h
    obtain ⟨w, hw, hp⟩ := write16_plain (off := 0x5026) v s rfl
    obtain rfl : w = u := Except.ok.inj (hw.symm.trans hu)
    exact Effect.ofPlain rfl hp
  | rd16ArCntHi =>
    obtain ⟨-, rfl⟩ := readStep_eq_next.1 h
    exact Effect.ofRead16 0x5028 s rfl (fun h => by rcases h with h | h <;> cases h)
  | wr16ArCntHi v =>
    obtain ⟨-, u, hu, rfl⟩ := (quietStep_eq_next (op := wrArCntHi v)).1 h
    obtain ⟨w, hw, hp⟩ := write16_plain (off := 0x5028) v s rfl
    obtain rfl : w = u := Except.ok.inj (hw.symm.trans hu)
    exact Effect.ofPlain rfl hp
  | rd16ArCntLo =>
    obtain ⟨-, rfl⟩ := readStep_eq_next.1 h
    exact Effect.ofRead16 0x502A s rfl (fun h => by rcases h with h | h <;> cases h)
  | wr16ArCntLo v =>
    obtain ⟨-, u, hu, rfl⟩ := (quietStep_eq_next (op := wrArCntLo v)).1 h
    exact Effect.trigger _ s s u v (.inl ⟨rfl, rfl⟩) hu
  | rd16AuSrcHi =>
    obtain ⟨-, rfl⟩ := readStep_eq_next.1 h
    exact Effect.ofRead16 0x5030 s rfl (fun h => by rcases h with h | h <;> cases h)
  | wr16AuSrcHi v =>
    obtain ⟨-, u, hu, rfl⟩ := (quietStep_eq_next (op := wrAuSrcHi v)).1 h
    obtain ⟨w, hw, hp⟩ := write16_plain (off := 0x5030) v s rfl
    obtain rfl : w = u := Except.ok.inj (hw.symm.trans hu)
    exact Effect.ofPlain rfl hp
  | rd16AuSrcLo =>
    obtain ⟨-, rfl⟩ := readStep_eq_next.1 h
    exact Effect.ofRead16 0x5032 s rfl (fun h => by rcases h with h | h <;> cases h)
  | wr16AuSrcLo v =>
    obtain ⟨-, u, hu, rfl⟩ := (quietStep_eq_next (op := wrAuSrcLo v)).1 h
    obtain ⟨w, hw, hp⟩ := write16_plain (off := 0x5032) v s rfl
    obtain rfl : w = u := Except.ok.inj (hw.symm.trans hu)
    exact Effect.ofPlain rfl hp
  | rd16AuCtl =>
    obtain ⟨-, rfl⟩ := readStep_eq_next.1 h
    exact Effect.ofRead16 0x5036 s rfl (fun h => by rcases h with h | h <;> cases h)
  | wr16AuCtl v =>
    obtain ⟨-, u, hu, rfl⟩ := (quietStep_eq_next (op := wrAuCtl v)).1 h
    exact Effect.auCtl _ s u v (.inl rfl) hu
  | rd16AuLeft =>
    obtain ⟨-, rfl⟩ := readStep_eq_next.1 h
    exact Effect.ofRead16 0x503A s rfl (fun h => by rcases h with h | h <;> cases h)
  | wr16AuLeft v =>
    obtain ⟨-, u, hu, rfl⟩ := (quietStep_eq_next (op := wrAuLeft v)).1 h
    obtain ⟨w, hw, hp⟩ := write16_plain (off := 0x503A) v s rfl
    obtain rfl : w = u := Except.ok.inj (hw.symm.trans hu)
    exact Effect.ofPlain rfl hp
  | rd16Unmapped off =>
    obtain ⟨-, rfl⟩ := readStep_eq_next.1 h
    refine Effect.plain _ s s.dspSlice s.arInfo s.arRefresh s.arMm s.arAr s.arCnt s.auSrc [] s.answers s.draws
      (.half s.cfg.unmappedRead16) rfl id (fun hne => absurd rfl hne) |> Eq.mp (congrArg _ ?_)
    simp only [List.append_nil]
    rfl
  | wr16Unmapped off v =>
    obtain ⟨-, u, hu, rfl⟩ := (quietStep_eq_next (op := wrUnmapped)).1 h
    obtain rfl : s = u := Except.ok.inj hu
    exact Effect.ofPlain rfl (PlainWrite.refl s)
  | rd32 off =>
    obtain ⟨-, hk⟩ := whenLive_eq_next.1 h
    obtain rfl := Host.Outcome.next.inj hk
    exact Effect.ofRd32 off s hw
  | wr32 off d =>
    obtain ⟨-, u, hu, rfl⟩ := (quietStep_eq_next (op := write32 off d)).1 h
    by_cases h1 : off = 0x5008
    · subst h1
      rw [write32_ctrl, wrCtrl_eq] at hu
      rw [← Except.ok.inj hu]
      exact Effect.ctrl (.wr32 0x5008 d) s (loHalf d) _ _ _ (.inr ⟨d, rfl, rfl⟩)
    by_cases h2 : off = 0x5028
    · subst h2
      exact Effect.trigger _ s _ u (loHalf d) (.inr ⟨d, rfl, rfl, rfl⟩) (write32_arCnt d s ▸ hu)
    by_cases h3 : off = 0x5034
    · subst h3
      exact Effect.auCtl _ s u (loHalf d) (.inr ⟨d, rfl, rfl⟩) (write32_auCtl d s ▸ hu)
    obtain ⟨w, hw', hp⟩ := write32_plain d s hw h1 h2 h3
    obtain rfl : w = u := Except.ok.inj (hw'.symm.trans hu)
    exact Effect.ofPlain (by simpa [plainRow] using ⟨⟨h1, h2⟩, h3⟩) hp
  | tick =>
    obtain ⟨-, u, hu, rfl⟩ := (quietStep_eq_next (op := tickOp)).1 h
    exact Effect.tick s u hu
  | fireDspint seq =>
    obtain ⟨-, hk⟩ := whenLive_eq_next.1 h
    split at hk
    · cases hk
    · rename_i e u he
      obtain rfl := Host.Outcome.next.inj hk
      obtain ⟨hm, hf, x, d, rfl⟩ := deliverable_ok he
      exact Effect.fireDspint seq s e x d hm hf
  | fireAramint seq =>
    obtain ⟨-, hk⟩ := whenLive_eq_next.1 h
    split at hk
    · cases hk
    · rename_i e u he
      obtain rfl := Host.Outcome.next.inj hk
      obtain ⟨hm, hf, x, d, rfl⟩ := deliverable_ok he
      exact Effect.fireAramint seq s e x d hm hf
  | coreIrq delay kinds =>
    obtain ⟨-, hk⟩ := whenLive_eq_next.1 h
    split at hk
    · rename_i hc
      obtain rfl := Host.Outcome.next.inj hk
      exact Effect.coreIrq delay kinds s hc
    · cases hk
  | sliceCredit n =>
    obtain ⟨-, hk⟩ := whenLive_eq_next.1 h
    obtain rfl := Host.Outcome.next.inj hk
    exact Effect.sliceCredit n s
  | advance n =>
    obtain ⟨-, hk⟩ := whenLive_eq_next.1 h
    split at hk
    · cases hk
    · obtain rfl := Host.Outcome.next.inj hk
      exact Effect.advance n s (by omega)
  | init =>
    replace h : execInit s = .next t := h
    unfold execInit at h
    split at h
    · rename_i hs
      obtain rfl := Host.Outcome.next.inj h
      exact Effect.init s hs
    · cases h
  | shutdown =>
    obtain ⟨-, hk⟩ := whenLive_eq_next.1 h
    obtain rfl := Host.Outcome.next.inj hk
    exact Effect.shutdown s
  | snapshot =>
    obtain ⟨-, hk⟩ := whenLive_eq_next.1 h
    obtain rfl := Host.Outcome.next.inj hk
    rw [afterAnswer_eq s]
    exact Effect.snapshot s _ _
  | restore snap queue =>
    obtain ⟨-, hk⟩ := whenLive_eq_next.1 h
    split at hk
    · rename_i hs
      obtain rfl := Host.Outcome.next.inj hk
      rw [coreRestore_eq]
      have := Effect.restore snap queue s (nextAnswer s != 0) (afterAnswer (loadItems snap s)).answers
        (afterAnswer (loadItems snap s)).draws hs
      simpa [updateLine, State.record, State.replied, loadItems, nextAnswer] using this
    · cases hk

/-- Only `INIT` answers a next state from a state that is not live. -/
theorem exec_next_live {i : Instr} {s t : State} (hi : i ≠ .init) (h : exec i s = .next t) : s.status = .live := by
  cases i with
  | init => exact absurd rfl hi
  | _ => exact (whenLive_eq_next.1 h).1

end Sys2Proof.Machine
end

