-- ==== Sys2Proof/Tests/Slice0.lean ====
section
/-! SUPPORT. The model's own tests.  Expected results come from spec/95_test_vectors.md (the vector's id stands in each docstring)
and from words written out from 30_encoding.md.  The last part shows, for every obligation with hypotheses, a state and operands that
meet them. -/

set_option maxRecDepth 8000

namespace Sys2Proof.Tests
open Sys2Proof Sys2Proof.Machine

/-- The instance of the vectors' opening list; main memory stands below 64 MB. -/
def cfgT : Params :=
  { Params.standard with
    unmappedRead16 := 0xDEAD, deviceBase := 0x0C000000, windowBytes := 0x40, mainMap := .regions [⟨0, 0x04000000⟩], coreShape := 7 }

/-- The state after `INIT` of that instance, with both memories zero. -/
def live : State := { State.reset with cfg := cfgT, mem := [], aram := [] }

/-- With another parameter: unified. -/
def liveU : State := { live with cfg := { cfgT with unified := true } }

/-- With another parameter: a cycle-stepped core. -/
def liveC : State := { live with cfg := { cfgT with coreCycleStepped := true } }

/-- The step answers a next state with this property. -/
def ends (r : Result) (p : State → Bool) : Bool :=
  match r with
  | .next t => p t
  | _ => false

/-- The step ends in this fault. -/
def faults (r : Result) (f : Fault) : Bool :=
  match r with
  | .fault g => g == f
  | _ => false

/-- The step is refused with this reason. -/
def refuses (r : Result) (f : Refusal) : Bool :=
  match r with
  | .refused g => g == f
  | _ => false

/-- The next state, or the state it came from. -/
def after (s : State) (r : Result) : State :=
  match r with
  | .next t => t
  | _ => s

/-! ## Well-formedness: an ill-formed term for each check -/

/-- R94: no odd offset. -/
theorem test_wf_rd16_odd : WellFormed (.rd16Unmapped 0x5011) = false := by decide
/-- R116: a mapped offset is its register's row. -/
theorem test_wf_rd16_mapped : WellFormed (.rd16Unmapped 0x5012) = false := by decide
theorem test_wf_wr16_odd : WellFormed (.wr16Unmapped 0x5011 0) = false := by decide
theorem test_wf_wr16_mapped : WellFormed (.wr16Unmapped 0x503A 0) = false := by decide
/-- R94: no offset that is not a multiple of 4. -/
theorem test_wf_rd32_half : WellFormed (.rd32 0x500A) = false := by decide
theorem test_wf_rd32_odd : WellFormed (.rd32 0x5001) = false := by decide
theorem test_wf_wr32_half : WellFormed (.wr32 0x5022 0) = false := by decide
theorem test_wf_wr32_odd : WellFormed (.wr32 0x5023 0) = false := by decide
theorem test_wf_accepts : WellFormed (.rd16Unmapped 0x5010) = true ∧ WellFormed (.wr16Unmapped 0x503C 1) = true ∧
    WellFormed (.rd32 0x5008) = true ∧ WellFormed (.wr32 0x5028 0x20) = true := by decide

/-! ## Decoding: every constructor's word, written out from R111 to R114, R120 -/

theorem test_decode_mailbox_reads :
    decode 0x005000#24 {} = .ok .rd16MboxToHi ∧ decode 0x005002#24 {} = .ok .rd16MboxToLo ∧
    decode 0x005004#24 {} = .ok .rd16MboxFromHi ∧ decode 0x005006#24 {} = .ok .rd16MboxFromLo := ⟨rfl, rfl, rfl, rfl⟩
theorem test_decode_mailbox_writes :
    decode 0x015000#24 { data := 0xABCD8071 } = .ok (.wr16MboxToHi 0x8071) ∧
    decode 0x015002#24 { data := 0xBABE } = .ok (.wr16MboxToLo 0xBABE) ∧
    decode 0x015004#24 { data := 0xFFFF } = .ok (.wr16MboxFromHi 0xFFFF) ∧
    decode 0x015006#24 { data := 1 } = .ok (.wr16MboxFromLo 1) := ⟨rfl, rfl, rfl, rfl⟩
theorem test_decode_ctrl :
    decode 0x00500A#24 {} = .ok .rd16Ctrl ∧ decode 0x01500A#24 { data := 0x0060 } = .ok (.wr16Ctrl 0x0060) := ⟨rfl, rfl⟩
theorem test_decode_bank :
    decode 0x005012#24 {} = .ok .rd16ArInfo ∧ decode 0x015012#24 { data := 3 } = .ok (.wr16ArInfo 3) ∧
    decode 0x005016#24 {} = .ok .rd16ArMode ∧ decode 0x015016#24 { data := 4 } = .ok (.wr16ArMode 4) ∧
    decode 0x00501A#24 {} = .ok .rd16ArRefresh ∧ decode 0x01501A#24 { data := 5 } = .ok (.wr16ArRefresh 5) :=
  ⟨rfl, rfl, rfl, rfl, rfl, rfl⟩
theorem test_decode_aram_reads :
    decode 0x005020#24 {} = .ok .rd16ArMmHi ∧ decode 0x005022#24 {} = .ok .rd16ArMmLo ∧
    decode 0x005024#24 {} = .ok .rd16ArArHi ∧ decode 0x005026#24 {} = .ok .rd16ArArLo ∧
    decode 0x005028#24 {} = .ok .rd16ArCntHi ∧ decode 0x00502A#24 {} = .ok .rd16ArCntLo := ⟨rfl, rfl, rfl, rfl, rfl, rfl⟩
theorem test_decode_aram_writes :
    decode 0x015020#24 { data := 1 } = .ok (.wr16ArMmHi 1) ∧ decode 0x015022#24 { data := 2 } = .ok (.wr16ArMmLo 2) ∧
    decode 0x015024#24 { data := 3 } = .ok (.wr16ArArHi 3) ∧ decode 0x015026#24 { data := 4 } = .ok (.wr16ArArLo 4) ∧
    decode 0x015028#24 { data := 5 } = .ok (.wr16ArCntHi 5) ∧ decode 0x01502A#24 { data := 6 } = .ok (.wr16ArCntLo 6) :=
  ⟨rfl, rfl, rfl, rfl, rfl, rfl⟩
theorem test_decode_audio_reads :
    decode 0x005030#24 {} = .ok .rd16AuSrcHi ∧ decode 0x005032#24 {} = .ok .rd16AuSrcLo ∧
    decode 0x005036#24 {} = .ok .rd16AuCtl ∧ decode 0x00503A#24 {} = .ok .rd16AuLeft := ⟨rfl, rfl, rfl, rfl⟩
theorem test_decode_audio_writes :
    decode 0x015030#24 { data := 1 } = .ok (.wr16AuSrcHi 1) ∧ decode 0x015032#24 { data := 2 } = .ok (.wr16AuSrcLo 2) ∧
    decode 0x015036#24 { data := 3 } = .ok (.wr16AuCtl 3) ∧ decode 0x01503A#24 { data := 4 } = .ok (.wr16AuLeft 4) :=
  ⟨rfl, rfl, rfl, rfl⟩
theorem test_decode_unmapped :
    decode 0x005008#24 {} = .ok (.rd16Unmapped 0x5008) ∧ decode 0x015010#24 { data := 9 } = .ok (.wr16Unmapped 0x5010 9) :=
  ⟨rfl, rfl⟩
theorem test_decode_wide :
    decode 0x025004#24 {} = .ok (.rd32 0x5004) ∧ decode 0x035000#24 { data := 0x12345678 } = .ok (.wr32 0x5000 0x12345678) :=
  ⟨rfl, rfl⟩
theorem test_decode_events :
    decode 0x040001#24 {} = .ok .tick ∧ decode 0x040002#24 { nat := 2 } = .ok (.fireDspint 2) ∧
    decode 0x040003#24 { nat := 3 } = .ok (.fireAramint 3) ∧
    decode 0x040004#24 { nat := 10, kinds := KindSet.kindC } = .ok (.coreIrq 10 KindSet.kindC) ∧
    decode 0x040005#24 { nat := 200 } = .ok (.sliceCredit 200) ∧ decode 0x040006#24 { nat := 492 } = .ok (.advance 492) :=
  ⟨rfl, rfl, rfl, rfl, rfl, rfl⟩
theorem test_decode_lifecycle :
    decode 0x040007#24 {} = .ok .init ∧ decode 0x040008#24 {} = .ok .shutdown ∧ decode 0x040009#24 {} = .ok .snapshot ∧
    decode 0x04000A#24 { snap := { Snapshot.blank with ctrl := 4 } } = .ok (.restore { Snapshot.blank with ctrl := 4 } []) :=
  ⟨rfl, rfl, rfl, rfl⟩

/-- The fields of R111 side by side: five padding bits, the class, `W`, the offset or code. -/
theorem test_decode_bit_by_bit :
    decode (0b00000#5 ++ 0b00#2 ++ 0b1#1 ++ 0b0101000000101010#16) { data := 0x20 } = .ok (.wr16ArCntLo 0x20) ∧
    decode (0b00000#5 ++ 0b00#2 ++ 0b0#1 ++ 0b0101000000010010#16) {} = .ok .rd16ArInfo ∧
    decode (0b00000#5 ++ 0b01#2 ++ 0b0#1 ++ 0b0101000000100000#16) {} = .ok (.rd32 0x5020) ∧
    decode (0b00000#5 ++ 0b10#2 ++ 0b0#1 ++ 0b0000000000000001#16) {} = .ok .tick := ⟨rfl, rfl, rfl, rfl⟩

/-- V60.3 to V60.6, and a word beyond the 19 bits of a key (log 13). -/
theorem test_decode_refuses :
    decode 0x02500A#24 {} = .error (.unsupportedAccess 32 0x500A) ∧ decode 0x060000#24 {} = .error (.reservedEncoding 0x60000) ∧
    decode 0x050001#24 {} = .error (.reservedEncoding 0x50001) ∧ decode 0x04000B#24 {} = .error (.reservedEncoding 0x4000B) ∧
    decode 0x040000#24 {} = .error (.reservedEncoding 0x40000) ∧ decode 0x085000#24 {} = .error (.reservedEncoding 0x85000) ∧
    decode 0x005001#24 {} = .error (.unsupportedAccess 16 0x5001) := ⟨rfl, rfl, rfl, rfl, rfl, rfl, rfl⟩

/-- The encoder gives the same words. -/
theorem test_encode_words :
    encode (.wr16Ctrl 0x0060) = ⟨0x01500A#24, { data := 0x0060 }⟩ ∧ encode (.advance 492) = ⟨0x040006#24, { nat := 492 }⟩ ∧
    encode (.wr32 0x5028 0x80000040) = ⟨0x035028#24, { data := 0x80000040 }⟩ := ⟨rfl, rfl, rfl⟩

/-- The host's form of a word. -/
theorem test_decode_table_word : decodeTableWord 24 0x1502A = some (.wr16ArCntLo 0) ∧ decodeTableWord 24 0x60000 = none := ⟨rfl, rfl⟩

/-! ## The step -/

/-- V60.7, V60.8: an 8-bit read and an odd 16-bit write of the window are refused. -/
theorem test_bus_shapes :
    refuses (step { live with inbox := [⟨.bus .bits8 false 0x0C005016 0, [], [], []⟩] }) (.unsupportedAccess 8 0x5016) = true ∧
    refuses (step { live with inbox := [⟨.bus .bits16 true 0x0C005001 0, [], [], []⟩] }) (.unsupportedAccess 16 0x5001) = true := by
  decide
/-- R81: an offset of a wide window beyond a key's 16 bits is unmapped, also where its low bits are a register's. -/
theorem test_bus_far :
    ends (step { live with cfg := { cfgT with windowBytes := 0x20000 }, inbox := [⟨.bus .bits16 true 0x0C01500A 0x0150, [], [], []⟩] })
      (fun t => t.ctrl == 0x0004 && t.log == []) = true ∧
    refuses (step { live with cfg := { cfgT with windowBytes := 0x20000 }, inbox := [⟨.bus .bits16 true 0x0C015001 0, [], [], []⟩] })
      (.unsupportedAccess 16 0x15001) = true := by decide
/-- R85: a map that turns on the length of the access. -/
theorem test_mainMap_by_length :
    mainMap { cfgT with mainMap := .runs [⟨0x1000, 0x1000, 1, 8⟩] } 0x1FFF 8 = true ∧
    mainMap { cfgT with mainMap := .runs [⟨0x1000, 0x1000, 1, 8⟩] } 0x1000 32 = false := by decide
/-- R81, R94: a 32-bit access of the window runs the row. -/
theorem test_bus_write :
    ends (step { live with inbox := [⟨.bus .bits32 true 0x0C005020 0x01234567, [], [], []⟩] })
      (fun t => t.arMm == 0x01234560 && t.inbox == []) = true := by decide
/-- R93: bytes another agent wrote are there for the step's transfer. -/
theorem test_foreign_bytes :
    ends (step { live with inbox := [⟨.keyed 0x01502A#24 { data := 0x20 }, [(0x1F, 0xEE)], [], []⟩] })
      (fun t => t.aram == [(0x1F, 0xEE)] && t.mem == [(0x1F, 0xEE)]) = true := by decide
/-- V45.9: after a shutdown nothing but `INIT` is enabled. -/
theorem test_shut_forbids :
    faults (exec .rd16ArMode { live with status := .shut }) (.stuck .statusForbids) = true := by decide

/-! ## Register bank (vectors V40) -/

/-- V40.1, V40.4, V40.6, V45.10. -/
theorem test_rd_bank :
    ends (exec .rd16ArInfo live) (fun t => t.reply == .half 0x0000) = true ∧
    ends (exec .rd16ArMode live) (fun t => t.reply == .half 0x0001) = true ∧
    ends (exec .rd16ArRefresh live) (fun t => t.reply == .half 0x009C) = true := by decide
/-- V40.2, V40.3. -/
theorem test_wr_arInfo :
    ends (exec (.wr16ArInfo 0xFFFF) live) (fun t => t.arInfo == 0x007F) = true ∧
    ends (exec (.wr16ArInfo 0x0094) live) (fun t => t.arInfo == 0x0014 && mirrors t.arInfo) = true := by decide
/-- V40.5. -/
theorem test_wr_arMode :
    ends (exec (.wr16ArMode 0x0000) live) (fun t => t.arMode == 0x0001 && t.log == [.invalidWrite 0x5016 0]) = true := by decide
/-- V40.7. -/
theorem test_wr_arRefresh : ends (exec (.wr16ArRefresh 0xF123) live) (fun t => t.arRefresh == 0x0123) = true := by decide
/-- V40.8. -/
theorem test_rd_unmapped :
    ends (exec (.rd16Unmapped 0x5010) live) (fun t => t.reply == .half 0xDEAD) = true ∧
    ends (exec (.rd16Unmapped 0x503C) live) (fun t => t.reply == .half 0xDEAD) = true := by decide
/-- V40.9. -/
theorem test_wr_unmapped : ends (exec (.wr16Unmapped 0x5010 0xFFFF) live) (fun t => t == live) = true := by decide
/-- V40.10, V40.12. -/
theorem test_rd32 :
    ends (exec (.rd32 0x5020) { live with arMm := 0x01234560 }) (fun t => t.reply == .word 0x01234560) = true ∧
    ends (exec (.rd32 0x5038) { live with auCtl := 0x8004, auRem := 4 }) (fun t => t.reply == .word 0xDEAD0003) = true := by decide
/-- V40.11, V40.13, V44.7. -/
theorem test_wr32 :
    ends (exec (.wr32 0x5020 0xFFFFFFFF) live) (fun t => t.arMm == 0x03FFFFE0) = true ∧
    ends (exec (.wr32 0x5034 0xABCD0002) live) (fun t => t.auCtl == 0x0002 && t.pending == []) = true ∧
    ends (exec (.wr32 0x5000 0x8071BABE) live)
      (fun t => t.log == [.coreWriteMailbox .hi .toDSP 0x8071, .coreWriteMailbox .lo .toDSP 0xBABE]) = true := by decide

/-! ## ControlRegister (vectors V41) -/

/-- V41.1, V41.8. -/
theorem test_rd_ctrl :
    ends (exec .rd16Ctrl { live with ctrl := 0x0228, answers := [0x0004] })
      (fun t => t.reply == .half 0x022C && t.ctrl == 0x0228 && !t.line) = true ∧
    ends (exec .rd16Ctrl { live with ctrl := 0xFF57, answers := [0] }) (fun t => t.reply == .half 0xF350) = true := by decide
/-- V41.2, V41.3. -/
theorem test_wr_ctrl_adopts :
    ends (exec (.wr16Ctrl 0x0058) { live with ctrl := 0x0228 }) (fun t => t.ctrl == 0x0270 && t.line) = true ∧
    ends (exec (.wr16Ctrl 0x0010) { live with ctrl := 0x000C }) (fun t => t.ctrl == 0x0018 && t.line) = true := by decide
/-- V41.7, V41.14. -/
theorem test_wr_ctrl_acknowledges :
    ends (exec (.wr16Ctrl 0xFFFF) { live with ctrl := 0x02A8, answers := [0] })
      (fun t => t.ctrl == 0xFF57 && t.log == [.coreWriteControl 0xFFFF 0, .configurationAnomaly 0xFFFF, .setLine false]) = true ∧
    ends (exec (.wr16Ctrl 0x01A8) { live with ctrl := 0x01A8 }) (fun t => t.ctrl == 0x0100 && !t.line) = true := by decide

/-! ## Audio DMA (vectors V42) -/

/-- V42.1, V42.2. -/
theorem test_wr_auSrcHi :
    ends (exec (.wr16AuSrcHi 0xFFFF) live) (fun t => t.auSrc == 0x03FF0000) = true ∧
    ends (exec (.wr16AuSrcHi 0xFFFF) liveU) (fun t => t.auSrc == 0x1FFF0000) = true := by decide
/-- V42.3. -/
theorem test_wr_auSrcLo :
    ends (exec (.wr16AuSrcLo 0x123F) { live with auSrc := 0x01110000 }) (fun t => t.auSrc == 0x01111220) = true := by decide
theorem test_rd_auSrc :
    ends (exec .rd16AuSrcHi { live with auSrc := 0x01231220 }) (fun t => t.reply == .half 0x0123) = true ∧
    ends (exec .rd16AuSrcLo { live with auSrc := 0x01231220 }) (fun t => t.reply == .half 0x1220) = true ∧
    ends (exec .rd16AuCtl { live with auCtl := 0x8004 }) (fun t => t.reply == .half 0x8004) = true := by decide
/-- E1, V42.11: the edge. -/
theorem test_wr_auCtl_edge :
    ends (exec (.wr16AuCtl 0x8001) { live with auSrc := 0x1000, mem := [(0x1002, 9)] })
      (fun t => t.auRem == 1 && t.auCur == 0x1000 && t.pending == [⟨.dspInt KindSet.kindA, 200, .emu, 0⟩] &&
        t.log.contains (.push (.main 0x1000) 8 ([0, 0, 9] ++ List.replicate 29 0))) = true := by decide
/-- V42.9, V42.4: no edge; an edge with a count of 0. -/
theorem test_wr_auCtl_other :
    ends (exec (.wr16AuCtl 0x0004) { live with auCtl := 0x8004, auRem := 3, auCur := 0x1020 })
      (fun t => t.auCtl == 0x0004 && t.auRem == 3 && t.auCur == 0x1020 && t.log == []) = true ∧
    ends (exec (.wr16AuCtl 0x8000) { live with auSrc := 0x1000 })
      (fun t => t.auRem == 0 && t.auCur == 0x1000 &&
        t.log == [.push (.main 0x1000) 0 [], .schedule 200 (.dspInt KindSet.kindA) .emu]) = true := by decide
/-- E2, V42.13. -/
theorem test_rd_auLeft :
    ends (exec .rd16AuLeft { live with auRem := 0x7FFF }) (fun t => t.reply == .half 0x7FFE) = true ∧
    ends (exec .rd16AuLeft live) (fun t => t.reply == .half 0) = true := by decide
/-- V40.14. -/
theorem test_wr_auLeft :
    ends (exec (.wr16AuLeft 0x1234) live) (fun t => t == { live with log := [.invalidWrite 0x503A 0x1234] }) = true := by decide
/-- V42.10, V42.7 and V42.14. -/
theorem test_tick_silence_and_reload :
    ends (exec .tick live) (fun t => t.log == [.push .silence 8 (List.replicate 32 0)]) = true ∧
    ends (exec .tick { live with auSrc := 0x1000, auCtl := 0x8001 })
      (fun t => t.auRem == 1 && t.auCur == 0x1000 && t.ctrl == 0x000C &&
        t.log.contains (.push (.main 0x1000) 8 (List.replicate 32 0))) = true := by decide
/-- E7, V42.5: one block consumed; a reload with a count of 0. -/
theorem test_tick_counts :
    ends (exec .tick { live with auSrc := 0x1000, auCtl := 0x8004, auRem := 4, auCur := 0x1000 })
      (fun t => t.auRem == 3 && t.auCur == 0x1020 && t.log == []) = true ∧
    ends (exec .tick { live with auSrc := 0x1000, auCtl := 0x8000, auCur := 0x1000 })
      (fun t => t.auRem == 0 && t.log == [] && t.ctrl == 0x0004) = true := by decide

/-! ## ARAM DMA (vectors V43) -/

/-- V43.1, V43.2. -/
theorem test_wr_arMm :
    ends (exec (.wr16ArMmHi 0x0401) { live with arMm := 0x00008000 }) (fun t => t.arMm == 0x00018000) = true ∧
    ends (exec (.wr16ArMmLo 0x8010) { live with arMm := 0x00010000 }) (fun t => t.arMm == 0x00018000) = true := by decide
theorem test_wr_arAr :
    ends (exec (.wr16ArArHi 0xFFFF) { live with arAr := 0x00000100 }) (fun t => t.arAr == 0x03FF0100) = true ∧
    ends (exec (.wr16ArArLo 0x013F) { live with arAr := 0x00020000 }) (fun t => t.arAr == 0x00020120) = true := by decide
theorem test_wr_arCntHi : ends (exec (.wr16ArCntHi 0xFFFF) live) (fun t => t.arCnt == 0x83FF0000 && t.pending == []) = true := by decide
theorem test_rd_aram :
    ends (exec .rd16ArMmHi { live with arMm := 0x01234560 }) (fun t => t.reply == .half 0x0123) = true ∧
    ends (exec .rd16ArMmLo { live with arMm := 0x01234560 }) (fun t => t.reply == .half 0x4560) = true ∧
    ends (exec .rd16ArArHi { live with arAr := 0x00450120 }) (fun t => t.reply == .half 0x0045) = true ∧
    ends (exec .rd16ArArLo { live with arAr := 0x00450120 }) (fun t => t.reply == .half 0x0120) = true ∧
    ends (exec .rd16ArCntHi { live with arCnt := 0x83FF0020 }) (fun t => t.reply == .half 0x83FF) = true ∧
    ends (exec .rd16ArCntLo { live with arCnt := 0x83FF0020 }) (fun t => t.reply == .half 0x0020) = true := by decide

/-- Main memory at 0x1000: one granule of distinct bytes, and the last byte of the fourth granule. -/
def source : State :=
  { live with mem := [(0x1001, 1), (0x1002, 2), (0x1003, 3), (0x1004, 4), (0x1005, 5), (0x1006, 6), (0x1007, 7), (0x101F, 0x77)],
              arMm := 0x1000 }

/-- V43.3, V43.5, and V43.9 as a write of the low half: the store's two directions, and a reversed granule. -/
theorem test_trigger_store :
    ends (exec (.wr16ArCntLo 0x003F) source)
      (fun t => t.aram == [(1, 1), (2, 2), (3, 3), (4, 4), (5, 5), (6, 6), (7, 7), (0x1F, 0x77)] && t.arMm == 0x1020 &&
        t.arAr == 0x20 && t.arCnt == 0 && t.ctrl == 0x0204 && t.pending == [⟨.aramInt, 246, .emu, 0⟩]) = true ∧
    ends (exec (.wr16ArCntLo 0x0020) { source with cfg := { cfgT with granuleOrder := .reverse } })
      (fun t => t.aram == [(0, 7), (1, 6), (2, 5), (3, 4), (4, 3), (5, 2), (6, 1), (0x18, 0x77)]) = true ∧
    ends (exec (.wr16ArCntLo 0x0020) { source with arCnt := 0x80000000, aram := [(0x100, 0xA0), (0x11F, 0xBF)], mem := [],
                                                   arAr := 0x100, arInfo := 4 })
      (fun t => t.mem == [(0x1000, 0xA0), (0x101F, 0xBF)] && t.aram == [(0x100, 0xA0), (0x11F, 0xBF)] &&
        t.arCnt == 0x80000000) = true := by decide
/-- V43.10, R248, V43.11: the secondary bus both ways, big-endian; unified outside the store. -/
theorem test_trigger_elsewhere :
    ends (exec (.wr16ArCntLo 0x0020) { source with arAr := 0x01000000 })
      (fun t => t.log.contains (.auxWrite 0x01000000 0x0001020304050607) && t.log.contains (.auxWrite 0x01000018 0x77) &&
        t.arAr == 0x01000020 && t.aram == []) = true ∧
    ends (exec (.wr16ArCntLo 0x0020) { live with arMm := 0x2000, arAr := 0x01000000, arCnt := 0x80000000,
                                                 answers := [0x1100000000000022, 0, 0, 0x33] })
      (fun t => t.mem == [(0x2000, 0x11), (0x2007, 0x22), (0x201F, 0x33)] && t.answers == []) = true ∧
    ends (exec (.wr16ArCntLo 0x0020) { liveU with arMm := 0x1000, arAr := 0x01000000, mem := [(0x1000, 1)] })
      (fun t => t.aram == [] && t.arAr == 0x01000000 && t.arMm == 0x1000 && t.arCnt == 0x20 && t.ctrl == 0x0204 &&
        t.pending == [⟨.aramInt, 246, .emu, 0⟩]) = true := by decide
/-- V43.7, V43.13, V43.12: the mirror stops at 0x400000, the store's index wraps, a count of 0 moves nothing. -/
theorem test_wr32_trigger :
    ends (exec (.wr32 0x5028 0x00000040) { source with arAr := 0x3FFFE0, arInfo := 4, mem := [(0x101F, 0x77), (0x1020, 0x55)] })
      (fun t => t.aram == [(0x3FFFFF, 0x77), (0x400000, 0x55), (0x7FFFFF, 0x77)]) = true ∧
    ends (exec (.wr32 0x5028 0x00000020) { source with arAr := 0x00FFFFF0 })
      (fun t => t.aram.read 0xFFFFF7 == 7 && t.aram.read 0xF == 0x77 && t.arAr == 0x01000010) = true ∧
    ends (exec (.wr32 0x5028 0) live)
      (fun t => t.pending == [⟨.aramInt, 0, .emu, 0⟩] && t.ctrl == 0x0204 && t.aram == []) = true := by decide
/-- V43.14. -/
theorem test_aram_delay : aramDelay 0x03FFFFE0 = 515899146 := by decide
/-- V43.16. -/
theorem test_fire_aramint :
    ends (exec (.fireAramint 0) { live with ctrl := 0x0240, now := 246, pending := [⟨.aramInt, 246, .emu, 0⟩] })
      (fun t => t.ctrl == 0x0060 && t.line && t.pending == []) = true := by decide
/-- V43.15: `DMA_ACT` falls while another completion is still pending; V45.5. -/
theorem test_fire_aramint_overlap :
    ends (exec (.fireAramint 0) { live with ctrl := 0x0204, now := 500, pending := [⟨.aramInt, 246, .emu, 0⟩, ⟨.aramInt, 492, .emu, 1⟩] })
      (fun t => t.ctrl == 0x0024 && t.pending == [⟨.aramInt, 492, .emu, 1⟩]) = true ∧
    faults (exec (.fireAramint 0) { live with now := 245, pending := [⟨.aramInt, 246, .emu, 0⟩] }) (.stuck (.notDue 0)) = true := by
  decide

/-! ## Mailbox (vectors V44) -/

/-- V44.1. -/
theorem test_rd_mboxToHi :
    ends (exec .rd16MboxToHi { liveC with dspSlice := 100, answers := [0x8123] })
      (fun t => t.dspSlice == 28 && t.reply == .half 0x8123 && t.log.contains (.coreUpdate 72)) = true := by decide
/-- V44.2, V44.3, V44.4. -/
theorem test_rd_mboxFromHi_limit :
    ends (exec .rd16MboxFromHi { liveC with dspSlice := 72 }) (fun t => t.dspSlice == 72 && !t.log.contains (.coreUpdate 72)) = true ∧
    ends (exec .rd16MboxFromHi { liveC with dspSlice := 73 }) (fun t => t.dspSlice == 1) = true ∧
    ends (exec .rd16MboxFromHi { live with dspSlice := 1000 })
      (fun t => t.dspSlice == 1000 && !t.log.contains (.coreUpdate 72)) = true := by decide
/-- V44.5. -/
theorem test_rd_mbox_low :
    ends (exec .rd16MboxToLo { liveC with dspSlice := 1000, answers := [5] })
      (fun t => t.dspSlice == 1000 && t.log == [.coreReadMailbox .lo .toDSP 5]) = true ∧
    ends (exec .rd16MboxFromLo { liveC with dspSlice := 1000, answers := [6] })
      (fun t => t.dspSlice == 1000 && t.log == [.coreReadMailbox .lo .fromDSP 6]) = true := by decide
/-- V44.6. -/
theorem test_rd32_mailbox :
    ends (exec (.rd32 0x5004) { liveC with dspSlice := 150, answers := [0x8001, 0x0002] })
      (fun t => t.dspSlice == 78 && t.reply == .word 0x80010002) = true := by decide
/-- V44.8 and step 7 of program P3. -/
theorem test_wr_mbox_invalid :
    ends (exec (.wr16MboxFromLo 0) live) (fun t => t == { live with log := [.invalidWrite 0x5006 0] }) = true ∧
    ends (exec (.wr16MboxFromHi 0xFFFF) live) (fun t => t == { live with log := [.invalidWrite 0x5004 0xFFFF] }) = true := by decide
/-- R272, R274. -/
theorem test_wr_mbox :
    ends (exec (.wr16MboxToHi 0x1234) live) (fun t => t.log == [.coreWriteMailbox .hi .toDSP 0x1234]) = true ∧
    ends (exec (.wr16MboxToLo 0x5678) live) (fun t => t.log == [.coreWriteMailbox .lo .toDSP 0x5678]) = true := by decide

/-! ## Events (vectors V45) -/

/-- V45.1, V45.2. -/
theorem test_core_irq :
    ends (exec (.coreIrq 50 KindSet.kindC) { live with now := 1000 })
      (fun t => t.pending == [⟨.dspInt KindSet.kindC, 1050, .worker, 0⟩]) = true ∧
    refuses (exec (.coreIrq 50 KindSet.kindA) { live with now := 1000 }) (.coreKindNotAllowed KindSet.kindA) = true := by decide
/-- V45.3: in order; R295: of two restored entries with one kind and `seq`, the one that is due, and of two that are due either. -/
theorem test_fire_dspint_order :
    faults (exec (.fireDspint 1) { live with now := 100, pending :=
      [⟨.dspInt KindSet.kindC, 50, .worker, 0⟩, ⟨.dspInt KindSet.kindC, 100, .worker, 1⟩] }) (.stuck (.outOfOrder 1)) = true ∧
    ends (exec (.fireDspint 0) { live with now := 100, pending :=
        [⟨.dspInt KindSet.kindA, 200, .emu, 0⟩, ⟨.dspInt KindSet.kindC, 50, .worker, 0⟩] })
      (fun t => t.ctrl == 0x0084 && t.pending == [⟨.dspInt KindSet.kindA, 200, .emu, 0⟩]) = true ∧
    ends (exec (.fireDspint 0) { live with now := 200, answers := [1], pending :=
        [⟨.dspInt KindSet.kindA, 200, .emu, 0⟩, ⟨.dspInt KindSet.kindC, 50, .worker, 0⟩] })
      (fun t => t.ctrl == 0x0084 && t.answers == []) = true := by decide
/-- V41.12, V45.4: raised on delivery; of two requests the later one with the earlier due may go first. -/
theorem test_fire_dspint :
    ends (exec (.fireDspint 1) { live with ctrl := 0x0108, now := 100, pending :=
        [⟨.dspInt KindSet.kindC, 100, .worker, 0⟩, ⟨.dspInt KindSet.kindC, 50, .worker, 1⟩] })
      (fun t => t.ctrl == 0x0188 && t.line && t.pending == [⟨.dspInt KindSet.kindC, 100, .worker, 0⟩]) = true := by decide
/-- Step 1 of program P3. -/
theorem test_slice_credit : ends (exec (.sliceCredit 150) { live with dspSlice := -4 }) (fun t => t.dspSlice == 146) = true := by decide
/-- V45.6, V60.9. -/
theorem test_advance :
    refuses (exec (.advance 400) { live with now := 500 }) (.timeReversal 400) = true ∧
    ends (exec (.advance 500) { live with now := 500 }) (fun t => t.now == 500) = true := by decide
/-- V45.7: what a snapshot holds comes back. -/
theorem test_snapshot_then_restore :
    ends (exec .snapshot { live with ctrl := 0x0018, aram := [(5, 6)], auRem := 3, answers := [42] })
      (fun t => match t.reply with
        | .snapshot snap =>
          ends (exec (.restore snap [⟨.aramInt, 9, .emu, 4⟩]) { live with answers := [1] })
            (fun u => u.ctrl == 0x0018 && u.line && u.aram == [(5, 6)] && u.auRem == 3 && u.pending == [⟨.aramInt, 9, .emu, 4⟩] &&
              u.log == [.coreRestore ⟨7, 42⟩ true, .setLine true])
        | _ => false) = true := by decide
/-- V45.8. -/
theorem test_restore_shape : faults (exec (.restore Snapshot.blank []) live) .serializationShapeMismatch = true := by decide
/-- V45.9 and R312. -/
theorem test_shutdown :
    ends (exec .shutdown { live with pending := [⟨.aramInt, 9, .emu, 4⟩] })
      (fun t => t.pending == [] && t.status == .shut && t.log == [.coreShutdown]) = true := by decide
/-- V45.10, R66. -/
theorem test_init :
    ends (exec .init { liveU with status := .shut, arMode := 0, arRefresh := 0, ctrl := 0, auRem := 2, nextSeq := 7 })
      (fun t => t.arMode == 0x0001 && t.arRefresh == 0x009C && t.ctrl == 0x0004 && t.auRem == 0 && t.nextSeq == 0 &&
        t.status == .live) = true := by decide

/-! ## Witnesses: for every obligation with hypotheses, a state and operands that meet them

A witness for a clause about a next state also shows that the step answers one. -/

/-- A next state with a decidable property, from the evaluation. -/
theorem exists_of_ends {r : Result} {P : State → Prop} [DecidablePred P] (h : ends r (fun t => decide (P t)) = true) :
    ∃ t, r = .next t ∧ P t := by
  cases r with
  | next t => exact ⟨t, rfl, of_decide_eq_true h⟩
  | fault f => cases h
  | refused f => cases h

theorem fault_of_faults {r : Result} {f : Fault} (h : faults r f = true) : r = .fault f := by
  cases r with
  | next t => cases h
  | fault g => exact congrArg _ (eq_of_beq h)
  | refused g => cases h

theorem refused_of_refuses {r : Result} {f : Refusal} (h : refuses r f = true) : r = .refused f := by
  cases r with
  | next t => cases h
  | fault g => cases h
  | refused g => exact congrArg _ (eq_of_beq h)

/-- A state with no input meets the invariant where its parts do. -/
theorem inv_of (s : State) (h : s.cfg.wf ∧ s.line = lineOf s.ctrl ∧ s.mem.wf ∧ Memory.below s.mem (2 ^ 32) ∧ s.aram.wf ∧
    Memory.below s.aram s.cfg.aramSize ∧ RegsLegal s.cfg s.arInfo s.arMm s.arAr s.arCnt s.auSrc ∧ s.inbox = []) : s.Inv :=
  ⟨h.1, h.2.1, h.2.2.1, h.2.2.2.1, h.2.2.2.2.1, h.2.2.2.2.2.1, h.2.2.2.2.2.2.1, by rw [h.2.2.2.2.2.2.2]; simp⟩

/-- The statements whose only hypothesis is that the block is live (RegisterReadsReturnTheStore, DirectWritesStoreTheMaskedValue,
InvalidAndUnmappedAccessesChangeNothing, WideAccessOfMixedPairs, CtrlReadMergesTheCoreBits, CtrlWriteAdoptsAndAcknowledges,
LowReadsAndMailboxWritesOnlyCallTheCore, SnapshotHoldsTheItems, ShutdownDropsTheRequests): the three instances, and answers that lie
ready for the clauses about them. -/
theorem witness_live : live.status = .live ∧ liveU.status = .live ∧ liveC.status = .live ∧
    ({ live with answers := [0x1FFFF] } : State).answers = 0x1FFFF :: [] ∧ liveU.cfg.unified = true ∧ live.cfg.unified = false :=
  ⟨rfl, rfl, rfl, rfl, rfl, rfl⟩

theorem witness_EncodeThenDecodeReturnsInstr :
    WellFormed (.wr32 0xFFFC 0xFFFFFFFF) = true ∧ WellFormed (.rd16Unmapped 0xFFFE) = true ∧ WellFormed (.wr16ArCntLo 0xFFFF) = true ∧
    WellFormed (.restore Snapshot.blank [⟨.aramInt, 1, .worker, 2⟩]) = true := by decide

theorem witness_DecodedKeyIsItsEncoding : decode 0x01503C#24 { data := 5 } = .ok (.wr16Unmapped 0x503C 5) := rfl

theorem witness_DecoderSelectsRows :
    ((0x0000#16).toNat % 2 = 0 ∧ ∀ r : Reg, r.offset ≠ 0x0000#16) ∧ ((0xFFFE#16).toNat % 2 = 0 ∧ ∀ r : Reg, r.offset ≠ 0xFFFE#16) ∧
    ((0x0000#16).toNat % 4 = 0 ∧ (0xFFFC#16).toNat % 4 = 0) ∧ 3 ≤ (0x060000#24).toNat / 0x20000 ∧ 3 ≤ (0xFFFFFF#24).toNat / 0x20000 := by
  refine ⟨⟨by decide, ?_⟩, ⟨by decide, ?_⟩, by decide, by decide, by decide⟩ <;> intro r <;> cases r <;> decide

theorem witness_ReservedKeysAreRefused :
    (let s : State := { live with inbox := [⟨.keyed 0x04000B#24 {}, [], [], []⟩] }
     s.inbox = ⟨.keyed 0x04000B#24 {}, [], [], []⟩ :: [] ∧ s.status = .live) ∧
    decode 0x04000B#24 {} = .error (.reservedEncoding (0x04000B#24).toNat) ∧
    decode 0x060000#24 {} = .error (.reservedEncoding (0x060000#24).toNat) ∧
    decode 0x05FFFF#24 {} = .error (.reservedEncoding (0x05FFFF#24).toNat) := ⟨⟨rfl, rfl⟩, rfl, rfl, rfl⟩

/-- The ends of the window, the first odd offset, and both sides of the last offset a key can hold in a wide window. -/
theorem witness_UnsupportedShapesAreRefused :
    live.status = .live ∧
    ({ live with inbox := [⟨.bus .bits8 true 0x0C005000 1, [], [], []⟩] } : State).inbox =
      ⟨.bus .bits8 true 0x0C005000 1, [], [], []⟩ :: [] ∧
    (inWindow live.cfg 0x0C005000 = true ∧ busOffset live.cfg 0x0C005000 % 4 = 0) ∧
    (inWindow live.cfg 0x0C00503F = true ∧ busOffset live.cfg 0x0C00503F % 2 = 1) ∧
    (inWindow live.cfg 0x0C00503E = true ∧ busOffset live.cfg 0x0C00503E % 2 = 0 ∧ busOffset live.cfg 0x0C00503E % 4 ≠ 0) ∧
    (let p : Params := { cfgT with windowBytes := 0x20000 }
     inWindow p 0x0C00FFFC = true ∧ busOffset p 0x0C00FFFC < 0x10000 ∧ busOffset p 0x0C00FFFC % 4 = 0 ∧
     inWindow p 0x0C010000 = true ∧ 0x10000 ≤ busOffset p 0x0C010000 ∧ busOffset p 0x0C010000 % 4 = 0) := by decide

theorem witness_StepRunsTheDecodedInstr :
    (let s : State := { live with inbox := [⟨.keyed 0x040001#24 {}, [], [], [3]⟩] }
     s.inbox = ⟨.keyed 0x040001#24 {}, [], [], [3]⟩ :: []) ∧ decode 0x040001#24 {} = .ok .tick := ⟨rfl, rfl⟩

/-- The addresses on both sides of the window, and nothing presented. -/
theorem witness_OutsideTheWindowNothingHappens :
    (let s : State := { live with inbox := [⟨.bus .bits16 false 0x0C004FFF 0, [], [], []⟩] }
     s.inbox = ⟨.bus .bits16 false 0x0C004FFF 0, [], [], []⟩ :: []) ∧ busOffset live.cfg 0x0C004FFF < 0x5000 ∧
    0x5000 + live.cfg.windowBytes ≤ busOffset live.cfg 0x0C005040 ∧ live.inbox = [] := by decide

theorem witness_StatusGatesEveryStep :
    (Instr.tick ≠ .init ∧ ({ live with status := .shut } : State).status ≠ .live) ∧
    (live.status ≠ .uninit ∧ live.status ≠ .shut) ∧ ({ live with status := .uninit } : State).status = .uninit ∧
    (WellFormed .tick = true ∧ ∃ t, exec .tick live = .next t ∧ t.status = .live) ∧
    (∃ t, exec .shutdown live = .next t ∧ t.status = .shut) ∧ (∀ w, Fault.serializationShapeMismatch ≠ .stuck w) :=
  ⟨by decide, by decide, rfl, ⟨rfl, exists_of_ends (by decide)⟩, exists_of_ends (by decide), by simp⟩

/-- Each stop, from a live block. -/
theorem witness_StopsComeOnlyFromTheirRules :
    exec (.wr16AuCtl 0x8001) { live with auSrc := 0x04000000 } = .fault (.mainUnmapped 0x04000000 32) ∧
    exec (.restore Snapshot.blank []) live = .fault .serializationShapeMismatch ∧
    exec (.fireDspint 3) live = .fault (.stuck (.noEntry 3)) ∧
    exec (.advance 0) { live with now := 1 } = .refused (.timeReversal 0) ∧
    exec (.coreIrq 0 KindSet.empty) live = .refused (.coreKindNotAllowed KindSet.empty) :=
  ⟨fault_of_faults (by decide), fault_of_faults (by decide), fault_of_faults (by decide), refused_of_refuses (by decide),
   refused_of_refuses (by decide)⟩

/-- Both statements over 32-bit accesses: the first and the last offset, and one of neither excluded pair. -/
theorem witness_WideAccesses :
    live.status = .live ∧ (0x0000#16).toNat % 4 = 0 ∧ (0xFFFC#16).toNat % 4 = 0 ∧
    (0x502C#16).toNat % 4 = 0 ∧ (0x502C#16) ≠ 0x5028 ∧ (0x502C#16) ≠ 0x5034 := by decide

/-- The budget at the boundary, on both sides. -/
theorem witness_HighMailboxReadsAccountOneSlice :
    ({ liveC with dspSlice := 73, answers := [1] } : State).answers = 1 :: [] ∧ liveC.cfg.coreCycleStepped = true ∧
    (∃ t, exec .rd16MboxToHi { liveC with dspSlice := 73, answers := [1] } = .next t ∧ t.dspSlice = 1) ∧
    (∃ t, exec .rd16MboxFromHi { liveC with dspSlice := 72, answers := [1] } = .next t ∧ t.dspSlice = 72) :=
  ⟨rfl, rfl, exists_of_ends (by decide), exists_of_ends (by decide)⟩

theorem witness_BudgetMovesOnlyByItsRules :
    (WellFormed .rd16MboxFromHi = true ∧ ∃ t, exec .rd16MboxFromHi { liveC with dspSlice := 73, answers := [1] } = .next t ∧
      t.dspSlice ≠ 73) ∧
    (∃ t, exec (.rd32 0x5000) { liveC with dspSlice := 200, answers := [1, 2] } = .next t ∧ t.dspSlice ≠ 200) ∧
    (∃ t, exec (.sliceCredit 1) live = .next t ∧ t.dspSlice ≠ 0) :=
  ⟨⟨rfl, exists_of_ends (by decide)⟩, exists_of_ends (by decide), exists_of_ends (by decide)⟩

/-- Each kind enabled while pending, and the only one masked. -/
theorem witness_EnablingAssertsAndMaskingKeepsPending :
    (∀ p, p = 3 ∨ p = 5 ∨ p = 7 → (0x00A8#16).getLsbD p = true ∧ (0x0150#16).getLsbD p = false ∧ (0x0150#16).getLsbD (p + 1) = true) ∧
    ((0x0018#16).getLsbD 3 = true ∧ (0x0000#16).getLsbD 3 = false ∧ (0x0000#16).getLsbD 4 = false ∧
      ∀ q, q = 3 ∨ q = 5 ∨ q = 7 → q ≠ 3 →
        ¬((0x0018#16).getLsbD q = true ∧ (0x0000#16).getLsbD q = false ∧ (0x0000#16).getLsbD (q + 1) = true)) := by
  refine ⟨?_, by decide, by decide, by decide, ?_⟩
  · rintro p (rfl | rfl | rfl) <;> decide
  · rintro q (rfl | rfl | rfl) h <;> simp_all

theorem witness_PendingBitsAreSticky :
    (WellFormed (.wr16Ctrl 0x0008) = true ∧ ∃ t, exec (.wr16Ctrl 0x0008) { live with ctrl := 0x0008 } = .next t ∧
      t.ctrl.getLsbD 3 = false) ∧
    (∃ t, exec (.wr32 0x5008 0x0080) { live with ctrl := 0x0080 } = .next t ∧ t.ctrl.getLsbD 7 = false) ∧
    (∃ t, exec (.fireAramint 0) { live with pending := [⟨.aramInt, 0, .emu, 0⟩] } = .next t ∧ t.ctrl.getLsbD 5 = true) :=
  ⟨⟨rfl, exists_of_ends (by decide)⟩, exists_of_ends (by decide), exists_of_ends (by decide)⟩

theorem witness_DmaActMovesOnlyByTriggerAndCompletion :
    (WellFormed (.wr16ArCntLo 0) = true ∧ live.ctrl.getLsbD 9 = false ∧
      ∃ t, exec (.wr16ArCntLo 0) live = .next t ∧ t.ctrl.getLsbD 9 = true) ∧
    (∃ t, exec (.wr32 0x5028 0x8) live = .next t ∧ t.ctrl.getLsbD 9 = true) ∧
    (∃ t, exec (.fireAramint 0) { live with ctrl := 0x0200, pending := [⟨.aramInt, 0, .emu, 0⟩] } = .next t ∧
      t.ctrl.getLsbD 9 = false) :=
  ⟨⟨rfl, by decide, exists_of_ends (by decide)⟩, exists_of_ends (by decide), exists_of_ends (by decide)⟩

theorem witness_EnableBitsHoldTheLastWrite :
    (WellFormed (.wr16Ctrl 0x0150) = true ∧ ∃ t, exec (.wr16Ctrl 0x0150) live = .next t ∧ t.ctrl.getLsbD 8 = true) ∧
    (∃ t, exec (.wr32 0x5008 0x0010) live = .next t ∧ t.ctrl.getLsbD 4 = true) ∧
    (∃ t, exec .tick { live with ctrl := 0x0040 } = .next t ∧ t.ctrl.getLsbD 6 = true) :=
  ⟨⟨rfl, exists_of_ends (by decide)⟩, exists_of_ends (by decide), exists_of_ends (by decide)⟩

theorem witness_LineFollowsTheLatch :
    ({ live with inbox := [⟨.keyed 0x01500A#24 { data := 0x10 }, [], [], []⟩], ctrl := 0x0008 } : State).line = lineOf 0x0008 ∧
    ∃ t, step { live with inbox := [⟨.keyed 0x01500A#24 { data := 0x10 }, [], [], []⟩], ctrl := 0x0008 } = .next t ∧ t.line = true :=
  ⟨by decide, exists_of_ends (by decide)⟩

/-- Counts 0 and 1. -/
theorem witness_EnableEdgeStartsTheAudioDma :
    live.status = .live ∧ live.auCtl.getLsbD 15 = false ∧ (0x8000#16).getLsbD 15 = true ∧ (0x8001#16).getLsbD 15 = true ∧
    (0x8000#16).toNat % 0x8000 = 0 ∧ mainMap live.cfg live.auSrc ((0x8001#16).toNat % 0x8000 * 32) = true := by decide

theorem witness_WithoutAnEdgeTheConfigurationIsBuffered :
    live.status = .live ∧ ({ live with auCtl := 0x8001 } : State).auCtl.getLsbD 15 = true ∧ (0x7FFF#16).getLsbD 15 = false := by decide

/-- The countdown at 2. -/
theorem witness_TicksWithoutReload :
    live.status = .live ∧ live.auCtl.getLsbD 15 = false ∧ ({ live with auCtl := 0x8001 } : State).auCtl.getLsbD 15 = true ∧
    2 ≤ ({ live with auRem := 2 } : State).auRem.toNat := by decide

/-- The countdown at 0 and at 1, the count 0 and 1. -/
theorem witness_LastTickReloads :
    live.status = .live ∧ (0x8001#16).getLsbD 15 = true ∧ (1#15).toNat ≤ 1 ∧ (0#15).toNat ≤ 1 ∧ (0x8000#16).toNat % 0x8000 = 0 ∧
    (0x8001#16).toNat % 0x8000 ≠ 0 ∧ mainMap live.cfg live.auSrc ((0x8001#16).toNat % 0x8000 * 32) = true := by decide

/-- Periods 1 and 2. -/
theorem witness_CountdownRepeatsWithPeriodN :
    (let s : State := { live with auCtl := 0x8001, auRem := 1 }
     s.status = .live ∧ s.auCtl.getLsbD 15 = true ∧ s.auCtl.toNat % 0x8000 = 1 ∧ s.auRem.toNat = 1 ∧ s.auCur = s.auSrc ∧
       mainMap s.cfg s.auSrc (1 * 32) = true) ∧
    (let s : State := { live with auCtl := 0x8002, auRem := 2 }
     s.status = .live ∧ s.auCtl.getLsbD 15 = true ∧ s.auCtl.toNat % 0x8000 = 2 ∧ s.auRem.toNat = 2 ∧ s.auCur = s.auSrc ∧
       mainMap s.cfg s.auSrc (2 * 32) = true) := by decide

theorem witness_StateNoRegisterWrites :
    (WellFormed .tick = true ∧ ∃ t, exec .tick { live with auCtl := 0x8004, auRem := 4 } = .next t ∧ t.auRem ≠ 4) ∧
    (∃ t, exec (.wr32 0x5034 0x8001) { live with auSrc := 0x20 } = .next t ∧ t.auCur ≠ live.auCur) ∧
    (∃ t, exec .init { live with status := .shut, arMode := 0 } = .next t ∧ t.arMode ≠ 0) :=
  ⟨⟨rfl, exists_of_ends (by decide)⟩, exists_of_ends (by decide), exists_of_ends (by decide)⟩

theorem live_inv : live.Inv := inv_of live (by decide)

theorem source_inv : source.Inv := inv_of source (by decide)

/-- The first address beyond the store, and the last granule inside it. -/
theorem witness_TriggerAdvancesTheRegisters :
    (source.status = .live ∧ source.cfg.wf ∧ (triggerAux { source with arAr := 0x00FFFFF8 }).toNat < source.cfg.aramSize ∧
      granulesMapped source.cfg (triggerMain source) (triggerCount 0x20 source)) ∧
    (source.cfg.unified = false ∧ ¬(triggerAux { source with arAr := 0x01000000 }).toNat < source.cfg.aramSize) :=
  ⟨⟨rfl, by decide, by decide, show ∀ k, k < 4 → _ by decide⟩, by decide⟩

/-- Each clause: the push at the edge, at a reload, and the second granule of a transfer over the end of memory. -/
theorem witness_UnmappedMainMemoryFaults :
    (live.auCtl.getLsbD 15 = false ∧ (0x8001#16).getLsbD 15 = true ∧ (0x8001#16).toNat % 0x8000 ≠ 0 ∧
      mainMap live.cfg 0x03FFFFE8 ((0x8001#16).toNat % 0x8000 * 32) = false) ∧
    (let s : State := { live with auCtl := 0x8001, auSrc := 0x04000000 }
     s.auCtl.getLsbD 15 = true ∧ s.auRem.toNat ≤ 1 ∧ s.auCtl.toNat % 0x8000 ≠ 0 ∧
       mainMap s.cfg s.auSrc (s.auCtl.toNat % 0x8000 * 32) = false) ∧
    (let s : State := { live with arMm := 0x03FFFFF8 }
     (triggerAux s).toNat < s.cfg.aramSize ∧ 1 < triggerCount 0x20 s / 8 ∧
       (∀ j, j < 1 → mainMap s.cfg (triggerMain s + BitVec.ofNat 32 (8 * j)) 8 = true) ∧
       mainMap s.cfg (triggerMain s + BitVec.ofNat 32 (8 * 1)) 8 = false) := by decide

/-- The store's last granule (where the run wraps), and under policy 4. -/
theorem witness_MainToAramMovesEveryByte :
    source.Inv ∧ source.status = .live ∧ source.arCnt.getLsbD 31 = false ∧
    (triggerAux { source with arAr := 0x00FFFFF8 }).toNat < source.cfg.aramSize ∧
    granulesMapped source.cfg (triggerMain source) (triggerCount 0x20 source) ∧
    ({ source with arInfo := 4 } : State).arInfo.toNat % 16 = 4 ∧ 31 < triggerCount 0x20 source ∧
    triggerCount 0x20 source ≤ 0 + source.cfg.aramSize :=
  ⟨source_inv, rfl, by decide, by decide, show ∀ k, k < 4 → _ by decide, by decide, by decide, by decide⟩

/-- The last granule below the limit. -/
theorem witness_PolicyFourMirrorsBelowTheLimit :
    let s : State := { source with arInfo := 4, arAr := 0x003FFFE0 }
    s.Inv ∧ s.status = .live ∧ s.arCnt.getLsbD 31 = false ∧ (triggerAux s).toNat < s.cfg.aramSize ∧
    granulesMapped s.cfg (triggerMain s) (triggerCount 0x40 s) ∧ s.arInfo.toNat % 16 = 4 ∧ 0x800000 ≤ s.cfg.aramSize ∧
    31 < triggerCount 0x40 s ∧ (triggerAux s).toNat + 31 / 8 * 8 < 0x400000 ∧ triggerCount 0x40 s ≤ 31 + 0x400000 :=
  ⟨inv_of _ (by decide), rfl, by decide, by decide, show ∀ k, k < 8 → _ by decide, by decide, by decide, by decide, by decide,
   by decide⟩

/-- The other direction, and the secondary bus both ways. -/
theorem witness_OtherTransfers :
    (let s : State := { source with arCnt := 0x80000000 }
     s.Inv ∧ s.status = .live ∧ s.arCnt.getLsbD 31 = true ∧ (triggerAux s).toNat < s.cfg.aramSize ∧
     granulesMapped s.cfg (triggerMain s) (triggerCount 0x20 s)) ∧
    (let s : State := { source with arAr := 0x01000000 }
     s.status = .live ∧ s.cfg.unified = false ∧ s.arCnt.getLsbD 31 = false ∧ s.cfg.aramSize ≤ (triggerAux s).toNat ∧
     granulesMapped s.cfg (triggerMain s) (triggerCount 0x20 s)) ∧
    (let s : State := { source with arAr := 0x01000000, arCnt := 0x80000000, answers := [1] }
     s.Inv ∧ s.status = .live ∧ s.cfg.unified = false ∧ s.arCnt.getLsbD 31 = true ∧ s.cfg.aramSize ≤ (triggerAux s).toNat ∧
     granulesMapped s.cfg (triggerMain s) (triggerCount 0x20 s) ∧ 0 < triggerCount 0x20 s / 8 ∧ s.answers[0]? = some 1) :=
  ⟨⟨inv_of _ (by decide), rfl, by decide, by decide, show ∀ k, k < 4 → _ by decide⟩,
   ⟨rfl, rfl, by decide, by decide, show ∀ k, k < 4 → _ by decide⟩,
   ⟨inv_of _ (by decide), rfl, rfl, by decide, by decide, show ∀ k, k < 4 → _ by decide, by decide, rfl⟩⟩

theorem witness_DwordsAreBigEndian :
    (List.replicate 8 (0x5A : Byte)).length = 8 ∧ (List.replicate 8 (0x5A : Byte))[0]? = some 0x5A ∧
    (List.replicate 8 (0x5A : Byte))[7]? = some 0x5A := by decide

theorem witness_UnifiedOutsideTheStoreMovesNothing :
    let s : State := { liveU with arAr := 0x01000000 }
    s.status = .live ∧ s.cfg.unified = true ∧ s.cfg.aramSize ≤ (triggerAux s).toNat := by decide

theorem witness_OnlyTheTriggerMovesMemory :
    WellFormed (.wr32 0x5024 7) = true ∧ (∃ t, exec (.wr32 0x5024 7) source = .next t ∧ t.mem = source.mem) ∧
    (∀ v, Instr.wr32 0x5024 7 ≠ .wr16ArCntLo v) ∧ (∀ d, Instr.wr32 0x5024 7 ≠ .wr32 0x5028 d) ∧
    Instr.wr32 0x5024 7 ≠ .init ∧ Instr.wr32 0x5024 7 ≠ .shutdown ∧ (∀ snap q, Instr.wr32 0x5024 7 ≠ .restore snap q) :=
  ⟨rfl, exists_of_ends (by decide), by simp, by simp, by simp, by simp, by simp⟩

/-- The scheduler may deliver, as a check. -/
theorem mayFire_of {kind : EventKind} {seq : Nat} {s : State} {e : Entry} (h : mayDeliver kind seq s e = true) :
    mayFire kind seq s e := mayDeliver_iff.1 h

theorem not_mayFire_of {kind : EventKind} {seq : Nat} {s : State} {l : List Entry} (h : l.all (fun e => !mayDeliver kind seq s e) = true) :
    ∀ e ∈ l, ¬mayFire kind seq s e := by
  intro e he hm
  simpa [mayDeliver_iff.2 hm] using List.all_eq_true.1 h e he

/-- Due exactly now; an earlier entry of the other kind, an earlier `seq` with a later due, and a second entry of the `seq` ahead of time;
then two that may both be delivered. -/
theorem witness_CompletionClearsDmaActAndRaisesB :
    (let pre : List Entry := [⟨.dspInt KindSet.kindA, 200, .emu, 0⟩, ⟨.aramInt, 500, .emu, 1⟩, ⟨.aramInt, 247, .worker, 2⟩]
     let s : State := { live with now := 246, pending := pre ++ ⟨.aramInt, 246, .emu, 2⟩ :: [] }
     s.status = .live ∧ s.pending = pre ++ ⟨.aramInt, 246, .emu, 2⟩ :: [] ∧ mayFire .aramInt 2 s ⟨.aramInt, 246, .emu, 2⟩ ∧
       ∀ x ∈ pre ++ [], ¬mayFire .aramInt 2 s x) ∧
    (let s : State := { live with now := 9, answers := [1], pending := [⟨.aramInt, 8, .emu, 2⟩, ⟨.aramInt, 9, .worker, 2⟩] }
     mayFire .aramInt 2 s ⟨.aramInt, 8, .emu, 2⟩ ∧ mayFire .aramInt 2 s ⟨.aramInt, 9, .worker, 2⟩) :=
  ⟨⟨rfl, rfl, mayFire_of (by decide), not_mayFire_of (by decide)⟩, mayFire_of (by decide), mayFire_of (by decide)⟩

theorem witness_DeliveryRaisesTheRequestedKinds :
    (let s : State := { live with now := 50, pending := [] ++ ⟨.dspInt KindSet.kindC, 50, .worker, 0⟩ :: [⟨.aramInt, 60, .emu, 1⟩] }
     s.status = .live ∧ s.pending = [] ++ ⟨.dspInt KindSet.kindC, 50, .worker, 0⟩ :: [⟨.aramInt, 60, .emu, 1⟩] ∧
     mayFire .dspInt 0 s ⟨.dspInt KindSet.kindC, 50, .worker, 0⟩ ∧
     ∀ x ∈ [] ++ [(⟨.aramInt, 60, .emu, 1⟩ : Entry)], ¬mayFire .dspInt 0 s x) ∧
    (let s : State := { live with now := 9, answers := [1], pending :=
        [⟨.dspInt KindSet.kindA, 8, .emu, 2⟩, ⟨.dspInt KindSet.kindC, 9, .worker, 2⟩] }
     ∃ e ∈ s.pending, mayFire .dspInt 2 s e) :=
  ⟨⟨rfl, rfl, mayFire_of (by decide), not_mayFire_of (by decide)⟩,
   ⟨.dspInt KindSet.kindC, 9, .worker, 2⟩, by simp, mayFire_of (by decide)⟩

/-- No entry; one cycle early; behind an equal due; and one that may be delivered beside it. -/
theorem witness_DeliveryWaitsForTimeAndOrder :
    (∀ e ∈ live.pending, kindOf e.what = .aramInt → e.seq ≠ 0) ∧
    (let s : State := { live with now := 99, pending := [⟨.aramInt, 50, .emu, 0⟩, ⟨.aramInt, 100, .emu, 1⟩] }
     (∃ e ∈ s.pending, kindOf e.what = .aramInt ∧ e.seq = 1) ∧
     ∀ e ∈ s.pending, kindOf e.what = .aramInt → e.seq = 1 → s.now < e.due) ∧
    (let s : State := { live with now := 50, pending := [⟨.aramInt, 50, .emu, 0⟩, ⟨.aramInt, 50, .emu, 1⟩] }
     (∃ e ∈ s.pending, kindOf e.what = .aramInt ∧ e.seq = 1 ∧ e.due ≤ s.now) ∧
     (∀ e ∈ s.pending, kindOf e.what = .aramInt → e.seq = 1 → e.due ≤ s.now →
       ∃ x ∈ s.pending, kindOf x.what = .aramInt ∧ x.origin = e.origin ∧ x.seq < 1 ∧ x.due ≤ e.due) ∧
     mayFire .aramInt 0 s ⟨.aramInt, 50, .emu, 0⟩) :=
  ⟨by decide, by decide, by decide, by decide, mayFire_of (by decide)⟩

theorem witness_CoreRequestOnlyAppends :
    (live.status = .live ∧ KindSet.kindC ≠ ⟨false, false, false⟩ ∧ (KindSet.kindC.a = true → live.cfg.coreIrqKinds.a = true) ∧
      (KindSet.kindC.b = true → live.cfg.coreIrqKinds.b = true) ∧ (KindSet.kindC.c = true → live.cfg.coreIrqKinds.c = true)) ∧
    (KindSet.kindA.a = true ∧ live.cfg.coreIrqKinds.a = false) ∧ (KindSet.kindB.b = true ∧ live.cfg.coreIrqKinds.b = false) ∧
    (KindSet.kindC.c = true ∧ ({ cfgT with coreIrqKinds := KindSet.kindA } : Params).coreIrqKinds.c = false) := by decide

/-- Time equal and one below. -/
theorem witness_CreditAndAdvanceMoveTheirCounters :
    let s : State := { live with now := 5 }
    s.status = .live ∧ s.now ≤ 5 ∧ 4 < s.now := by decide

theorem witness_OnlyAdvanceMovesTime : WellFormed (.advance 6) = true ∧ ∃ t, exec (.advance 6) live = .next t ∧ t.now ≠ live.now :=
  ⟨rfl, exists_of_ends (by decide)⟩

theorem witness_NothingCancelsARequest :
    let e : Entry := ⟨.aramInt, 0, .emu, 3⟩
    WellFormed (.fireAramint 3) = true ∧ e ∈ ({ live with pending := [e] } : State).pending ∧
    ∃ t, exec (.fireAramint 3) { live with pending := [e] } = .next t ∧ e ∉ t.pending :=
  ⟨rfl, by decide, exists_of_ends (by decide)⟩

/-- A snapshot of the right shape, dedicated and unified, and wrong ones. -/
theorem witness_RestoreLoadsOrFaults :
    let snap : Snapshot := { Snapshot.blank with aram := some ⟨0x01000000, [(5, 6)]⟩, core := ⟨7, 0⟩ }
    live.status = .live ∧ (snap.aram.map (fun i => i.size) = (if live.cfg.unified then none else some live.cfg.aramSize) ∧
      snap.core.shape = live.cfg.coreShape ∧ snap.aram = some ⟨0x01000000, [(5, 6)]⟩ ∧ Memory.wf [(5, 6)] ∧ 0xFFFFFF < 0x01000000) ∧
    (({ snap with aram := none } : Snapshot).aram.map (fun i => i.size) =
      (if liveU.cfg.unified then none else some liveU.cfg.aramSize)) ∧
    (Snapshot.blank.aram.map (fun i => i.size) ≠ (if live.cfg.unified then none else some live.cfg.aramSize)) ∧
    Snapshot.blank.core.shape ≠ live.cfg.coreShape := by decide

theorem witness_RestoreUndoesSnapshot :
    source.Inv ∧ source.status = .live ∧ live.status = .live ∧ live.cfg = source.cfg ∧
    ∃ t, exec .snapshot { source with answers := [1] } = .next t ∧ t.reply = .snapshot (snapshotOf { source with answers := [1] }) :=
  ⟨source_inv, rfl, rfl, rfl, exists_of_ends (by decide)⟩

theorem witness_InitLeavesTheResetValues :
    ({ live with status := .uninit } : State).status = .uninit ∧ ({ liveU with status := .shut } : State).status = .shut ∧
    liveU.cfg.unified = true := by decide

theorem witness_NothingSurvivesAPowerCycle :
    live.cfg = source.cfg ∧ live.status = .live ∧ source.status = .live ∧ liveU.cfg.unified = true := by decide

theorem witness_ParametersStayAndTheLogOnlyGrows :
    ∃ t, step { live with inbox := [⟨.keyed 0x040001#24 {}, [], [], []⟩] } = .next t ∧ t.log ≠ [] := exists_of_ends (by decide)

/-- A state with an input meets the invariant and steps. -/
theorem witness_EveryStepKeepsTheInvariant :
    ({ source with inbox := [⟨.keyed 0x01502A#24 { data := 0x20 }, [(0x1000, 9)], [], []⟩] } : State).Inv ∧
    ∃ t, step { source with inbox := [⟨.keyed 0x01502A#24 { data := 0x20 }, [(0x1000, 9)], [], []⟩] } = .next t ∧ t.aram.read 0 = 9 := by
  refine ⟨⟨source_inv.cfg, source_inv.line, source_inv.memWf, source_inv.memBelow, source_inv.aramWf, source_inv.aramBelow,
    source_inv.regs, ?_⟩, exists_of_ends (by decide)⟩
  intro x hx
  rw [List.mem_singleton.mp hx]
  exact (by decide : SnapLegal cfgT Snapshot.blank)

end Sys2Proof.Tests
end

section
/-! What decodes is well formed, so that a claim over all steps follows from a claim over the effects of well-formed
instructions. -/

namespace Sys2Proof

theorem Reg.rd16_wellFormed (r : Reg) : WellFormed r.rd16 = true := by cases r <;> rfl

theorem Reg.wr16_wellFormed (r : Reg) (v : Half) : WellFormed (r.wr16 v) = true := by cases r <;> rfl

theorem decodeBus16_wellFormed {w : Bool} {off : Half} {op : Operand} {i : Instr} (h : decodeBus16 w off op = .ok i) :
    WellFormed i = true := by
  unfold decodeBus16 at h
  split at h
  · next r _ =>
    obtain rfl := Except.ok.inj h
    cases w
    · exact r.rd16_wellFormed
    · exact r.wr16_wellFormed op.half
  · next hnone =>
    split at h
    · cases h
    · next hodd =>
      have heven : off.getLsbD 0 = false := Bool.eq_false_of_not_eq_true hodd
      obtain rfl := Except.ok.inj h
      have hoff : unmappedOffset off = true := by simp only [unmappedOffset, hnone, heven]; rfl
      cases w <;> exact hoff

theorem decodeBus32_wellFormed {w : Bool} {off : Half} {op : Operand} {i : Instr} (h : decodeBus32 w off op = .ok i) :
    WellFormed i = true := by
  unfold decodeBus32 at h
  split at h
  · next haligned =>
    obtain rfl := Except.ok.inj h
    have hoff : wideOffset off = true := beq_iff_eq.2 haligned
    cases w <;> exact hoff
  · cases h

theorem decodeEvent_wellFormed {key : Nat} {code : Half} {op : Operand} {i : Instr} (h : decodeEvent key code op = .ok i) :
    WellFormed i = true := by
  unfold decodeEvent at h
  split at h <;> cases h <;> rfl

/-- The decoder answers well-formed instructions only, class by class (spec 30_encoding.md R116). -/
theorem decode_wellFormed {word : BitVec 24} {op : Operand} {i : Instr} (h : decode word op = .ok i) : WellFormed i = true := by
  unfold decode at h
  split at h
  · exact decodeBus16_wellFormed h
  · exact decodeBus32_wellFormed h
  · split at h
    · cases h
    · exact decodeEvent_wellFormed h
  · cases h

namespace Machine

theorem fetchedOf_eq_run {e : Except DecodeError Instr} {i : Instr} : fetchedOf e = .run i ↔ e = .ok i := by
  cases e <;> simp [fetchedOf]

theorem fetchBus_wellFormed {width : Width} {write : Bool} {off : Nat} {data : Word} {i : Instr}
    (h : fetchBus width write off data = .run i) : WellFormed i = true := by
  cases width with
  | bits8 => cases h
  | bits16 | bits32 =>
    simp only [fetchBus] at h
    split at h
    · exact decode_wellFormed (fetchedOf_eq_run.1 h)
    · cases h

/-- Whatever the way a step is presented, an instruction the fetch answers is well formed. -/
theorem fetch_wellFormed {p : Params} {x : Presented} {i : Instr} (h : fetch p x = .run i) : WellFormed i = true := by
  cases x with
  | keyed word operand => exact decode_wellFormed (fetchedOf_eq_run.1 h)
  | bus width write addr data =>
    simp only [fetch] at h
    split at h
    · exact fetchBus_wellFormed h
    · cases h

/-- A step that answers a next state waited, passed an access that is not the block's, or ran a well-formed instruction. -/
theorem step_cases {s t : State} (h : step s = .next t) :
    (s.inbox = [] ∧ t = s) ∨
    ∃ p rest, s.inbox = p :: rest ∧
      ((fetch s.cfg p.what = .elsewhere ∧ t = (arrive p rest s).replied .none) ∨
       ∃ i, fetch s.cfg p.what = .run i ∧ WellFormed i = true ∧ exec i (arrive p rest s) = .next t) := by
  unfold step at h
  split at h
  · next hin => exact .inl ⟨hin, (Host.Outcome.next.inj h).symm⟩
  · next p rest hin =>
    refine .inr ⟨p, rest, hin, ?_⟩
    split at h
    · next he => exact .inl ⟨he, (Host.Outcome.next.inj h).symm⟩
    · cases (whenLive_eq_next.1 h).2
    · next i hrun => exact .inr ⟨i, hrun, fetch_wellFormed hrun, h⟩

/-- `INIT` answers a next state exactly before the first init and after a shutdown (45_host_events.md R310). -/
theorem execInit_eq_next {s t : State} :
    exec .init s = .next t ↔ (s.status = .uninit ∨ s.status = .shut) ∧ t = (initialised s).replied .none := by
  show execInit s = .next t ↔ _
  unfold execInit
  split
  · next hs => exact ⟨fun h => ⟨hs, (Host.Outcome.next.inj h).symm⟩, fun ⟨_, ht⟩ => ht ▸ rfl⟩
  · next hs => simp [hs]

end Machine
end Sys2Proof
end

section
/-! The instance's parameters and the record along a step (spec 00_scope.md R13, 10_state.md R60). -/

namespace Sys2Proof.Machine

/-- The parameters are the same, and the record of the first state begins that of the second. -/
structure State.GrowsTo (s t : State) : Prop where
  cfg : t.cfg = s.cfg
  log : s.log <+: t.log

theorem growsTo_of_append {s t : State} {l : List LogEntry} (hcfg : t.cfg = s.cfg) (hlog : t.log = s.log ++ l) : s.GrowsTo t :=
  ⟨hcfg, l, hlog.symm⟩

theorem growsTo_of_same_log {s t : State} (hcfg : t.cfg = s.cfg) (hlog : t.log = s.log) : s.GrowsTo t :=
  ⟨hcfg, hlog ▸ List.prefix_rfl⟩

theorem State.GrowsTo.replied {s t : State} (h : s.GrowsTo t) (r : Reply) : s.GrowsTo (t.replied r) := ⟨h.cfg, h.log⟩

theorem wrArCntLo_growsTo {v : Half} {s t : State} (h : wrArCntLo v s = .ok t) : s.GrowsTo t := by
  obtain ⟨_, _, l, _, _, _, _, _, rfl⟩ := wrArCntLo_frame h
  exact growsTo_of_append rfl rfl

theorem wrAuCtl_growsTo {v : Half} {s t : State} (h : wrAuCtl v s = .ok t) : s.GrowsTo t := by
  obtain ⟨-, rfl⟩ | ⟨-, l, rfl⟩ := wrAuCtl_frame h
  · exact growsTo_of_same_log rfl rfl
  · exact growsTo_of_append rfl rfl

theorem tickOp_growsTo {s t : State} (h : tickOp s = .ok t) : s.GrowsTo t := by
  obtain ⟨l, rfl⟩ | ⟨_, _, rfl⟩ | ⟨_, _, l, rfl⟩ := tickOp_frame h
  · exact growsTo_of_append rfl rfl
  · exact growsTo_of_same_log rfl rfl
  · exact growsTo_of_append rfl rfl

/-- The state a trigger meets has the parameters and the record of the state its row meets. -/
theorem triggerRow_growsTo {i : Instr} {v : Half} {s u t : State} (hrow : triggerRow i v s u) (h : u.GrowsTo t) : s.GrowsTo t := by
  obtain ⟨-, rfl⟩ | ⟨_, -, -, rfl⟩ := hrow
  · exact h
  · exact ⟨h.cfg, h.log⟩

/-- Every effect but `INIT`'s adds to the record; none touches the parameters. -/
theorem Effect.growsTo {i : Instr} {s t : State} (he : Effect i s t) (hi : i ≠ .init) : s.GrowsTo t := by
  cases he with
  | init => exact absurd rfl hi
  | trigger _ _ _ _ _ hrow hop => exact (triggerRow_growsTo hrow (wrArCntLo_growsTo hop)).replied _
  | auCtl _ _ _ _ _ hop => exact (wrAuCtl_growsTo hop).replied _
  | tick _ _ hop => exact (tickOp_growsTo hop).replied _
  | sliceCredit | advance => exact growsTo_of_same_log rfl rfl
  | plain | ctrl | fireDspint | fireAramint | coreIrq | shutdown | snapshot | restore => exact growsTo_of_append rfl rfl

/-- `INIT` keeps the parameters and starts the record anew, on a block that is not live (10_state.md R66). -/
theorem execInit_cfg_log {s t : State} (h : exec .init s = .next t) : t.cfg = s.cfg ∧ t.log = [] ∧ s.status ≠ .live := by
  obtain ⟨hstatus, rfl⟩ := execInit_eq_next.1 h
  refine ⟨rfl, rfl, fun hlive => ?_⟩
  rcases hstatus with hs | hs <;> cases hlive.symm.trans hs

/-- Settles O57: a step waits, passes an access, runs `INIT`, or runs an instruction whose effect adds to the record. -/
theorem parametersStayAndTheLogOnlyGrows : Obligations.ParametersStayAndTheLogOnlyGrows := by
  intro s t h
  obtain ⟨-, rfl⟩ | ⟨p, rest, -, ⟨-, rfl⟩ | ⟨i, -, hw, hx⟩⟩ := step_cases h
  · exact ⟨rfl, .inl ⟨[], (List.append_nil _).symm⟩⟩
  · exact ⟨rfl, .inl ⟨[], (List.append_nil _).symm⟩⟩
  · by_cases hi : i = .init
    · subst hi
      obtain ⟨hcfg, hlog, hs⟩ := execInit_cfg_log hx
      exact ⟨hcfg, .inr ⟨hlog, hs⟩⟩
    · obtain ⟨hcfg, extra, hlog⟩ := (exec_effect hw hx).growsTo hi
      exact ⟨hcfg, .inl ⟨extra, hlog.symm⟩⟩

end Sys2Proof.Machine
end

section
/-! The frame of every effect (spec 00_scope.md R13, 10_state.md R42, R50, R51, R61, R62): the parameters, the inbox, and what moves
the status, the budget and the state no register write reaches. -/

namespace Sys2Proof.Machine

theorem loHalf_getLsbD (d : Word) {p : Nat} (hp : p < 16) : (loHalf d).getLsbD p = d.getLsbD p := by
  simp [loHalf, hp]

/-- The rows that trigger an ARAM DMA. -/
def armsDma (i : Instr) : Prop := (∃ v, i = .wr16ArCntLo v) ∨ ∃ d, i = .wr32 0x5028 d

theorem triggerRow.armsDma {i : Instr} {v : Half} {s u : State} (h : triggerRow i v s u) : armsDma i := by
  obtain ⟨rfl, -⟩ | ⟨d, rfl, -, -⟩ := h
  · exact .inl ⟨v, rfl⟩
  · exact .inr ⟨d, rfl⟩

/-- Everything a row that triggers and completes can do, from the state the row meets. -/
theorem triggerRow_frame {i : Instr} {v : Half} {s u t : State} (hrow : triggerRow i v s u) (hop : wrArCntLo v u = .ok t) :
    ∃ m a l x d mm ar c due, t = { s with
      mem := m, aram := a, log := s.log ++ l, answers := x, draws := d, arMm := mm, arAr := ar, arCnt := c
      ctrl := s.ctrl ||| dmaActBit
      line := lineOf (s.ctrl ||| dmaActBit)
      pending := s.pending ++ [⟨.aramInt, due, .emu, s.nextSeq⟩]
      nextSeq := s.nextSeq + 1 } := by
  obtain ⟨m, a, l, x, d, mm, ar, c, rfl⟩ := wrArCntLo_frame hop
  obtain ⟨-, rfl⟩ | ⟨_, -, -, rfl⟩ := hrow <;> exact ⟨m, a, l, x, d, mm, ar, c, _, rfl⟩

/-- What every instruction that answers a next state leaves, or moves by its own rule. -/
structure EffectFrame (i : Instr) (s t : State) : Prop where
  cfg : t.cfg = s.cfg
  inbox : t.inbox = s.inbox
  status : t.status = s.status ∨ (i = .init ∧ t.status = .live) ∨ (i = .shutdown ∧ t.status = .shut)
  budget : t.dspSlice = s.dspSlice ∨ (budgetRow i ∧ t.dspSlice = s.dspSlice - 72) ∨
    (∃ n, i = .sliceCredit n ∧ t.dspSlice = s.dspSlice + n) ∨ i = .init ∨ ∃ snap q, i = .restore snap q
  arMode : t.arMode = s.arMode ∨ i = .init ∨ ∃ snap q, i = .restore snap q

theorem Effect.frame {i : Instr} {s t : State} (he : Effect i s t) : EffectFrame i s t := by
  cases he with
  | plain _ _ c _ _ _ _ _ _ _ _ _ _ _ _ hslice =>
    refine ⟨rfl, rfl, .inl rfl, ?_, .inl rfl⟩
    by_cases hc : c = s.dspSlice
    · exact .inl hc
    · obtain ⟨hrow, -, -, hc⟩ := hslice hc
      exact .inr (.inl ⟨hrow, hc⟩)
  | trigger _ _ _ _ _ hrow hop =>
    obtain ⟨_, _, _, _, _, _, _, _, _, rfl⟩ := triggerRow_frame hrow hop
    exact ⟨rfl, rfl, .inl rfl, .inl rfl, .inl rfl⟩
  | auCtl _ _ _ _ _ hop =>
    obtain ⟨-, rfl⟩ | ⟨-, _, rfl⟩ := wrAuCtl_frame hop <;> exact ⟨rfl, rfl, .inl rfl, .inl rfl, .inl rfl⟩
  | tick _ _ hop =>
    obtain ⟨_, rfl⟩ | ⟨_, _, rfl⟩ | ⟨_, _, _, rfl⟩ := tickOp_frame hop <;> exact ⟨rfl, rfl, .inl rfl, .inl rfl, .inl rfl⟩
  | sliceCredit n => exact ⟨rfl, rfl, .inl rfl, .inr (.inr (.inl ⟨n, rfl, rfl⟩)), .inl rfl⟩
  | init => exact ⟨rfl, rfl, .inr (.inl ⟨rfl, rfl⟩), .inr (.inr (.inr (.inl rfl))), .inr (.inl rfl)⟩
  | shutdown => exact ⟨rfl, rfl, .inr (.inr ⟨rfl, rfl⟩), .inl rfl, .inl rfl⟩
  | restore snap q => exact ⟨rfl, rfl, .inl rfl, .inr (.inr (.inr (.inr ⟨snap, q, rfl⟩))), .inr (.inr ⟨snap, q, rfl⟩)⟩
  | ctrl | fireDspint | fireAramint | coreIrq | advance | snapshot => exact ⟨rfl, rfl, .inl rfl, .inl rfl, .inl rfl⟩

/-- Settles O19, by what moves the budget in each effect. -/
theorem budgetMovesOnlyByItsRules : Obligations.BudgetMovesOnlyByItsRules :=
  fun _ _ _ hw hx => (exec_effect hw hx).frame.budget.resolve_left

/-- The cursor and the countdown stay but for a tick, the enable edge, `INIT` and `RESTORE` (R50, R51). -/
theorem Effect.cursor_moves {i : Instr} {s t : State} (he : Effect i s t) :
    (t.auCur = s.auCur ∧ t.auRem = s.auRem) ∨ i = .tick ∨
      (∃ v, auCtlRow i v ∧ s.auCtl.getLsbD 15 = false ∧ v.getLsbD 15 = true) ∨ i = .init ∨ ∃ snap q, i = .restore snap q := by
  cases he with
  | tick => exact .inr (.inl rfl)
  | auCtl _ _ _ v hrow hop =>
    obtain ⟨-, rfl⟩ | ⟨hedge, -⟩ := wrAuCtl_frame hop
    · exact .inl ⟨rfl, rfl⟩
    · exact .inr (.inr (.inl ⟨v, hrow, hedge⟩))
  | init => exact .inr (.inr (.inr (.inl rfl)))
  | restore snap q => exact .inr (.inr (.inr (.inr ⟨snap, q, rfl⟩)))
  | trigger _ _ _ _ _ hrow hop =>
    obtain ⟨_, _, _, _, _, _, _, _, _, rfl⟩ := triggerRow_frame hrow hop
    exact .inl ⟨rfl, rfl⟩
  | _ => exact .inl ⟨rfl, rfl⟩

/-- Settles O33, by what moves the cursor, the countdown and the controller-ready register in each effect. -/
theorem stateNoRegisterWrites : Obligations.StateNoRegisterWrites := by
  intro i s t hw hx
  have he := exec_effect hw hx
  refine ⟨fun h => ?_, he.frame.arMode.resolve_left⟩
  obtain ⟨hcur, hrem⟩ | hi | ⟨v, rfl | ⟨d, rfl, rfl⟩, hoff, hon⟩ | hi := he.cursor_moves
  · exact absurd h (by simp [hcur, hrem])
  · exact .inl hi
  · exact .inr (.inl ⟨v, rfl, hoff, hon⟩)
  · exact .inr (.inr (.inl ⟨d, rfl, hoff, loHalf_getLsbD d (p := 15) (by decide) ▸ hon⟩))
  · exact .inr (.inr (.inr hi))

end Sys2Proof.Machine
end

section
/-! The interrupt latch along a step: what each instruction can leave in ControlRegister (spec 10_state.md R35, R36, R38), and that
the line follows it (R59). -/

namespace Sys2Proof.Machine

/-- The rows that can leave ControlRegister as it was: none that writes it, arms a transfer or completes one. -/
def leavesCtrl (i : Instr) : Prop := (∀ v, ¬ctrlRow i v) ∧ ¬armsDma i ∧ ∀ seq, i ≠ .fireAramint seq

theorem leavesCtrl_of_plainRow {i : Instr} (h : plainRow i = true) : leavesCtrl i := by
  refine ⟨?_, ?_, ?_⟩
  · rintro v (rfl | ⟨d, rfl, -⟩) <;> cases h
  · rintro (⟨v, rfl⟩ | ⟨d, rfl⟩) <;> cases h
  · rintro seq rfl
    cases h

theorem leavesCtrl_of_auCtlRow {i : Instr} {v : Half} (h : auCtlRow i v) : leavesCtrl i := by
  obtain rfl | ⟨d, rfl, -⟩ := h <;> simp [leavesCtrl, ctrlRow, armsDma]

/-- What an instruction does to ControlRegister, from the value before to the value after. -/
inductive CtrlEffect : Instr → Half → Half → Prop
  | kept (i : Instr) (c : Half) : leavesCtrl i → CtrlEffect i c c
  | written (i : Instr) (c v : Half) : ctrlRow i v → CtrlEffect i c (ctrlWritten c v)
  | armed (i : Instr) (c : Half) : armsDma i → CtrlEffect i c (c ||| dmaActBit)
  | ticked (c : Half) : CtrlEffect .tick c (c ||| (KindSet.kindA.bits &&& kindBits))
  | delivered (seq : Nat) (c : Half) (kinds : KindSet) : CtrlEffect (.fireDspint seq) c (c ||| (kinds.bits &&& kindBits))
  | completed (seq : Nat) (c : Half) :
      CtrlEffect (.fireAramint seq) c ((c &&& ~~~dmaActBit) ||| (KindSet.kindB.bits &&& kindBits))
  | initialised (c : Half) : CtrlEffect .init c 0x0004
  | restored (snap : Snapshot) (queue : List Entry) (c : Half) : CtrlEffect (.restore snap queue) c snap.ctrl

theorem Effect.ctrlEffect {i : Instr} {s t : State} (he : Effect i s t) : CtrlEffect i s.ctrl t.ctrl := by
  cases he with
  | plain _ _ _ _ _ _ _ _ _ _ _ _ _ hrow => exact .kept _ _ (leavesCtrl_of_plainRow hrow)
  | ctrl _ _ v _ _ _ hrow => exact .written _ _ v hrow
  | trigger _ _ _ _ _ hrow hop =>
    obtain ⟨_, _, _, _, _, _, _, _, _, rfl⟩ := triggerRow_frame hrow hop
    exact .armed _ _ hrow.armsDma
  | auCtl _ _ _ _ hrow hop =>
    obtain ⟨-, rfl⟩ | ⟨-, _, rfl⟩ := wrAuCtl_frame hop <;> exact .kept _ _ (leavesCtrl_of_auCtlRow hrow)
  | tick _ _ hop =>
    obtain ⟨_, rfl⟩ | ⟨_, _, rfl⟩ | ⟨_, _, _, rfl⟩ := tickOp_frame hop
    · exact .kept _ _ (by simp [leavesCtrl, ctrlRow, armsDma])
    · exact .kept _ _ (by simp [leavesCtrl, ctrlRow, armsDma])
    · exact .ticked _
  | fireDspint => exact .delivered _ _ _
  | fireAramint => exact .completed _ _
  | coreIrq | sliceCredit | advance | shutdown | snapshot => exact .kept _ _ (by simp [leavesCtrl, ctrlRow, armsDma])
  | init => exact .initialised _
  | restore => exact .restored _ _ _

/-- Every instruction that answers a next state leaves a line that follows the latch, if it met one. -/
theorem Effect.line_eq {i : Instr} {s t : State} (he : Effect i s t) (h : s.line = lineOf s.ctrl) : t.line = lineOf t.ctrl := by
  cases he with
  | trigger _ _ _ _ _ hrow hop =>
    obtain ⟨_, _, _, _, _, _, _, _, _, rfl⟩ := triggerRow_frame hrow hop
    rfl
  | auCtl _ _ _ _ _ hop => obtain ⟨-, rfl⟩ | ⟨-, _, rfl⟩ := wrAuCtl_frame hop <;> exact h
  | tick _ _ hop =>
    obtain ⟨_, rfl⟩ | ⟨_, _, rfl⟩ | ⟨_, _, _, rfl⟩ := tickOp_frame hop
    · exact h
    · exact h
    · rfl
  | plain | coreIrq | sliceCredit | advance | shutdown | snapshot => exact h
  | ctrl | fireDspint | fireAramint | restore => rfl
  | init => exact (by decide : false = lineOf 0x0004)

/-- Settles O27: a step waits, passes an access, or runs an instruction whose effect leaves a line that follows the latch. -/
theorem lineFollowsTheLatch : Obligations.LineFollowsTheLatch := by
  intro s t hline h
  obtain ⟨-, rfl⟩ | ⟨p, rest, -, ⟨-, rfl⟩ | ⟨i, -, hw, hx⟩⟩ := step_cases h
  · exact hline
  · exact hline
  · exact (exec_effect hw hx).line_eq hline

end Sys2Proof.Machine
end

section
/-! ControlRegister bit by bit (spec 10_state.md R35, R36, R38): the pending bits 3, 5, 7, `DMA_ACT` at bit 9, and the enable bits 4, 6,
8, under each thing an instruction can do to the register. -/

namespace Sys2Proof.Machine

/-- Clearing `DMA_ACT` keeps every other bit. -/
theorem clearDmaAct_getLsbD (c : Half) {p : Nat} (hp : p < 16) (h : dmaActBit.getLsbD p = false) :
    (c &&& ~~~dmaActBit).getLsbD p = c.getLsbD p := by
  rw [BitVec.getLsbD_and, BitVec.getLsbD_not, h, decide_eq_true hp, Bool.not_false, Bool.and_true, Bool.and_true]

/-! ## Pending bits -/

theorem ctrlWritten_pending (c v : Half) {p : Nat} (hp : p = 3 ∨ p = 5 ∨ p = 7) :
    (ctrlWritten c v).getLsbD p = (c.getLsbD p && !v.getLsbD p) := by
  obtain rfl | rfl | rfl := hp <;> simp [ctrlWritten, adoptMask, kindBits, dmaActBit]

theorem dmaActBit_pending {p : Nat} (hp : p = 3 ∨ p = 5 ∨ p = 7) : dmaActBit.getLsbD p = false := by
  obtain rfl | rfl | rfl := hp <;> rfl

/-- A pending bit that falls is acknowledged, or goes with the whole register. -/
theorem CtrlEffect.pending_falls {i : Instr} {c c' : Half} {p : Nat} (he : CtrlEffect i c c') (hp : p = 3 ∨ p = 5 ∨ p = 7)
    (h : c.getLsbD p = true) (h' : c'.getLsbD p = false) :
    (∃ v, ctrlRow i v ∧ v.getLsbD p = true) ∨ i = .init ∨ ∃ snap q, i = .restore snap q := by
  cases he with
  | kept => cases h.symm.trans h'
  | written _ _ v hrow =>
    rw [ctrlWritten_pending c v hp, h] at h'
    exact .inl ⟨v, hrow, by simpa using h'⟩
  | armed | ticked | delivered => simp [h] at h'
  | completed =>
    rw [BitVec.getLsbD_or, clearDmaAct_getLsbD c (by omega) (dmaActBit_pending hp), h] at h'
    cases h'
  | initialised => exact .inr (.inl rfl)
  | restored snap q => exact .inr (.inr ⟨snap, q, rfl⟩)

/-- A pending bit that rises is raised, by a tick or a delivery, or comes with a snapshot. -/
theorem CtrlEffect.pending_rises {i : Instr} {c c' : Half} {p : Nat} (he : CtrlEffect i c c') (hp : p = 3 ∨ p = 5 ∨ p = 7)
    (h : c.getLsbD p = false) (h' : c'.getLsbD p = true) :
    i = .tick ∨ (∃ q, i = .fireDspint q) ∨ (∃ q, i = .fireAramint q) ∨ ∃ snap q, i = .restore snap q := by
  cases he with
  | kept => cases h.symm.trans h'
  | written _ _ v => simp [ctrlWritten_pending c v hp, h] at h'
  | armed => simp [h, dmaActBit_pending hp] at h'
  | ticked => exact .inl rfl
  | delivered seq => exact .inr (.inl ⟨seq, rfl⟩)
  | completed seq => exact .inr (.inr (.inl ⟨seq, rfl⟩))
  | initialised => obtain rfl | rfl | rfl := hp <;> cases h'
  | restored snap q => exact .inr (.inr (.inr ⟨snap, q, rfl⟩))

/-- Settles O24: of the things an instruction can do to ControlRegister, only a write clears single pending bits, and only a raise
sets them. -/
theorem pendingBitsAreSticky : Obligations.PendingBitsAreSticky := by
  intro i s t p hw hx hp
  have he := (exec_effect hw hx).ctrlEffect
  refine ⟨fun h h' => ?_, he.pending_rises hp⟩
  obtain ⟨v, rfl | ⟨d, rfl, rfl⟩, hv⟩ | hi := he.pending_falls hp h h'
  · exact .inl ⟨v, rfl, hv⟩
  · exact .inr (.inl ⟨d, rfl, loHalf_getLsbD d (p := p) (by omega) ▸ hv⟩)
  · exact .inr (.inr hi)

/-! ## `DMA_ACT` -/

theorem ctrlWritten_dmaAct (c v : Half) : (ctrlWritten c v).getLsbD 9 = c.getLsbD 9 := by
  simp [ctrlWritten, adoptMask, kindBits, dmaActBit]

theorem kindBits_dmaAct (k : Half) : (k &&& kindBits).getLsbD 9 = false := by
  simp [kindBits]

theorem ctrlRow.not_armsDma {i : Instr} {v : Half} (h : ctrlRow i v) : ¬armsDma i := by
  obtain rfl | ⟨d, rfl, -⟩ := h <;> simp [armsDma]

/-- `DMA_ACT` rises only by a trigger, or comes with a snapshot. -/
theorem CtrlEffect.dmaAct_rises {i : Instr} {c c' : Half} (he : CtrlEffect i c c') (h : c.getLsbD 9 = false)
    (h' : c'.getLsbD 9 = true) : armsDma i ∨ ∃ snap q, i = .restore snap q := by
  cases he with
  | kept => cases h.symm.trans h'
  | written => cases h.symm.trans ((ctrlWritten_dmaAct _ _).symm.trans h')
  | armed _ _ hrow => exact .inl hrow
  | ticked | delivered =>
    rw [BitVec.getLsbD_or, kindBits_dmaAct, h] at h'
    cases h'
  | completed =>
    rw [BitVec.getLsbD_or, BitVec.getLsbD_and, kindBits_dmaAct, h] at h'
    cases h'
  | initialised => cases h'
  | restored snap q => exact .inr ⟨snap, q, rfl⟩

/-- `DMA_ACT` falls only by a completion, or with the whole register. -/
theorem CtrlEffect.dmaAct_falls {i : Instr} {c c' : Half} (he : CtrlEffect i c c') (h : c.getLsbD 9 = true)
    (h' : c'.getLsbD 9 = false) : (∃ q, i = .fireAramint q) ∨ i = .init ∨ ∃ snap q, i = .restore snap q := by
  cases he with
  | kept => cases h.symm.trans h'
  | written => cases h.symm.trans ((ctrlWritten_dmaAct _ _).symm.trans h')
  | armed | ticked | delivered =>
    rw [BitVec.getLsbD_or, h] at h'
    cases h'
  | completed seq => exact .inl ⟨seq, rfl⟩
  | initialised => exact .inr (.inl rfl)
  | restored snap q => exact .inr (.inr ⟨snap, q, rfl⟩)

theorem CtrlEffect.dmaAct_of_armsDma {i : Instr} {c c' : Half} (he : CtrlEffect i c c') (hi : armsDma i) : c'.getLsbD 9 = true := by
  cases he with
  | kept _ _ hrow =>
    obtain ⟨-, harm, -⟩ := hrow
    exact absurd hi harm
  | written _ _ _ hrow => exact absurd hi hrow.not_armsDma
  | armed => simp [dmaActBit]
  | ticked | delivered | completed | initialised | restored => simp [armsDma] at hi

theorem CtrlEffect.dmaAct_of_completion {seq : Nat} {c c' : Half} (he : CtrlEffect (.fireAramint seq) c c') :
    c'.getLsbD 9 = false := by
  cases he with
  | kept _ _ hrow =>
    obtain ⟨-, -, hfire⟩ := hrow
    exact absurd rfl (hfire seq)
  | written _ _ _ hrow => simp [ctrlRow] at hrow
  | armed _ _ hrow => simp [armsDma] at hrow
  | completed =>
    rw [BitVec.getLsbD_or, kindBits_dmaAct]
    simp [dmaActBit]

/-- Settles O25: of the things an instruction can do to ControlRegister, the trigger sets bit 9, the completion clears it, and a
ControlRegister write keeps it. -/
theorem dmaActMovesOnlyByTriggerAndCompletion : Obligations.DmaActMovesOnlyByTriggerAndCompletion := by
  intro i s t hw hx
  have he := (exec_effect hw hx).ctrlEffect
  refine ⟨fun h h' => ?_, he.dmaAct_falls, he.dmaAct_of_armsDma, ?_⟩
  · exact or_assoc.1 (he.dmaAct_rises h h')
  · rintro ⟨seq, rfl⟩
    exact he.dmaAct_of_completion

/-! ## Enable bits -/

theorem ctrlWritten_enable (c v : Half) {p : Nat} (hp : p = 4 ∨ p = 6 ∨ p = 8) : (ctrlWritten c v).getLsbD p = v.getLsbD p := by
  obtain rfl | rfl | rfl := hp <;> simp [ctrlWritten, adoptMask, kindBits, dmaActBit]

theorem kindBits_enable (k : Half) {p : Nat} (hp : p = 4 ∨ p = 6 ∨ p = 8) : (k &&& kindBits).getLsbD p = false := by
  obtain rfl | rfl | rfl := hp <;> simp [kindBits]

theorem dmaActBit_enable {p : Nat} (hp : p = 4 ∨ p = 6 ∨ p = 8) : dmaActBit.getLsbD p = false := by
  obtain rfl | rfl | rfl := hp <;> rfl

/-- A row writes ControlRegister with one value. -/
theorem ctrlRow.value_eq {i : Instr} {v w : Half} (h : ctrlRow i v) (h' : ctrlRow i w) : v = w := by
  obtain rfl | ⟨d, rfl, rfl⟩ := h
  · simpa [ctrlRow] using h'
  · simpa [ctrlRow, eq_comm] using h'

/-- A ControlRegister write leaves the enable bits at its value. -/
theorem CtrlEffect.enable_of_write {i : Instr} {c c' v : Half} {p : Nat} (he : CtrlEffect i c c') (hp : p = 4 ∨ p = 6 ∨ p = 8)
    (hi : ctrlRow i v) : c'.getLsbD p = v.getLsbD p := by
  cases he with
  | kept _ _ hrow =>
    obtain ⟨hwrite, -, -⟩ := hrow
    exact absurd hi (hwrite v)
  | written _ _ w hrow => rw [ctrlWritten_enable c w hp, hrow.value_eq hi]
  | armed _ _ hrow => exact absurd hrow hi.not_armsDma
  | ticked | delivered | completed | initialised | restored => simp [ctrlRow] at hi

/-- Nothing else but `INIT` and `RESTORE` moves them. -/
theorem CtrlEffect.enable_of_not_write {i : Instr} {c c' : Half} {p : Nat} (he : CtrlEffect i c c') (hp : p = 4 ∨ p = 6 ∨ p = 8)
    (hwrite : ∀ v, ¬ctrlRow i v) (hinit : i ≠ .init) (hrestore : ∀ snap q, i ≠ .restore snap q) : c'.getLsbD p = c.getLsbD p := by
  cases he with
  | kept => rfl
  | written _ _ v hrow => exact absurd hrow (hwrite v)
  | armed => rw [BitVec.getLsbD_or, dmaActBit_enable hp, Bool.or_false]
  | ticked | delivered => rw [BitVec.getLsbD_or, kindBits_enable _ hp, Bool.or_false]
  | completed =>
    rw [BitVec.getLsbD_or, kindBits_enable _ hp, clearDmaAct_getLsbD c (by omega) (dmaActBit_enable hp), Bool.or_false]
  | initialised => exact absurd rfl hinit
  | restored snap q => exact absurd rfl (hrestore snap q)

/-- Settles O26, by what a ControlRegister write and every other effect leave of the enable bits. -/
theorem enableBitsHoldTheLastWrite : Obligations.EnableBitsHoldTheLastWrite := by
  intro i s t p hw hx hp
  have he := (exec_effect hw hx).ctrlEffect
  refine ⟨?_, ?_, fun h16 h32 => he.enable_of_not_write hp ?_⟩
  · rintro v rfl
    exact he.enable_of_write hp (.inl rfl)
  · rintro d rfl
    rw [he.enable_of_write hp (.inr ⟨d, rfl, rfl⟩), loHalf_getLsbD d (by omega)]
  · rintro v (hi | ⟨d, hi, -⟩)
    · exact h16 v hi
    · exact h32 d hi

end Sys2Proof.Machine
end

section
/-! The stores and the registers along a step: what the invariant says of them (spec 20_memory.md R82, R85, R95, 10_state.md R40, R46,
R48). -/

namespace Sys2Proof.Machine

/-! ## The two memories -/

/-- Both memories are canonical and within their address spaces. -/
structure State.StoresLegal (s : State) : Prop where
  memWf : s.mem.wf
  memBelow : Memory.below s.mem (2 ^ 32)
  aramWf : s.aram.wf
  aramBelow : Memory.below s.aram s.cfg.aramSize

theorem State.Inv.stores {s : State} (h : s.Inv) : s.StoresLegal := ⟨h.memWf, h.memBelow, h.aramWf, h.aramBelow⟩

/-- The bytes other owners wrote, once in place, leave both memories legal (R93). -/
theorem State.StoresLegal.arrive {s : State} (h : s.StoresLegal) (p : Input) (rest : List Input) :
    (Machine.arrive p rest s).StoresLegal where
  memWf := Memory.wf_writeAll h.memWf _
  memBelow := Memory.below_writeAll h.memBelow (Memory.below_cellsBelow _ _)
  aramWf := by
    rw [arrive_aram]
    split
    · exact Memory.wf_writeAll h.aramWf _
    · exact h.aramWf
  aramBelow := by
    rw [arrive_aram]
    split
    · exact Memory.below_writeAll h.aramBelow (Memory.below_cellsBelow _ _)
    · exact h.aramBelow

/-- The cells of a granule, its mirror copy's too, lie in the store. -/
theorem granuleCells_below {s : State} (h : s.cfg.wf) : Memory.below (granuleCells s) s.cfg.aramSize := by
  intro c hc
  unfold granuleCells at hc
  rcases List.mem_append.1 hc with hc | hc
  · split at hc
    · exact aramCells_below h _ _ c hc
    · cases hc
  · exact aramCells_below h _ _ c hc

theorem State.StoresLegal.writeMain {s : State} (h : s.StoresLegal) (a : Word) (bytes : List Byte) :
    State.StoresLegal { s with mem := s.mem.writeAll (mainCells a bytes) } :=
  { h with memWf := Memory.wf_writeAll h.memWf _, memBelow := Memory.below_writeAll h.memBelow (mainCells_below a bytes) }

/-- A granule of either direction and target leaves both memories legal. -/
theorem granuleOp_storesLegal {bus dir : Bool} {s t : State} (hc : s.cfg.wf) (h : s.StoresLegal) (hg : granuleOp bus dir s = .ok t) :
    t.StoresLegal := by
  have hm := granuleOp_mapped hg
  cases bus <;> cases dir
  · obtain ⟨l, hl⟩ := mainToAram_of_mapped hm
    obtain rfl := Except.ok.inj (hl.symm.trans hg)
    exact { h with
      aramWf := Memory.wf_writeAll h.aramWf _, aramBelow := Memory.below_writeAll h.aramBelow (granuleCells_below hc) }
  · obtain rfl := Except.ok.inj ((aramToMain_of_mapped hm).symm.trans hg)
    exact { h.writeMain _ _ with }
  · obtain rfl := Except.ok.inj ((mainToAux_of_mapped hm).symm.trans hg)
    exact { h with }
  · obtain rfl := Except.ok.inj ((auxToMain_of_mapped hm).symm.trans hg)
    exact { h.writeMain _ _ with }

/-! ## The registers a transfer advances -/

/-- What a granule leaves of the parameters and of the registers. -/
theorem granuleOp_regs {bus dir : Bool} {s t : State} (hg : granuleOp bus dir s = .ok t) :
    t.cfg = s.cfg ∧ t.arInfo = s.arInfo ∧ t.auSrc = s.auSrc ∧ t.arMm = s.arMm + 8 ∧ t.arAr = s.arAr + 8 ∧
      t.arCnt = setCount s.arCnt (countOf s.arCnt - 8) := by
  obtain ⟨m, a, l, x, d, hl⟩ := granuleOp_of_mapped bus dir (granuleOp_mapped hg)
  obtain rfl := Except.ok.inj (hl.symm.trans hg)
  exact ⟨rfl, rfl, rfl, rfl, rfl, rfl⟩

/-- An address that is a multiple of 8 is one after a granule. -/
theorem low7_add_eight {a : Word} (h : a &&& 0x00000007#32 = 0) : (a + 8) &&& 0x00000007#32 = 0 := by
  rw [low7_toNat] at h ⊢
  rw [BitVec.toNat_add]
  have h8 : (8 : Word).toNat = 8 := rfl
  omega

/-- The 64 MB wrap keeps a multiple of 8. -/
theorem low7_and {a : Word} (h : a &&& 0x00000007#32 = 0) (m : Word) : (a &&& m) &&& 0x00000007#32 = 0 := by
  rw [BitVec.and_assoc, BitVec.and_comm m, ← BitVec.and_assoc, h]
  exact BitVec.zero_and

/-- A count of 0 is legal, whatever the direction. -/
theorem setCount_zero_legal (c : Word) : setCount c 0 &&& 0x7C000007#32 = 0 := by
  rw [setCount_zero]
  split <;> decide

/-- In the middle of a transfer, `k` granules before its end: the registers are legal but for the count, which is `8 * k`. -/
structure TransferLegal (k : Nat) (s : State) : Prop where
  regs : RegsLegal s.cfg s.arInfo s.arMm s.arAr (setCount s.arCnt 0) s.auSrc
  count : (countOf s.arCnt).toNat = 8 * k

theorem TransferLegal.step {bus dir : Bool} {k : Nat} {s t : State} (h : TransferLegal (k + 1) s)
    (hg : granuleOp bus dir s = .ok t) : TransferLegal k t := by
  obtain ⟨hcfg, hinfo, hau, hmm, har, hcnt⟩ := granuleOp_regs hg
  obtain ⟨⟨linfo, lmm, lar, lcnt, lau⟩, hk⟩ := h
  constructor
  · rw [hcfg, hinfo, hau, hmm, har, hcnt, setCount_setCount]
    exact ⟨linfo, low7_add_eight lmm, low7_add_eight lar, lcnt, lau⟩
  · have hle : (8 : BitVec 31) ≤ countOf s.arCnt := by
      rw [BitVec.le_def, hk]
      exact Nat.le_mul_of_pos_right 8 k.succ_pos
    rw [hcnt, countOf_setCount, BitVec.toNat_sub_of_le hle, hk]
    show 8 * (k + 1) - 8 = 8 * k
    omega

/-- At its end the count is 0. -/
theorem TransferLegal.done {s : State} (h : TransferLegal 0 s) : s.RegsLegal := by
  have h0 : countOf s.arCnt = 0 := BitVec.eq_of_toNat_eq h.count
  have hr := h.regs
  rwa [← h0, setCount_countOf] at hr

/-- What each granule passes on to the next, one fewer left, holds at the end. -/
theorem granules_countdown {g : State → Except Fault State} (P : Nat → State → Prop)
    (hg : ∀ k u w, P (k + 1) u → g u = .ok w → P k w) {n : Nat} {s t : State} (h0 : P n s) (h : granules g n s = .ok t) : P 0 t := by
  induction n generalizing s with
  | zero => exact Except.ok.inj h ▸ h0
  | succ n ih =>
    simp only [granules] at h
    split at h
    · cases h
    · next u hu => exact ih (hg n s u h0 hu) h

/-- The stored low half is masked, and the wrapped addresses stay multiples of 8. -/
theorem aramArm_regsLegal {s : State} (hc : s.cfg.wf) (h : s.RegsLegal) (v : Half) : (aramArm v s).RegsLegal := by
  obtain ⟨linfo, lmm, lar, lcnt, lau⟩ := legal_arCntLo hc h v
  rw [aramArm_eq]
  exact ⟨linfo, low7_and lmm _, low7_and lar _, lcnt, lau⟩

/-- The transfer begins with one granule for each 8 bytes of the count, which is a multiple of 8 (43_aram_dma.md R249). -/
theorem aramArm_transferLegal {s : State} (hc : s.cfg.wf) (h : s.RegsLegal) (v : Half) :
    TransferLegal (triggerCount v s / 8) (aramArm v s) := by
  obtain ⟨linfo, lmm, lar, -, lau⟩ := aramArm_regsLegal hc h v
  refine ⟨⟨linfo, lmm, lar, setCount_zero_legal _, lau⟩, ?_⟩
  have hdvd := triggerCount_dvd hc v
  rw [aramArm_eq]
  show triggerCount v s = _
  omega

/-- A trigger that completes leaves the registers within their masks (R95). -/
theorem wrArCntLo_regsLegal {v : Half} {s t : State} (hc : s.cfg.wf) (h : s.RegsLegal) (ht : wrArCntLo v s = .ok t) :
    t.RegsLegal := by
  rw [wrArCntLo_eq] at ht
  split at ht
  · exact Except.ok.inj ht ▸ aramArm_regsLegal hc h v
  · exact (granules_countdown TransferLegal (fun _ _ _ => TransferLegal.step) (aramArm_transferLegal hc h v) ht).done

/-- A trigger that completes leaves both memories legal (R82, R85). -/
theorem wrArCntLo_storesLegal {v : Half} {s t : State} (hc : s.cfg.wf) (h : s.StoresLegal) (ht : wrArCntLo v s = .ok t) :
    t.StoresLegal := by
  have harm : (aramArm v s).cfg = s.cfg ∧ (aramArm v s).StoresLegal := by
    rw [aramArm_eq]
    exact ⟨rfl, { h with }⟩
  rw [wrArCntLo_eq] at ht
  split at ht
  · exact Except.ok.inj ht ▸ harm.2
  · refine (granules_keep (fun u => u.cfg = s.cfg ∧ u.StoresLegal) ?_ harm ht).2
    rintro u w ⟨hcfg, hstores⟩ hg
    obtain ⟨hcfg', -⟩ := granuleOp_regs hg
    exact ⟨hcfg'.trans hcfg, granuleOp_storesLegal (hcfg ▸ hc) hstores hg⟩

end Sys2Proof.Machine
end

section
/-! The invariant along a step: a legal snapshot comes with its input, and every effect keeps each part. -/

namespace Sys2Proof

/-! ## A snapshot comes with its input -/

theorem decodeBus16_ne_restore {w : Bool} {off : Half} {op : Operand} {snap : Snapshot} {queue : List Entry} :
    decodeBus16 w off op ≠ .ok (.restore snap queue) := by
  unfold decodeBus16
  split
  · next r _ => cases w <;> cases r <;> simp [Reg.rd16, Reg.wr16]
  · cases w <;> split <;> simp

theorem decodeBus32_ne_restore {w : Bool} {off : Half} {op : Operand} {snap : Snapshot} {queue : List Entry} :
    decodeBus32 w off op ≠ .ok (.restore snap queue) := by
  unfold decodeBus32
  cases w <;> split <;> simp

theorem decodeEvent_restore {key : Nat} {code : Half} {op : Operand} {snap : Snapshot} {queue : List Entry}
    (h : decodeEvent key code op = .ok (.restore snap queue)) : snap = op.snap := by
  unfold decodeEvent at h
  split at h <;> cases h
  rfl

/-- The decoder takes the snapshot of a `RESTORE` from the operand (spec 30_encoding.md R115). -/
theorem decode_restore {word : BitVec 24} {op : Operand} {snap : Snapshot} {queue : List Entry}
    (h : decode word op = .ok (.restore snap queue)) : snap = op.snap := by
  unfold decode at h
  split at h
  · exact absurd h decodeBus16_ne_restore
  · exact absurd h decodeBus32_ne_restore
  · split at h
    · cases h
    · exact decodeEvent_restore h
  · cases h

namespace Machine

/-- A `RESTORE` that a legal input presents carries a legal snapshot. -/
theorem fetch_restore_legal {p : Params} {x : Input} {snap : Snapshot} {queue : List Entry} (hx : InputLegal p x)
    (h : fetch p x.what = .run (.restore snap queue)) : SnapLegal p snap := by
  unfold InputLegal at hx
  cases hwhat : x.what with
  | keyed word operand =>
    rw [hwhat] at hx h
    exact decode_restore (fetchedOf_run h) ▸ hx
  | bus width write addr data =>
    rw [hwhat] at h
    simp only [fetch] at h
    split at h
    · obtain ⟨key, hkey⟩ := fetchBus_run h
      exact decode_restore hkey ▸ legal_zero p
    · cases h

/-! ## Each part of the invariant -/

theorem triggerRow.cfg_eq {i : Instr} {v : Half} {s u : State} (h : triggerRow i v s u) : u.cfg = s.cfg := by
  obtain ⟨-, rfl⟩ | ⟨_, -, -, rfl⟩ := h <;> rfl

theorem triggerRow.storesLegal {i : Instr} {v : Half} {s u : State} (h : triggerRow i v s u) (hs : s.StoresLegal) :
    u.StoresLegal := by
  obtain ⟨-, rfl⟩ | ⟨_, -, -, rfl⟩ := h
  · exact hs
  · exact { hs with }

/-- The high half that a 32-bit trigger stores first is masked. -/
theorem triggerRow.regsLegal {i : Instr} {v : Half} {s u : State} (h : triggerRow i v s u) (hs : s.RegsLegal) : u.RegsLegal := by
  obtain ⟨-, rfl⟩ | ⟨d, -, -, rfl⟩ := h
  · exact hs
  · exact legal_arCntHi hs (hiHalf d)

theorem State.StoresLegal.withAram {s : State} (h : s.StoresLegal) {m : Memory} (hw : m.wf) (hb : Memory.below m s.cfg.aramSize) :
    State.StoresLegal { s with aram := m } :=
  { h with aramWf := hw, aramBelow := hb }

theorem aramAtInit_legal {s : State} (h : s.StoresLegal) :
    (aramAtInit s).wf ∧ Memory.below (aramAtInit s) s.cfg.aramSize := by
  unfold aramAtInit
  split
  · exact ⟨h.aramWf, h.aramBelow⟩
  · exact ⟨Memory.wf_build _, Memory.below_build _⟩

theorem aramAtShutdown_legal {s : State} (h : s.StoresLegal) :
    Memory.wf (if s.cfg.unified then s.aram else []) ∧ Memory.below (if s.cfg.unified then s.aram else []) s.cfg.aramSize := by
  split
  · exact ⟨h.aramWf, h.aramBelow⟩
  · exact ⟨Memory.wf_nil, fun c hc => nomatch hc⟩

/-- A snapshot of the right shape loads a store of the right size (45_host_events.md R307). -/
theorem aramLoaded_legal {s : State} (h : s.StoresLegal) {snap : Snapshot} (hshape : shapeOf snap = liveShape s) :
    (aramLoaded snap s).wf ∧ Memory.below (aramLoaded snap s) s.cfg.aramSize := by
  unfold aramLoaded
  split
  · exact ⟨h.aramWf, h.aramBelow⟩
  · next img himg =>
    have hsize : img.size = s.cfg.aramSize := by
      simp only [shapeOf, liveShape, himg, Option.map_some, Prod.mk.injEq] at hshape
      split at hshape
      · cases hshape.1
      · exact Option.some.inj hshape.1
    exact ⟨Memory.wf_build _, hsize ▸ Memory.below_build _⟩

/-- Every instruction that answers a next state keeps both memories legal. -/
theorem Effect.storesLegal {i : Instr} {s t : State} (he : Effect i s t) (hc : s.cfg.wf) (h : s.StoresLegal) : t.StoresLegal := by
  cases he with
  | trigger _ _ _ _ _ hrow hop =>
    have hcu := hrow.cfg_eq ▸ hc
    exact { wrArCntLo_storesLegal hcu (hrow.storesLegal h) hop with }
  | auCtl _ _ _ _ _ hop => obtain ⟨-, rfl⟩ | ⟨-, _, rfl⟩ := wrAuCtl_frame hop <;> exact { h with }
  | tick _ _ hop => obtain ⟨_, rfl⟩ | ⟨_, _, rfl⟩ | ⟨_, _, _, rfl⟩ := tickOp_frame hop <;> exact { h with }
  | init =>
    obtain ⟨hw, hb⟩ := aramAtInit_legal h
    exact { h.withAram hw hb with }
  | shutdown =>
    obtain ⟨hw, hb⟩ := aramAtShutdown_legal h
    exact { h.withAram hw hb with }
  | restore _ _ _ _ _ _ hshape =>
    obtain ⟨hw, hb⟩ := aramLoaded_legal h hshape
    exact { h.withAram hw hb with }
  | _ => exact { h with }

/-- Every instruction that answers a next state keeps the registers within their masks, where a snapshot restored has them so. -/
theorem Effect.regsLegal {i : Instr} {s t : State} (he : Effect i s t) (hc : s.cfg.wf) (h : s.RegsLegal)
    (hsnap : ∀ snap q, i = .restore snap q → SnapLegal s.cfg snap) : t.RegsLegal := by
  cases he with
  | plain _ _ _ _ _ _ _ _ _ _ _ _ _ _ hlegal => exact hlegal h
  | trigger _ _ _ _ _ hrow hop =>
    have hcu := hrow.cfg_eq ▸ hc
    have ht := wrArCntLo_regsLegal hcu (hrow.regsLegal h) hop
    exact ht
  | auCtl _ _ _ _ _ hop => obtain ⟨-, rfl⟩ | ⟨-, _, rfl⟩ := wrAuCtl_frame hop <;> exact h
  | tick _ _ hop => obtain ⟨_, rfl⟩ | ⟨_, _, rfl⟩ | ⟨_, _, _, rfl⟩ := tickOp_frame hop <;> exact h
  | init => exact legal_zero s.cfg
  | restore snap q => exact hsnap snap q rfl
  | _ => exact h

/-! ## The whole invariant -/

theorem State.Inv.arrive {s : State} (h : s.Inv) {p : Input} {rest : List Input} (hin : s.inbox = p :: rest) :
    (Machine.arrive p rest s).Inv :=
  { h.stores.arrive p rest, h with inbox := fun x hx => h.inbox x (hin ▸ List.mem_cons_of_mem p hx) }

theorem Effect.inv {i : Instr} {s t : State} (he : Effect i s t) (h : s.Inv)
    (hsnap : ∀ snap q, i = .restore snap q → SnapLegal s.cfg snap) : t.Inv := by
  have hcfg := he.frame.cfg
  exact { he.storesLegal h.cfg h.stores with
    cfg := hcfg ▸ h.cfg
    line := he.line_eq h.line
    regs := he.regsLegal h.cfg h.regs hsnap
    inbox := by rw [hcfg, he.frame.inbox]; exact h.inbox }

/-- Settles O58: the step waits, passes an access, or runs an instruction that its input's legal operand comes with, and each part of
the invariant goes through every effect. -/
theorem everyStepKeepsTheInvariant : Obligations.EveryStepKeepsTheInvariant := by
  intro s t h hstep
  obtain ⟨-, rfl⟩ | ⟨p, rest, hin, ⟨-, rfl⟩ | ⟨i, hfetch, hw, hx⟩⟩ := step_cases hstep
  · exact h
  · exact { h.arrive hin with }
  · have hp : InputLegal s.cfg p := h.inbox p (hin ▸ List.mem_cons_self)
    refine (exec_effect hw hx).inv (h.arrive hin) ?_
    rintro snap q rfl
    exact fetch_restore_legal hp hfetch

end Machine
end Sys2Proof
end

section
/-! The step on a presented key, the statuses, and the values after init and reset (spec 10_state.md R61, R64, R66). -/

namespace Sys2Proof.Machine

/-! ## A presented key -/

theorem step_of_run {s : State} {p : Input} {rest : List Input} {i : Instr} (hin : s.inbox = p :: rest)
    (hfetch : fetch s.cfg p.what = .run i) : step s = exec i (arrive p rest s) := by
  simp only [step, hin, hfetch]

/-- An input without foreign bytes only leaves the inbox and brings its answers. -/
theorem arrive_of_no_writes (x : Presented) (ans : List Nat) (rest : List Input) (s : State) :
    arrive ⟨x, [], [], ans⟩ rest s = { s with inbox := rest, answers := ans } := by
  have haram : (if s.cfg.unified then s.aram.writeAll (cellsBelow s.cfg.aramSize []) else s.aram) = s.aram := ite_self _
  simp only [arrive, haram]
  rfl

/-- Settles O7: the fetch of a key is its decoding. -/
theorem stepRunsTheDecodedInstr : Obligations.StepRunsTheDecodedInstr := by
  intro s w op mw pw ans rest i hin hdec
  have hstep := step_of_run hin (fetchedOf_eq_run.2 hdec)
  refine ⟨hstep, ?_⟩
  rintro rfl rfl
  rw [hstep, arrive_of_no_writes]

/-! ## Statuses -/

/-- Every row but `INIT` stops unless the block is live (R61). -/
theorem exec_of_not_live {i : Instr} {s : State} (hi : i ≠ .init) (h : s.status ≠ .live) :
    exec i s = .fault (.stuck .statusForbids) := by
  cases i with
  | init => exact absurd rfl hi
  | _ => exact whenLive_of_not_live _ h

theorem execInit_of_not_enabled {s : State} (h : s.status ≠ .uninit) (h' : s.status ≠ .shut) :
    exec .init s = .fault (.stuck .statusForbids) :=
  if_neg (not_or.2 ⟨h, h'⟩)

/-- The status after a step: live, or shut by `SHUTDOWN`. -/
theorem exec_next_status {i : Instr} {s t : State} (hw : WellFormed i = true) (hx : exec i s = .next t) :
    t.status = .live ∨ (i = .shutdown ∧ t.status = .shut) := by
  obtain hs | ⟨-, hs⟩ | hs := (exec_effect hw hx).frame.status
  · by_cases hi : i = .init
    · subst hi
      obtain ⟨-, rfl⟩ := execInit_eq_next.1 hx
      exact .inl rfl
    · exact .inl (hs.trans (exec_next_live hi hx))
  · exact .inl hs
  · exact .inr hs

theorem statusAfter_fault (s : State) {f : Fault} (h : ∀ w, f ≠ .stuck w) : statusAfter s (.fault f) = .faulted f := by
  cases f with
  | stuck w => exact absurd rfl (h w)
  | _ => rfl

/-- Settles O9, each clause by its own lemma. -/
theorem statusGatesEveryStep : Obligations.StatusGatesEveryStep := by
  refine ⟨fun _ _ => exec_of_not_live, fun _ => execInit_of_not_enabled, fun s hs => ?_, fun s hlive => ?_,
    fun _ _ _ => exec_next_status, fun s _ => statusAfter_fault s, fun _ _ => rfl⟩
  · exact ⟨_, execInit_eq_next.2 ⟨hs, rfl⟩, rfl⟩
  · exact ⟨_, whenLive_of_live _ hlive, rfl⟩

/-! ## Init and reset -/

/-- Settles O54: the state `INIT` leaves, and the pool it takes over when unified. -/
theorem initLeavesTheResetValues : Obligations.InitLeavesTheResetValues := by
  intro s hs
  refine ⟨_, execInit_eq_next.2 ⟨hs, rfl⟩, rfl, fun hunified => ?_⟩
  exact if_pos hunified

theorem standard_wf : Params.standard.wf := by
  refine ⟨⟨24, by decide, by decide⟩, by decide, ?_, Nat.le_add_right _ _, by decide⟩
  show (0x40 + 2 * Config.windowExcess) % 2 = 0
  omega

/-- Settles O59: the parameters are legal, both memories are built from cells within bounds, and every masked register is 0. -/
theorem resetMeetsTheInvariant : Obligations.ResetMeetsTheInvariant where
  cfg := standard_wf
  line := by decide
  memWf := Memory.wf_build _
  memBelow := Memory.below_build _
  aramWf := Memory.wf_build _
  aramBelow := Memory.below_build _
  regs := legal_zero _
  inbox := fun _ hx => nomatch hx

/-- Settles O60: each field of the reset state is written out. -/
theorem resetHasTheInitValues : Obligations.ResetHasTheInitValues :=
  ⟨rfl, rfl, rfl, rfl, rfl, rfl, rfl, rfl, rfl, rfl, rfl, rfl, rfl, rfl, rfl, rfl, rfl⟩

end Sys2Proof.Machine
end

section
/-! CPU accesses by physical address: which of them are the block's, which shapes are refused, and the offsets beyond a key (spec
20_memory.md R81, R94, 40_register_bank.md R150, R151, R155, R156). -/

namespace Sys2Proof

/-- A 16-bit key at an even offset has a row: the register's, or the unmapped one. -/
theorem decode_bus16_of_even (w : Bool) (op : Operand) {off : Nat} (h : off % 2 = 0) :
    ∃ i, decode (keyWord 0 w (BitVec.ofNat 16 off)) op = .ok i := by
  have heven : (BitVec.ofNat 16 off).getLsbD 0 = false := by
    rw [BitVec.getLsbD_ofNat, Nat.testBit_zero, h]
    rfl
  rw [decode_bus16]
  unfold decodeBus16
  split
  · exact ⟨_, rfl⟩
  · exact ⟨_, if_neg (by rw [heven]; decide)⟩

/-- A 32-bit key at a multiple of 4 has its row. -/
theorem decode_bus32_of_aligned (w : Bool) (op : Operand) {off : Nat} (h : off % 4 = 0) :
    ∃ i, decode (keyWord 1 w (BitVec.ofNat 16 off)) op = .ok i := by
  have haligned : (BitVec.ofNat 16 off).extractLsb' 0 2 = 0 := by
    apply BitVec.eq_of_toNat_eq
    have hlow : off % 2 ^ 16 % 2 ^ 2 = 0 := by omega
    rw [BitVec.extractLsb'_toNat, BitVec.toNat_ofNat, Nat.shiftRight_zero, hlow]
    rfl
  rw [decode_bus32]
  exact ⟨_, if_pos haligned⟩

namespace Machine

theorem step_of_rejected {s : State} {p : Input} {rest : List Input} {e : DecodeError} (hlive : s.status = .live)
    (hin : s.inbox = p :: rest) (hfetch : fetch s.cfg p.what = .rejected e) : step s = .refused (refusalOf e) := by
  simp only [step, hin, hfetch, whenLive_of_live _ hlive]

theorem step_of_elsewhere {s : State} {p : Input} {rest : List Input} (hin : s.inbox = p :: rest)
    (hfetch : fetch s.cfg p.what = .elsewhere) : step s = .next ((arrive p rest s).replied .none) := by
  simp only [step, hin, hfetch]

theorem fetch_bus_of_inWindow {p : Params} {addr : Word} (width : Width) (wr : Bool) (data : Word) (h : inWindow p addr = true) :
    fetch p (.bus width wr addr data) = fetchBus width wr (busOffset p addr) data :=
  if_pos h

theorem fetch_bus_of_not_inWindow {p : Params} {addr : Word} (width : Width) (wr : Bool) (data : Word)
    (h : inWindow p addr ≠ true) : fetch p (.bus width wr addr data) = .elsewhere :=
  if_neg h

/-! ## The shapes -/

theorem fetchBus_bits16_of_odd (wr : Bool) (data : Word) {off : Nat} (h : off % 2 ≠ 0) :
    fetchBus .bits16 wr off data = .rejected (.unsupportedAccess 16 off) :=
  if_neg h

theorem fetchBus_bits16_of_even (wr : Bool) (data : Word) {off : Nat} (h : off % 2 = 0) :
    fetchBus .bits16 wr off data = fetchedOf (decode (keyWord 0 wr (BitVec.ofNat 16 (keyOffset off))) { data := data }) :=
  if_pos h

theorem fetchBus_bits32_of_misaligned (wr : Bool) (data : Word) {off : Nat} (h : off % 4 ≠ 0) :
    fetchBus .bits32 wr off data = .rejected (.unsupportedAccess 32 off) :=
  if_neg h

theorem fetchBus_bits32_of_aligned (wr : Bool) (data : Word) {off : Nat} (h : off % 4 = 0) :
    fetchBus .bits32 wr off data = fetchedOf (decode (keyWord 1 wr (BitVec.ofNat 16 (keyOffset off))) { data := data }) :=
  if_pos h

theorem keyOffset_of_lt {off : Nat} (h : off < 0x10000) : keyOffset off = off := if_pos h

theorem keyOffset_of_ge {off : Nat} (h : 0x10000 ≤ off) : keyOffset off = 0x503C := if_neg (by omega)

/-! ## Unmapped offsets -/

/-- The 16-bit row at the offset that stands for those beyond a key. -/
theorem fetchBus_bits16_beyond (wr : Bool) (data : Word) {off : Nat} (h : off % 2 = 0) (hoff : 0x10000 ≤ off) :
    fetchBus .bits16 wr off data = .run (if wr then .wr16Unmapped 0x503C (data.setWidth 16) else .rd16Unmapped 0x503C) := by
  rw [fetchBus_bits16_of_even wr data h, keyOffset_of_ge hoff, decode_bus16]
  rfl

/-- The 32-bit row at the offset that stands for those beyond a key. -/
theorem fetchBus_bits32_beyond (wr : Bool) (data : Word) {off : Nat} (h : off % 4 = 0) (hoff : 0x10000 ≤ off) :
    fetchBus .bits32 wr off data = .run (if wr then .wr32 0x503C data else .rd32 0x503C) := by
  rw [fetchBus_bits32_of_aligned wr data h, keyOffset_of_ge hoff, decode_bus32]
  rfl

theorem read16_of_unmapped {off : Half} (h : Reg.ofOffset off = none) (s : State) : read16 off s = rdUnmapped s := by
  simp only [read16, h]

theorem write16_of_unmapped {off : Half} (h : Reg.ofOffset off = none) (v : Half) (s : State) : write16 off v s = .ok s := by
  simp only [write16, h, wrUnmapped]

/-- The read of a pair on a live block: the high half, then the low half (R155). -/
theorem exec_rd32_of_live {s : State} (h : s.status = .live) (off : Half) :
    exec (.rd32 off) s = .next ((read16 (off + 2) (read16 off s).2).2.replied
      (.word ((read16 off s).1 ++ (read16 (off + 2) (read16 off s).2).1))) :=
  whenLive_of_live _ h

/-- A 16-bit access of an unmapped offset reads the default or writes nothing (R150, R151). -/
theorem exec_unmapped16 {s : State} (h : s.status = .live) (wr : Bool) (off v : Half) :
    exec (if wr then .wr16Unmapped off v else .rd16Unmapped off) s =
      .next { s with reply := if wr then .none else .half s.cfg.unmappedRead16 } := by
  cases wr
  · exact readStep_of_live rdUnmapped h
  · exact quietStep_of_ok (op := wrUnmapped) h rfl

/-- A 32-bit access of a pair of unmapped offsets reads the default twice or writes nothing (R155, R156). -/
theorem exec_unmapped32 {s : State} (h : s.status = .live) (wr : Bool) {off : Half} (d : Word) (hhi : Reg.ofOffset off = none)
    (hlo : Reg.ofOffset (off + 2) = none) :
    exec (if wr then .wr32 off d else .rd32 off) s =
      .next { s with reply := if wr then .none else .word (s.cfg.unmappedRead16 ++ s.cfg.unmappedRead16) } := by
  cases wr
  · refine (exec_rd32_of_live h off).trans ?_
    rw [read16_of_unmapped hhi, read16_of_unmapped hlo]
    rfl
  · refine quietStep_of_ok (op := write32 off d) h ?_
    simp only [write32, write16_of_unmapped hhi, write16_of_unmapped hlo]

/-- Settles O5: the fetch of a CPU access refuses it by its shape or decodes the key of its offset. -/
theorem unsupportedShapesAreRefused : Obligations.UnsupportedShapesAreRefused := by
  intro s width wr addr data p rest hlive hin hwhat hwin
  have hfetch : fetch s.cfg p.what = fetchBus width wr (busOffset s.cfg addr) data := by
    rw [hwhat, fetch_bus_of_inWindow width wr data hwin]
  generalize busOffset s.cfg addr = off at hfetch
  refine ⟨?_, ?_, ?_, ?_, ?_, ?_, ?_⟩ <;> rintro rfl
  · exact step_of_rejected hlive hin hfetch
  · intro hodd
    exact step_of_rejected hlive hin (hfetch.trans (fetchBus_bits16_of_odd wr data (by omega)))
  · intro hmis
    exact step_of_rejected hlive hin (hfetch.trans (fetchBus_bits32_of_misaligned wr data hmis))
  · intro heven hlt
    obtain ⟨i, hdec⟩ := decode_bus16_of_even wr { data := data } heven
    rw [fetchBus_bits16_of_even wr data heven, keyOffset_of_lt hlt, hdec] at hfetch
    exact ⟨i, hdec, step_of_run hin hfetch⟩
  · intro haligned hlt
    obtain ⟨i, hdec⟩ := decode_bus32_of_aligned wr { data := data } haligned
    rw [fetchBus_bits32_of_aligned wr data haligned, keyOffset_of_lt hlt, hdec] at hfetch
    exact ⟨i, hdec, step_of_run hin hfetch⟩
  · intro heven hge
    rw [fetchBus_bits16_beyond wr data heven hge] at hfetch
    exact (step_of_run hin hfetch).trans (exec_unmapped16 (s := arrive p rest s) hlive wr _ _)
  · intro haligned hge
    rw [fetchBus_bits32_beyond wr data haligned hge] at hfetch
    exact (step_of_run hin hfetch).trans (exec_unmapped32 (s := arrive p rest s) hlive wr data rfl rfl)

/-- Settles O8: an address outside the window is fetched as no step of the block. -/
theorem outsideTheWindowNothingHappens : Obligations.OutsideTheWindowNothingHappens := by
  refine ⟨fun s width wr addr data ans rest hin hout => ?_, fun s hin => ?_⟩
  · have hwin : inWindow s.cfg addr ≠ true := by
      rw [inWindow, windowStart, ne_eq, decide_eq_true_eq]
      omega
    rw [step_of_elsewhere hin (fetch_bus_of_not_inWindow width wr data hwin), arrive_of_no_writes]
    rfl
  · simp only [step, hin]

end Machine
end Sys2Proof
end

section
/-! Main memory that `MAIN_MAP` does not admit, at each access the block makes (spec 20_memory.md R85, 42_audio_dma.md R201,
43_aram_dma.md R249). -/

namespace Sys2Proof.Machine

theorem numBlocks_ne_zero {c : Half} (h : c.toNat % 0x8000 ≠ 0) : numBlocks c ≠ 0 := by
  intro h0
  rw [← numBlocks_toNat, h0] at h
  exact h rfl

/-- The enable edge pushes the buffer at the source register, and faults where no memory stands behind it (R207, R208). -/
theorem wrAuCtl_of_unmapped {s : State} {v : Half} (hoff : s.auCtl.getLsbD 15 = false) (hon : v.getLsbD 15 = true)
    (hn : v.toNat % 0x8000 ≠ 0) (hmap : mainMap s.cfg s.auSrc (v.toNat % 0x8000 * 32) = false) :
    wrAuCtl v s = .error (.mainUnmapped s.auSrc (v.toNat % 0x8000 * 32)) := by
  have hedge : (!auEnable s.auCtl && auEnable v) = true := by rw [auEnable_eq, auEnable_eq, hoff, hon]; rfl
  rw [← numBlocks_toNat] at hmap ⊢
  have hpush := auPush_of_unmapped (s := auReload { s with auCtl := v }) (numBlocks_ne_zero hn) hmap
  rw [wrAuCtl, if_pos hedge, audioStart, hpush]
  rfl

/-- A tick that reloads pushes the buffer the registers describe, and faults where no memory stands behind it (R215, R218). -/
theorem tickOp_of_unmapped {s : State} (hon : s.auCtl.getLsbD 15 = true) (hrem : s.auRem.toNat ≤ 1)
    (hn : s.auCtl.toNat % 0x8000 ≠ 0) (hmap : mainMap s.cfg s.auSrc (s.auCtl.toNat % 0x8000 * 32) = false) :
    tickOp s = .error (.mainUnmapped s.auSrc (s.auCtl.toNat % 0x8000 * 32)) := by
  have hn := numBlocks_ne_zero hn
  rw [← numBlocks_toNat] at hmap ⊢
  have hpush := auPush_of_unmapped (s := auReload s) hn hmap
  rw [tickOp_reload hon hrem, if_neg hn, hpush]
  rfl

/-- A state `k` granules into a transfer from `b`, whatever the granules did to the memories, the log and the answers. -/
def granulesInto (b : State) (k : Nat) (u : State) : Prop := ∃ m a l x d, u = b.advanced k m a l x d

theorem granulesInto_zero (b : State) : granulesInto b 0 b := ⟨_, _, _, _, _, (advanced_zero b).symm⟩

theorem granulesInto.step {bus dir : Bool} {b u : State} {k : Nat} (hu : granulesInto b k u)
    (hmap : mainMap b.cfg (b.arMm + BitVec.ofNat 32 (8 * k)) 8 = true) :
    ∃ t, granuleOp bus dir u = .ok t ∧ granulesInto b (k + 1) t := by
  obtain ⟨m, a, l, x, d, rfl⟩ := hu
  obtain ⟨m', a', l', x', d', ht⟩ := granuleOp_advanced bus dir b k m a l x d hmap
  exact ⟨_, ht, m', a', l', x', d', rfl⟩

theorem granulesInto.fault {bus dir : Bool} {b u : State} {k : Nat} (hu : granulesInto b k u)
    (hmap : mainMap b.cfg (b.arMm + BitVec.ofNat 32 (8 * k)) 8 = false) :
    granuleOp bus dir u = .error (.mainUnmapped (b.arMm + BitVec.ofNat 32 (8 * k)) 8) := by
  obtain ⟨m, a, l, x, d, rfl⟩ := hu
  exact granuleOp_of_unmapped bus dir (s := b.advanced k m a l x d) hmap

/-- A transfer faults at its first granule with no memory behind it. -/
theorem granules_of_unmapped {bus dir : Bool} {b : State} {n k : Nat} (hk : k < n)
    (hbefore : ∀ j, j < k → mainMap b.cfg (b.arMm + BitVec.ofNat 32 (8 * j)) 8 = true)
    (hmap : mainMap b.cfg (b.arMm + BitVec.ofNat 32 (8 * k)) 8 = false) :
    granules (granuleOp bus dir) n b = .error (.mainUnmapped (b.arMm + BitVec.ofNat 32 (8 * k)) 8) :=
  granules_error (granulesInto b) hk (granulesInto_zero b) (fun j _ hj hu => hu.step (hbefore j hj)) fun _ hu => hu.fault hmap

/-- Settles O35: the edge's push, the reload's push, and the first granule of the loop the trigger runs. -/
theorem unmappedMainMemoryFaults : Obligations.UnmappedMainMemoryFaults := by
  refine ⟨fun s v hlive hoff hon hn hmap => ?_, fun s hlive hon hrem hn hmap => ?_,
    fun s v k hlive htarget hk hbefore hmap => ?_⟩
  · have hexec : exec (.wr16AuCtl v) s = .fault (.mainUnmapped s.auSrc (v.toNat % 0x8000 * 32)) :=
      quietStep_of_error hlive (wrAuCtl_of_unmapped hoff hon hn hmap)
    exact ⟨hexec, hexec ▸ rfl⟩
  · exact quietStep_of_error hlive (tickOp_of_unmapped hon hrem hn hmap)
  · have hmoves : ¬(s.cfg.aramSize ≤ (triggerAux s).toNat ∧ s.cfg.unified = true) := by
      rintro ⟨hle, hunified⟩
      rcases htarget with hlt | hded
      · omega
      · exact absurd (hded.symm.trans hunified) (by decide)
    refine quietStep_of_error (op := wrArCntLo v) hlive ?_
    rw [wrArCntLo_eq, if_neg hmoves]
    exact granules_of_unmapped (b := aramArm v s) hk hbefore hmap

end Sys2Proof.Machine
end

section
/-! The two memories along an instruction (spec 20_memory.md R83, 10_state.md R55). -/

namespace Sys2Proof.Machine

/-- What no row but a trigger moves: main memory, and the store unless the row allocates, releases or loads it. -/
structure MemoriesKept (i : Instr) (s t : State) : Prop where
  mem : t.mem = s.mem
  aram : i ≠ .init → i ≠ .shutdown → (∀ snap q, i ≠ .restore snap q) → t.aram = s.aram

/-- Every effect but a trigger's keeps the memories. -/
theorem Effect.memoriesKept {i : Instr} {s t : State} (he : Effect i s t) (hi : ¬armsDma i) : MemoriesKept i s t := by
  cases he with
  | trigger _ _ _ _ _ hrow => exact absurd hrow.armsDma hi
  | auCtl _ _ _ _ _ hop => obtain ⟨-, rfl⟩ | ⟨-, _, rfl⟩ := wrAuCtl_frame hop <;> exact ⟨rfl, fun _ _ _ => rfl⟩
  | tick _ _ hop => obtain ⟨_, rfl⟩ | ⟨_, _, rfl⟩ | ⟨_, _, _, rfl⟩ := tickOp_frame hop <;> exact ⟨rfl, fun _ _ _ => rfl⟩
  | init => exact ⟨rfl, fun h _ _ => absurd rfl h⟩
  | shutdown => exact ⟨rfl, fun _ h _ => absurd rfl h⟩
  | restore snap q => exact ⟨rfl, fun _ _ h => absurd rfl (h snap q)⟩
  | _ => exact ⟨rfl, fun _ _ _ => rfl⟩

/-- Settles O43: an instruction that is no trigger has an effect that keeps the memories. -/
theorem onlyTheTriggerMovesMemory : Obligations.OnlyTheTriggerMovesMemory := by
  intro i s t hw hx h16 h32
  have hi : ¬armsDma i := by
    rintro (⟨v, hv⟩ | ⟨d, hd⟩)
    · exact h16 v hv
    · exact h32 d hd
  obtain ⟨hmem, haram⟩ := (exec_effect hw hx).memoriesKept hi
  exact ⟨fun x => by rw [hmem], fun h1 h2 h3 x => by rw [haram h1 h2 h3]⟩

end Sys2Proof.Machine
end

section
/-! Eight bytes and their 64-bit value (spec 20_memory.md R86). -/

namespace Sys2Proof.Machine

theorem dwordOfBytes_append_byte (bytes : List Byte) (b : Byte) :
    dwordOfBytes (bytes ++ [b]) = (dwordOfBytes bytes <<< 8) ||| b.setWidth 64 := by
  simp [dwordOfBytes, List.foldl_append]

/-- The byte shifted in is the lowest. -/
theorem shiftIn_lowest (x : DWord) (b : Byte) : ((x <<< 8) ||| b.setWidth 64).extractLsb' 0 8 = b := by
  ext p hp
  simp [hp, show p < 64 by omega]

/-- A byte shifted in moves the others one place up. -/
theorem shiftIn_above (x : DWord) (b : Byte) {k : Nat} (hk : k < 7) :
    ((x <<< 8) ||| b.setWidth 64).extractLsb' (8 * (k + 1)) 8 = x.extractLsb' (8 * k) 8 := by
  ext p hp
  have hin : 8 * (k + 1) + p < 64 := by omega
  have hnot : ¬8 * (k + 1) + p < 8 := by omega
  have hdown : 8 * (k + 1) + p - 8 = 8 * k + p := by omega
  rw [BitVec.getElem_extractLsb', BitVec.getElem_extractLsb', BitVec.getLsbD_or, BitVec.getLsbD_shiftLeft,
    BitVec.getLsbD_setWidth, BitVec.getLsbD_of_ge b _ (by omega), hdown, decide_eq_true hin, decide_eq_false hnot]
  simp

/-- The bytes of at most eight stand in their value from the most significant down. -/
theorem dwordOfBytes_byte (bytes : List Byte) (hlen : bytes.length ≤ 8) {i : Nat} (hi : i < bytes.length) :
    (dwordOfBytes bytes).extractLsb' (8 * (bytes.length - 1 - i)) 8 = bytes[i] := by
  induction bytes using List.reverseRecOn with
  | nil => exact absurd hi (Nat.not_lt_zero i)
  | append_singleton bs b ih =>
    rw [List.length_append, List.length_singleton] at hlen hi
    rw [dwordOfBytes_append_byte, List.length_append, List.length_singleton, Nat.add_sub_cancel]
    by_cases he : i = bs.length
    · subst he
      rw [Nat.sub_self, Nat.mul_zero, shiftIn_lowest, List.getElem_concat_length rfl]
    · have hlt : i < bs.length := by omega
      have hplace : bs.length - i = bs.length - 1 - i + 1 := by omega
      rw [hplace, shiftIn_above _ _ (by omega), ih (by omega) hlt, List.getElem_append_left hlt]

theorem bytesOfDword_getElem (v : DWord) {i : Nat} (hi : i < (bytesOfDword v).length) :
    (bytesOfDword v)[i] = v.extractLsb' (8 * (7 - i)) 8 := by
  rw [bytesOfDword_length] at hi
  interval_cases i <;> rfl

theorem bytesOfDword_dwordOfBytes {bytes : List Byte} (h : bytes.length = 8) : bytesOfDword (dwordOfBytes bytes) = bytes := by
  refine List.ext_getElem h.symm fun i hi hi' => ?_
  have hbyte := dwordOfBytes_byte bytes (by omega) hi'
  rw [h] at hbyte
  rw [bytesOfDword_getElem _ hi, hbyte]

/-- Bit `p` of a 64-bit value is bit `p % 8` of one of its bytes. -/
theorem getLsbD_eq_byte (v : DWord) {p : Nat} (hp : p < 64) :
    v.getLsbD p = ((bytesOfDword v)[7 - p / 8]'(by rw [bytesOfDword_length]; omega)).getLsbD (p % 8) := by
  have hplace : 8 * (7 - (7 - p / 8)) + p % 8 = p := by omega
  have hbit : p % 8 < 8 := Nat.mod_lt p (by decide)
  rw [bytesOfDword_getElem, BitVec.getLsbD_extractLsb', hplace]
  simp [hbit]

/-- A 64-bit value is determined by its bytes. -/
theorem bytesOfDword_injective {v w : DWord} (h : bytesOfDword v = bytesOfDword w) : v = w := by
  refine BitVec.eq_of_getLsbD_eq fun p hp => ?_
  rw [getLsbD_eq_byte v hp, getLsbD_eq_byte w hp]
  simp only [h]

theorem dwordOfBytes_bytesOfDword (v : DWord) : dwordOfBytes (bytesOfDword v) = v :=
  bytesOfDword_injective (bytesOfDword_dwordOfBytes (bytesOfDword_length v))

/-- Settles O41: each byte stands at its place in the value, and a value and its bytes determine each other. -/
theorem dwordsAreBigEndian : Obligations.DwordsAreBigEndian := by
  refine ⟨fun bytes i b hlen hb => ?_, dwordOfBytes_bytesOfDword, fun bytes hlen => bytesOfDword_dwordOfBytes hlen⟩
  obtain ⟨hi, rfl⟩ := List.getElem?_eq_some_iff.1 hb
  have hbyte := dwordOfBytes_byte bytes (by omega) hi
  rwa [hlen] at hbyte

end Sys2Proof.Machine
end

section
/-! The decoder and the encoder against each other, and the keys that are reserved (spec 30_encoding.md R111 to R116, R120). -/

namespace Sys2Proof

/-! ## The fields of a key -/

/-- The kinds of key, by class and by `W` where it matters (R111, log 13). -/
inductive KeyKind : BitVec 24 → Prop where
  | bus16 (w : Bool) (off : Half) : KeyKind (keyWord 0 w off)
  | bus32 (w : Bool) (off : Half) : KeyKind (keyWord 1 w off)
  | event (code : Half) : KeyKind (keyWord 2 false code)
  | eventWrite (code : Half) : KeyKind (keyWord 2 true code)
  | beyond (c : BitVec 7) (w : Bool) (off : Half) (h : 3 ≤ c.toNat) : KeyKind (keyWord c w off)

theorem keyWord_kind (c : BitVec 7) (w : Bool) (off : Half) : KeyKind (keyWord c w off) := by
  by_cases h3 : 3 ≤ c.toNat
  · exact .beyond c w off h3
  · obtain rfl | rfl | rfl : c = 0 ∨ c = 1 ∨ c = 2 := by bv_omega
    · exact .bus16 w off
    · exact .bus32 w off
    · cases w
      · exact .event off
      · exact .eventWrite off

/-- Every word is a key of one of the kinds. -/
theorem keyKind (word : BitVec 24) : KeyKind word :=
  keyWord_fields word ▸ keyWord_kind _ _ _

theorem keyWord_div_class (c : BitVec 7) (w : Bool) (off : Half) : (keyWord c w off).toNat / 0x20000 = c.toNat := by
  have ho := off.isLt
  have hw : w.toNat < 2 := w.toNat_lt
  rw [keyWord_toNat]
  omega

theorem keyWord_div_write (c : BitVec 7) (w : Bool) (off : Half) : (keyWord c w off).toNat / 0x10000 % 2 = w.toNat := by
  have ho := off.isLt
  have hw : w.toNat < 2 := w.toNat_lt
  rw [keyWord_toNat]
  omega

theorem keyWord_mod_offset (c : BitVec 7) (w : Bool) (off : Half) : (keyWord c w off).toNat % 0x10000 = off.toNat := by
  have ho := off.isLt
  rw [keyWord_toNat]
  omega

/-! ## The offsets of the unmapped and of the 32-bit rows -/

theorem getLsbD_zero_eq_false_iff (off : Half) : off.getLsbD 0 = false ↔ off.toNat % 2 = 0 := by
  rw [BitVec.getLsbD, Nat.testBit_zero, decide_eq_false_iff_not]
  omega

theorem unmappedOffset_iff {off : Half} : unmappedOffset off = true ↔ off.toNat % 2 = 0 ∧ Reg.ofOffset off = none := by
  rw [unmappedOffset, Bool.and_eq_true, Bool.not_eq_true', getLsbD_zero_eq_false_iff, Option.isNone_iff_eq_none]

theorem wideOffset_iff {off : Half} : wideOffset off = true ↔ off.toNat % 4 = 0 := by
  rw [wideOffset, beq_iff_eq, ← BitVec.toNat_inj, BitVec.extractLsb'_toNat, Nat.shiftRight_zero]
  rfl

/-! ## What each kind of key decodes to -/

theorem decode_mapped (w : Bool) (r : Reg) (op : Operand) :
    decode (keyWord 0 w r.offset) op = .ok (if w then r.wr16 op.half else r.rd16) := by
  rw [decode_bus16, decodeBus16, Reg.ofOffset_offset]

theorem decode_unmapped (w : Bool) {off : Half} (op : Operand) (h : unmappedOffset off = true) :
    decode (keyWord 0 w off) op = .ok (if w then .wr16Unmapped off op.half else .rd16Unmapped off) := by
  obtain ⟨heven, hnone⟩ := unmappedOffset_iff.1 h
  rw [decode_bus16, decodeBus16, hnone]
  exact if_neg (Bool.eq_false_iff.1 ((getLsbD_zero_eq_false_iff off).2 heven))

theorem decode_wide (w : Bool) {off : Half} (op : Operand) (h : wideOffset off = true) :
    decode (keyWord 1 w off) op = .ok (if w then .wr32 off op.data else .rd32 off) := by
  rw [decode_bus32]
  exact if_pos (beq_iff_eq.1 h)

theorem decode_eventWrite (code : Half) (op : Operand) :
    decode (keyWord 2 true code) op = .error (.reservedEncoding (keyWord 2 true code).toNat) := by
  simp only [decode, keyWord_class, keyWord_write]
  rfl

theorem decode_beyond {c : BitVec 7} (w : Bool) (off : Half) (op : Operand) (h : 3 ≤ c.toNat) :
    decode (keyWord c w off) op = .error (.reservedEncoding (keyWord c w off).toNat) := by
  simp only [decode, keyWord_class]
  split
  case h_4 => rfl
  all_goals omega

/-! ## Encoding, then decoding -/

theorem half_of_setWidth (v : Half) : Operand.half { data := v.setWidth 32 } = v := by
  rw [Operand.half, BitVec.setWidth_setWidth_of_le v (by decide), BitVec.setWidth_eq]

theorem decode_encodeRd16 (r : Reg) : decode (encodeRd16 r).word (encodeRd16 r).operand = .ok r.rd16 :=
  decode_mapped false r {}

theorem decode_encodeWr16 (r : Reg) (v : Half) : decode (encodeWr16 r v).word (encodeWr16 r v).operand = .ok (r.wr16 v) := by
  have hdec := decode_mapped true r { data := v.setWidth 32 }
  rwa [half_of_setWidth] at hdec

/-- Settles O1: the rows of the registers by the register map, the unmapped and the wide rows by the form of their offset, the
events by their code. -/
theorem encodeThenDecodeReturnsInstr : Obligations.EncodeThenDecodeReturnsInstr := by
  intro i hw
  cases i with
  | rd16Unmapped off => exact decode_unmapped false {} hw
  | wr16Unmapped off v =>
    have hdec := decode_unmapped true { data := v.setWidth 32 } hw
    rwa [half_of_setWidth] at hdec
  | rd32 off => exact decode_wide false {} hw
  | wr32 off d => exact decode_wide true { data := d } hw
  | tick | fireDspint | fireAramint | coreIrq | sliceCredit | advance | init | shutdown | snapshot | restore =>
    exact (decode_event _ _).trans rfl
  | rd16MboxToHi | rd16MboxToLo | rd16MboxFromHi | rd16MboxFromLo | rd16Ctrl | rd16ArInfo | rd16ArMode | rd16ArRefresh
  | rd16ArMmHi | rd16ArMmLo | rd16ArArHi | rd16ArArLo | rd16ArCntHi | rd16ArCntLo | rd16AuSrcHi | rd16AuSrcLo | rd16AuCtl
  | rd16AuLeft => exact decode_encodeRd16 _
  | wr16MboxToHi v | wr16MboxToLo v | wr16MboxFromHi v | wr16MboxFromLo v | wr16Ctrl v | wr16ArInfo v | wr16ArMode v
  | wr16ArRefresh v | wr16ArMmHi v | wr16ArMmLo v | wr16ArArHi v | wr16ArArLo v | wr16ArCntHi v | wr16ArCntLo v
  | wr16AuSrcHi v | wr16AuSrcLo v | wr16AuCtl v | wr16AuLeft v => exact decode_encodeWr16 _ v

/-! ## Decoding, then encoding -/

theorem encode_rd16 (r : Reg) : encode r.rd16 = encodeRd16 r := by cases r <;> rfl

theorem encode_wr16 (r : Reg) (v : Half) : encode (r.wr16 v) = encodeWr16 r v := by cases r <;> rfl

theorem encode_word_of_decodeBus16 {w : Bool} {off : Half} {op : Operand} {i : Instr} (h : decodeBus16 w off op = .ok i) :
    (encode i).word = keyWord 0 w off := by
  unfold decodeBus16 at h
  split at h
  · next r hr =>
    obtain rfl := Except.ok.inj h
    obtain rfl := Reg.offset_of_ofOffset hr
    cases w
    · exact congrArg Encoded.word (encode_rd16 r)
    · exact congrArg Encoded.word (encode_wr16 r op.half)
  · split at h
    · cases h
    · obtain rfl := Except.ok.inj h
      cases w <;> rfl

theorem encode_word_of_decodeBus32 {w : Bool} {off : Half} {op : Operand} {i : Instr} (h : decodeBus32 w off op = .ok i) :
    (encode i).word = keyWord 1 w off := by
  unfold decodeBus32 at h
  split at h
  · obtain rfl := Except.ok.inj h
    cases w <;> rfl
  · cases h

theorem encode_word_of_decodeEvent {key : Nat} {code : Half} {op : Operand} {i : Instr} (h : decodeEvent key code op = .ok i) :
    (encode i).word = keyWord 2 false code := by
  unfold decodeEvent at h
  split at h
  case h_11 => cases h
  all_goals
    next hcode =>
    obtain rfl := Except.ok.inj h
    exact congrArg (keyWord 2 false) (BitVec.eq_of_toNat_eq hcode.symm)

/-- The key of what a word decodes to is that word. -/
theorem encode_word_of_decode {word : BitVec 24} {op : Operand} {i : Instr} (h : decode word op = .ok i) :
    (encode i).word = word := by
  cases keyKind word with
  | bus16 w off => exact encode_word_of_decodeBus16 (decode_bus16 w off op ▸ h)
  | bus32 w off => exact encode_word_of_decodeBus32 (decode_bus32 w off op ▸ h)
  | event code => exact encode_word_of_decodeEvent (decode_event code op ▸ h)
  | eventWrite code => cases (decode_eventWrite code op).symm.trans h
  | beyond c w off h3 => cases (decode_beyond w off op h3).symm.trans h

/-- Settles O2: the decoder answers well-formed instructions, and their key is the word it read. -/
theorem decodedKeyIsItsEncoding : Obligations.DecodedKeyIsItsEncoding :=
  fun _ _ _ h => ⟨decode_wellFormed h, encode_word_of_decode h⟩

/-! ## The order of the rows -/

/-- A word beyond the three classes of a step, as a number (R111, log 13). -/
theorem decode_of_three_le {word : BitVec 24} (op : Operand) (h : 3 ≤ word.toNat / 0x20000) :
    decode word op = .error (.reservedEncoding word.toNat) := by
  rw [← keyWord_fields word] at h ⊢
  rw [keyWord_div_class] at h
  exact decode_beyond _ _ op h

/-- Settles O3, a clause for each kind of key. -/
theorem decoderSelectsRows : Obligations.DecoderSelectsRows := by
  refine ⟨fun r op => ⟨decode_mapped false r op, decode_mapped true r op⟩, fun off op heven hreg => ?_, fun off op haligned => ?_,
    fun op => ⟨rfl, rfl, rfl, rfl, rfl, rfl, rfl, rfl, rfl, rfl⟩, fun _ => decode_of_three_le⟩
  · have hoff := unmappedOffset_iff.2 ⟨heven, Reg.ofOffset_none hreg⟩
    exact ⟨decode_unmapped false op hoff, decode_unmapped true op hoff⟩
  · have hoff := wideOffset_iff.2 haligned
    exact ⟨decode_wide false op hoff, decode_wide true op hoff⟩

/-! ## The reserved keys -/

/-- A bus key of 16 bits is never reserved: at worst its access is unsupported. -/
theorem decodeBus16_not_reserved (w : Bool) (off : Half) (op : Operand) (k : Nat) :
    decodeBus16 w off op ≠ .error (.reservedEncoding k) := by
  unfold decodeBus16
  split
  · exact nofun
  · split <;> exact nofun

theorem decodeBus32_not_reserved (w : Bool) (off : Half) (op : Operand) (k : Nat) :
    decodeBus32 w off op ≠ .error (.reservedEncoding k) := by
  unfold decodeBus32
  split <;> exact nofun

/-- The event codes are 1 to 10 (R114). -/
theorem decodeEvent_reserved_iff (key : Nat) (code : Half) (op : Operand) :
    decodeEvent key code op = .error (.reservedEncoding key) ↔ code.toNat = 0 ∨ 0x000A < code.toNat := by
  unfold decodeEvent
  split
  case h_11 =>
    refine iff_of_true rfl ?_
    simp only [imp_false] at *
    omega
  all_goals exact iff_of_false nofun (by omega)

/-- The words R111 reserves (log 13). -/
def ReservedKey (word : BitVec 24) : Prop :=
  3 ≤ word.toNat / 0x20000 ∨ (word.toNat / 0x20000 = 2 ∧
    (word.toNat / 0x10000 % 2 = 1 ∨ word.toNat % 0x10000 = 0 ∨ 0x000A < word.toNat % 0x10000))

/-- Whether a key is reserved, by its fields. -/
theorem reservedKey_keyWord_iff {c : BitVec 7} {w : Bool} {off : Half} : ReservedKey (keyWord c w off) ↔
    3 ≤ c.toNat ∨ (c.toNat = 2 ∧ (w.toNat = 1 ∨ off.toNat = 0 ∨ 0x000A < off.toNat)) := by
  rw [ReservedKey, keyWord_div_class, keyWord_div_write, keyWord_mod_offset]

theorem reservedKey_iff_decode (word : BitVec 24) (op : Operand) :
    ReservedKey word ↔ decode word op = .error (.reservedEncoding word.toNat) := by
  cases keyKind word with
  | bus16 w off =>
    rw [reservedKey_keyWord_iff, decode_bus16]
    exact iff_of_false (by simp) (decodeBus16_not_reserved w off op _)
  | bus32 w off =>
    rw [reservedKey_keyWord_iff, decode_bus32]
    exact iff_of_false (by simp) (decodeBus32_not_reserved w off op _)
  | event code =>
    rw [reservedKey_keyWord_iff, decode_event, decodeEvent_reserved_iff]
    simp
  | eventWrite code => exact iff_of_true (reservedKey_keyWord_iff.2 (.inr ⟨rfl, .inl rfl⟩)) (decode_eventWrite code op)
  | beyond c w off h3 => exact iff_of_true (reservedKey_keyWord_iff.2 (.inl h3)) (decode_beyond w off op h3)

namespace Machine

/-- A live block refuses a key that does not decode. -/
theorem step_of_decode_error {s : State} {p : Input} {rest : List Input} {word : BitVec 24} {op : Operand} {e : DecodeError}
    (hlive : s.status = .live) (hin : s.inbox = p :: rest) (hkey : p.what = .keyed word op) (hdec : decode word op = .error e) :
    step s = .refused (refusalOf e) := by
  have hfetch : fetch s.cfg p.what = fetchedOf (decode word op) := by rw [hkey, fetch]
  exact step_of_rejected hlive hin (hfetch.trans (by rw [hdec, fetchedOf]))

/-- Settles O4: which keys are reserved by the kinds of key, and the refusal by the step on a key that does not decode. -/
theorem reservedKeysAreRefused : Obligations.ReservedKeysAreRefused := by
  refine fun word op => ⟨reservedKey_iff_decode word op, fun s p rest hin hkey hlive hdec => ?_⟩
  have hstep : step s = .refused (.reservedEncoding word.toNat) := step_of_decode_error hlive hin hkey hdec
  exact ⟨hstep, hstep ▸ rfl⟩

end Machine

/-- Settles O6: each key is written out, so each clause is a run of the decoder. -/
theorem specKeysDecodeAsWritten : Obligations.SpecKeysDecodeAsWritten :=
  ⟨rfl, rfl, rfl, rfl, rfl, rfl, rfl, rfl, rfl, rfl, rfl, rfl⟩

end Sys2Proof
end

section
/-! The register bank by numbers: a direct read returns a half of the store, a direct write stores the masked value in it, and an
invalid or unmapped access leaves the registers (spec 40_register_bank.md R141, R142, R150, R151, R158, 42_audio_dma.md R212). -/

namespace Sys2Proof.Machine

/-! ## Halves as numbers -/

theorem hiHalf_eq_ofNat (f : Word) : hiHalf f = BitVec.ofNat 16 (f.toNat / 0x10000) := by
  rw [hiHalf, BitVec.extractLsb', Nat.shiftRight_eq_div_pow]

theorem loHalf_eq_ofNat (f : Word) : loHalf f = BitVec.ofNat 16 (f.toNat % 0x10000) := by
  apply BitVec.eq_of_toNat_eq
  rw [loHalf, BitVec.extractLsb'_toNat, Nat.shiftRight_zero, BitVec.toNat_ofNat, Nat.mod_mod]

theorem setHi_eq_ofNat (f : Word) (h : Half) : setHi f h = BitVec.ofNat 32 (h.toNat * 0x10000 + f.toNat % 0x10000) := by
  rw [← setHi_toNat, BitVec.ofNat_toNat, BitVec.setWidth_eq]

theorem setLo_eq_ofNat (f : Word) (l : Half) : setLo f l = BitVec.ofNat 32 (f.toNat / 0x10000 * 0x10000 + l.toNat) := by
  rw [← setLo_toNat, BitVec.ofNat_toNat, BitVec.setWidth_eq]

/-- The blocks left are one less than the countdown, and 0 at 0 (R212). -/
theorem auLeft_eq_ofNat (s : State) : auLeft s = BitVec.ofNat 16 (s.auRem.toNat - 1) := by
  unfold auLeft
  split
  · next h => rw [h]; rfl
  · next h =>
    have hpos : 1 ≤ s.auRem := by bv_omega
    apply BitVec.eq_of_toNat_eq
    rw [BitVec.toNat_setWidth, BitVec.toNat_sub_of_le hpos, BitVec.toNat_ofNat]
    rfl

/-! ## 16-bit rows of the bank -/

/-- Settles O11: each row is the read of its store, once the halves are written as halves. -/
theorem registerReadsReturnTheStore : Obligations.RegisterReadsReturnTheStore := by
  intro s h
  simp only [← hiHalf_eq_ofNat, ← loHalf_eq_ofNat, ← auLeft_eq_ofNat]
  exact ⟨readStep_of_live rdArInfo h, readStep_of_live rdArMode h, readStep_of_live rdArRefresh h,
    readStep_of_live rdArMmHi h, readStep_of_live rdArMmLo h, readStep_of_live rdArArHi h, readStep_of_live rdArArLo h,
    readStep_of_live rdArCntHi h, readStep_of_live rdArCntLo h, readStep_of_live rdAuSrcHi h, readStep_of_live rdAuSrcLo h,
    readStep_of_live rdAuCtl h, readStep_of_live rdAuLeft h⟩

/-- Settles O12: each row is the write of its half under its mask, once the new pairs are written as pairs. -/
theorem directWritesStoreTheMaskedValue : Obligations.DirectWritesStoreTheMaskedValue := by
  intro s v h
  simp only [← setHi_eq_ofNat, ← setLo_eq_ofNat]
  exact ⟨quietStep_of_ok (op := wrArInfo v) h rfl, quietStep_of_ok (op := wrArRefresh v) h rfl,
    quietStep_of_ok (op := wrArMmHi v) h rfl, quietStep_of_ok (op := wrArMmLo v) h rfl,
    quietStep_of_ok (op := wrArArHi v) h rfl, quietStep_of_ok (op := wrArArLo v) h rfl,
    quietStep_of_ok (op := wrArCntHi v) h rfl, quietStep_of_ok (op := wrAuSrcHi v) h rfl,
    quietStep_of_ok (op := wrAuSrcLo v) h rfl⟩

/-- Settles O13: an invalid write is one record, an unmapped access only its reply. -/
theorem invalidAndUnmappedAccessesChangeNothing : Obligations.InvalidAndUnmappedAccessesChangeNothing := by
  intro s off v h
  exact ⟨quietStep_of_ok (op := wrMboxFromHi v) h rfl, quietStep_of_ok (op := wrMboxFromLo v) h rfl,
    quietStep_of_ok (op := wrArMode v) h rfl, quietStep_of_ok (op := wrAuLeft v) h rfl,
    exec_unmapped16 h false off v, exec_unmapped16 h true off v⟩

end Sys2Proof.Machine
end

section
/-! 32-bit accesses as the two 16-bit rows of their halves, and the pairs with one unmapped half (spec 40_register_bank.md R155 to
R157). -/

namespace Sys2Proof.Machine

/-! ## The 16-bit row at an offset -/

theorem exec_rd16 (r : Reg) (s : State) : exec r.rd16 s = readStep (read16 r.offset) s := by cases r <;> rfl

theorem exec_wr16 (r : Reg) (v : Half) (s : State) : exec (r.wr16 v) s = quietStep (write16 r.offset v) s := by cases r <;> rfl

/-- A 16-bit read key at an even offset decodes to the row that reads that offset, mapped or not. -/
theorem exists_decode_read16 {off : Half} (heven : off.toNat % 2 = 0) (op : Operand) :
    ∃ i, decode (keyWord 0 false off) op = .ok i ∧ ∀ s, exec i s = readStep (read16 off) s := by
  cases h : Reg.ofOffset off with
  | some r =>
    obtain rfl := Reg.offset_of_ofOffset h
    exact ⟨r.rd16, decode_mapped false r op, exec_rd16 r⟩
  | none =>
    refine ⟨.rd16Unmapped off, decode_unmapped false op (unmappedOffset_iff.2 ⟨heven, h⟩), fun s => ?_⟩
    rw [funext (read16_of_unmapped h)]
    rfl

/-- A 16-bit write key at an even offset decodes to the row that writes that offset, mapped or not. -/
theorem exists_decode_write16 {off : Half} (heven : off.toNat % 2 = 0) (op : Operand) :
    ∃ i, decode (keyWord 0 true off) op = .ok i ∧ ∀ s, exec i s = quietStep (write16 off op.half) s := by
  cases h : Reg.ofOffset off with
  | some r =>
    obtain rfl := Reg.offset_of_ofOffset h
    exact ⟨r.wr16 op.half, decode_mapped true r op, exec_wr16 r op.half⟩
  | none =>
    refine ⟨.wr16Unmapped off op.half, decode_unmapped true op (unmappedOffset_iff.2 ⟨heven, h⟩), fun s => ?_⟩
    rw [funext (write16_of_unmapped h op.half)]
    rfl

/-! ## The two halves of an access -/

theorem read16_status (off : Half) (s : State) : (read16 off s).2.status = s.status := by
  obtain ⟨c, l, x, d, hr⟩ := read16_frame off s
  rw [hr]

theorem PlainWrite.status_eq {s t : State} (h : PlainWrite s t) : t.status = s.status := by
  obtain ⟨_, _, _, _, _, _, _, rfl⟩ := h.frame
  rfl

theorem half_of_hiHalf (d : Word) : Operand.half { data := BitVec.ofNat 32 (d.toNat / 0x10000) } = hiHalf d := by
  rw [Operand.half, BitVec.setWidth_ofNat_of_le (by decide), hiHalf_eq_ofNat]

theorem half_of_loHalf (d : Word) : Operand.half { data := BitVec.ofNat 32 (d.toNat % 0x10000) } = loHalf d := by
  rw [Operand.half, BitVec.setWidth_ofNat_of_le (by decide), loHalf_eq_ofNat]

/-- A 16-bit read overwrites the reply of the step before. -/
theorem readStep_replied (off : Half) (s : State) (r : Reply) : readStep (read16 off) (s.replied r) = readStep (read16 off) s := by
  unfold readStep
  rw [read16_replied]
  rfl

/-- A step that returns nothing overwrites the reply of the step before. -/
theorem quietStep_replied {op : State → Except Fault State} (hop : ReplyBlind op) (s : State) (r : Reply) :
    quietStep op (s.replied r) = quietStep op s := by
  unfold quietStep
  rw [hop s r]
  cases op s <;> rfl

/-- Once the high half of a 32-bit write is done, what is left is the write of the low half (R156). -/
theorem exec_wr32_of_high {s t : State} {off : Half} {d : Word} (hhi : write16 off (hiHalf d) s = .ok t)
    (hst : t.status = s.status) : exec (.wr32 off d) s = quietStep (write16 (off + 2) (loHalf d)) t := by
  change quietStep (write32 off d) s = _
  simp only [quietStep, whenLive, write32, hhi, hst]

/-- The pairs that do not end in the trigger or in the audio control register complete. -/
theorem exists_write32_ok {off : Half} (d : Word) (s : State) (hoff : wideOffset off = true) (hcnt : off ≠ 0x5028)
    (hau : off ≠ 0x5034) : ∃ t, write32 off d s = .ok t := by
  by_cases hctrl : off = 0x5008
  · subst hctrl
    exact ⟨_, (write32_ctrl d s).trans (wrCtrl_eq _ s)⟩
  · obtain ⟨t, ht, -⟩ := write32_plain d s hoff hctrl hcnt hau
    exact ⟨t, ht⟩

/-- Settles O14: the rows of the two halves read their offsets, and the second read does not look at the reply of the first. -/
theorem wideReadIsTwoReads : Obligations.WideReadIsTwoReads := by
  intro s off h haligned
  obtain ⟨i, hi, hexi⟩ := exists_decode_read16 (off := off) (by omega) {}
  obtain ⟨j, hj, hexj⟩ := exists_decode_read16 (off := off + 2) (by bv_omega) {}
  have hlive := (read16_status off s).trans h
  have hwide := exec_rd32_of_live h off
  rcases hrd : read16 off s with ⟨a, t⟩
  rw [hrd] at hlive hwide
  rcases hrd' : read16 (off + 2) t with ⟨b, u⟩
  rw [hrd'] at hwide
  have hhigh : exec i s = .next (t.replied (.half a)) := by rw [hexi, readStep_of_live _ h, hrd]
  have hlow : exec j (t.replied (.half a)) = .next (u.replied (.half b)) := by
    rw [hexj, readStep_replied, readStep_of_live _ hlive, hrd']
  exact ⟨i, j, a, b, _, _, hi, hj, hhigh, rfl, hlow, rfl, hwide⟩

/-- Settles O15: the high half of a pair is a plain write, and the low half runs from the state it leaves. -/
theorem wideWriteIsTwoWrites : Obligations.WideWriteIsTwoWrites := by
  intro s off d h haligned
  have hoff : wideOffset off = true := wideOffset_iff.2 haligned
  refine ⟨?_, fun hcnt hau => ?_⟩
  · obtain ⟨i, hi, hexi⟩ := exists_decode_write16 (off := off) (by omega) { data := BitVec.ofNat 32 (d.toNat / 0x10000) }
    obtain ⟨j, hj, hexj⟩ := exists_decode_write16 (off := off + 2) (by bv_omega) { data := BitVec.ofNat 32 (d.toNat % 0x10000) }
    refine ⟨i, j, hi, hj, ?_⟩
    obtain ⟨t, ht, hplain⟩ := write16_plain (hiHalf d) s (specialWrite_wide hoff)
    have hhigh : exec i s = .next (t.replied .none) := by
      rw [hexi, half_of_hiHalf]
      exact quietStep_of_ok h ht
    have hlow : exec j (t.replied .none) = quietStep (write16 (off + 2) (loHalf d)) t := by
      rw [hexj, half_of_loHalf, quietStep_replied (replyBlind_write16 _ _)]
    rw [exec_wr32_of_high ht hplain.status_eq, hhigh]
    exact hlow.symm
  · obtain ⟨t, ht⟩ := exists_write32_ok d s hoff hcnt hau
    exact ⟨_, quietStep_of_ok (op := write32 off d) h ht⟩

/-! ## Pairs with an unmapped high half -/

theorem exec_rd32_of_unmapped_high {s : State} (h : s.status = .live) {off : Half} (hhi : Reg.ofOffset off = none) :
    exec (.rd32 off) s = .next ((read16 (off + 2) s).2.replied (.word (s.cfg.unmappedRead16 ++ (read16 (off + 2) s).1))) := by
  rw [exec_rd32_of_live h off, read16_of_unmapped hhi]
  rfl

theorem exec_wr32_of_unmapped_high {off : Half} (hhi : Reg.ofOffset off = none) (d : Word) (s : State) :
    exec (.wr32 off d) s = quietStep (write16 (off + 2) (loHalf d)) s :=
  exec_wr32_of_high (write16_of_unmapped hhi (hiHalf d) s) rfl

/-- Settles O16: three pairs have an unmapped high half, and the fourth reads both halves of one store. -/
theorem wideAccessOfMixedPairs : Obligations.WideAccessOfMixedPairs := by
  intro s d h
  rw [← auLeft_eq_ofNat, ← loHalf_eq_ofNat]
  refine ⟨exec_rd32_of_unmapped_high h (off := 0x5034) rfl, exec_rd32_of_unmapped_high h (off := 0x5038) rfl, ?_,
    exec_wr32_of_unmapped_high (off := 0x5034) rfl d s, exec_wr32_of_unmapped_high (off := 0x5008) rfl d s,
    _, _, readStep_of_live rdCtrl h, rfl, exec_rd32_of_unmapped_high h (off := 0x5008) rfl⟩
  exact (exec_rd32_of_live h 0x5028).trans
    (congrArg (fun w => Host.Outcome.next (s.replied (.word w))) (hiHalf_append_loHalf s.arCnt))

end Sys2Proof.Machine
end

section
/-! ControlRegister: a read merges the core's answer into the stored copy, a write adopts and acknowledges bit by bit, and the line
follows the pending and enabled kinds (spec 41_control_interrupt.md R170, R175, R176, R184, R187, R188). -/

namespace Sys2Proof.Machine

/-! ## The masks by bits -/

theorem kindBits_getLsbD_iff (p : Nat) : kindBits.getLsbD p = true ↔ p = 3 ∨ p = 5 ∨ p = 7 := by
  by_cases hp : p < 16
  · have hall : ∀ k : Fin 16, kindBits.getLsbD k = true ↔ k.val = 3 ∨ k.val = 5 ∨ k.val = 7 := by decide
    exact hall ⟨p, hp⟩
  · rw [BitVec.getLsbD_of_ge _ _ (by omega)]
    exact iff_of_false Bool.false_ne_true (by omega)

theorem dmaActBit_getLsbD_of_ne {p : Nat} (h : p ≠ 9) : dmaActBit.getLsbD p = false := by
  have hpow : dmaActBit = BitVec.twoPow 16 9 := rfl
  rw [hpow, BitVec.getLsbD_twoPow, decide_eq_false h.symm, Bool.and_false]

/-- A write adopts exactly the bits that are neither a pending bit nor `DMA_ACT` (R171). -/
theorem adoptMask_eq : adoptMask = ~~~(kindBits ||| dmaActBit) := rfl

/-! ## The register after a write -/

/-- Every bit but the pending bits and `DMA_ACT` is the write's. -/
theorem ctrlWritten_adopted (c v : Half) {p : Nat} (hp : p < 16) (hkind : ¬(p = 3 ∨ p = 5 ∨ p = 7)) (hact : p ≠ 9) :
    (ctrlWritten c v).getLsbD p = v.getLsbD p := by
  have hk : kindBits.getLsbD p = false := Bool.eq_false_iff.2 (mt (kindBits_getLsbD_iff p).1 hkind)
  simp [ctrlWritten, adoptMask_eq, hk, dmaActBit_getLsbD_of_ne hact, hp, -BitVec.getLsbD_eq_getElem]

theorem ctrlWritten_getLsbD (c v : Half) {p : Nat} (hp : p < 16) : (ctrlWritten c v).getLsbD p =
    if p = 3 ∨ p = 5 ∨ p = 7 then c.getLsbD p && !v.getLsbD p else if p = 9 then c.getLsbD p else v.getLsbD p := by
  split
  · next hkind => exact ctrlWritten_pending c v hkind
  · next hkind =>
    split
    · next hact => rw [hact, ctrlWritten_dmaAct]
    · next hact => exact ctrlWritten_adopted c v hp hkind hact

/-! ## The line -/

theorem bne_zero_iff_exists_getLsbD (x : Half) : (x != 0) = true ↔ ∃ p, x.getLsbD p = true := by
  rw [bne_iff_ne]
  constructor
  · intro hne
    by_contra hnone
    exact hne (BitVec.eq_of_getLsbD_eq fun p _ => by simpa using not_exists.1 hnone p)
  · rintro ⟨p, hp⟩ rfl
    simp at hp

/-- The line is asserted exactly when some pending bit and the enable bit above it are set (R184). -/
theorem lineOf_iff_exists (c : Half) :
    lineOf c = true ↔ ∃ p, (p = 3 ∨ p = 5 ∨ p = 7) ∧ c.getLsbD p = true ∧ c.getLsbD (p + 1) = true := by
  rw [lineOf, bne_zero_iff_exists_getLsbD]
  refine exists_congr fun p => ?_
  rw [BitVec.getLsbD_and, BitVec.getLsbD_and, BitVec.getLsbD_ushiftRight, Bool.and_eq_true, Bool.and_eq_true, kindBits_getLsbD_iff,
    Nat.add_comm 1 p]
  tauto

/-- The line after a write: some kind was pending, is not acknowledged, and is enabled by the write. -/
theorem lineOf_ctrlWritten_iff (c v : Half) : lineOf (ctrlWritten c v) = true ↔
    ∃ p, (p = 3 ∨ p = 5 ∨ p = 7) ∧ c.getLsbD p = true ∧ v.getLsbD p = false ∧ v.getLsbD (p + 1) = true := by
  rw [lineOf_iff_exists]
  refine exists_congr fun p => and_congr_right fun hp => ?_
  rw [ctrlWritten_pending c v hp, ctrlWritten_enable c v (by omega), Bool.and_eq_true, Bool.not_eq_true', and_assoc]

/-- Settles O22: the pending bits are bits 3, 5 and 7. -/
theorem lineMeansSomeKindPendingAndEnabled : Obligations.LineMeansSomeKindPendingAndEnabled := by
  intro c
  rw [lineOf_iff_exists]
  simp only [or_and_right, exists_or, exists_eq_left]

/-! ## The two rows -/

/-- A ControlRegister read touches the log and the model's answer fields. -/
theorem rdCtrl_eq (s : State) : rdCtrl s = (ctrlRead s.cfg s.ctrl (BitVec.ofNat 16 (nextAnswer s)), { s with
    log := s.log ++ [.coreReadControl (BitVec.ofNat 16 (nextAnswer s))]
    answers := (afterAnswer s).answers
    draws := (afterAnswer s).draws }) := by
  rw [rdCtrl, coreReadControl, afterAnswer_eq s]
  rfl

/-- Settles O20: the value of the read is the merge, and an answer that lies ready is the one consumed. -/
theorem ctrlReadMergesTheCoreBits : Obligations.CtrlReadMergesTheCoreBits := by
  intro s h
  refine ⟨BitVec.ofNat 16 (nextAnswer s), _, readStep_of_live rdCtrl h, ?_, fun x rest hans => ⟨?_, ?_⟩⟩
  · rw [rdCtrl_eq]
    rfl
  · rw [nextAnswer_cons hans]
  · rw [rdCtrl_eq]
    exact afterAnswer_answers hans

/-- The padding of a write is bits 15:12 (spec 10_state.md R37). -/
theorem padAnomaly_iff (v : Half) : padAnomaly v = true ↔ ¬v.toNat / 0x1000 = 0 := by
  have hpad : v &&& padMask = v >>> 12 <<< 12 := (BitVec.shiftLeft_ushiftRight (x := v) (n := 12)).symm
  rw [padAnomaly, bne_iff_ne, hpad, not_iff_not]
  bv_omega

/-- The state a ControlRegister write leaves: its effect, the padding read as a number, and no reply. -/
theorem exec_wr16Ctrl_of_live {s : State} (h : s.status = .live) (v : Half) : exec (.wr16Ctrl v) s = .next { s with
    ctrl := ctrlWritten s.ctrl v
    line := lineOf (ctrlWritten s.ctrl v)
    log := s.log ++ ([.coreWriteControl v (BitVec.ofNat 16 (nextAnswer s))] ++
      (if v.toNat / 0x1000 = 0 then [] else [.configurationAnomaly v]) ++ [.setLine (lineOf (ctrlWritten s.ctrl v))])
    answers := (afterAnswer s).answers, draws := (afterAnswer s).draws, reply := .none } := by
  refine quietStep_next _ h (wrCtrl_eq v s) ?_
  simp only [padAnomaly_iff, ite_not]
  rfl

/-- Settles O21: the register after the write, bit by bit. -/
theorem ctrlWriteAdoptsAndAcknowledges : Obligations.CtrlWriteAdoptsAndAcknowledges := by
  intro s v h
  exact ⟨_, _, exec_wr16Ctrl_of_live h v, rfl, fun k hk => ctrlWritten_getLsbD s.ctrl v hk⟩

/-- Settles O23: the kind stays pending by the register's rule, and the line is that of the kinds left pending and enabled. -/
theorem enablingAssertsAndMaskingKeepsPending : Obligations.EnablingAssertsAndMaskingKeepsPending := by
  intro s v p h hp hc hv
  have hpending : (ctrlWritten s.ctrl v).getLsbD p = true := by rw [ctrlWritten_pending s.ctrl v hp, hc, hv]; rfl
  refine ⟨fun hon => ⟨_, exec_wr16Ctrl_of_live h v, ?_, hpending⟩,
    fun hoff hothers => ⟨_, exec_wr16Ctrl_of_live h v, ?_, hpending⟩⟩
  · exact (lineOf_ctrlWritten_iff s.ctrl v).2 ⟨p, hp, hc, hv, hon⟩
  · refine Bool.eq_false_iff.2 fun hline => ?_
    obtain ⟨q, hq, hcq, hvq, hon⟩ := (lineOf_ctrlWritten_iff s.ctrl v).1 hline
    by_cases hqp : q = p
    · subst hqp
      cases hoff.symm.trans hon
    · exact hothers q hq hqp ⟨hcq, hvq, hon⟩

end Sys2Proof.Machine
end

section
/-! The audio DMA engine: the enable edge, the buffered configuration, the tick with and without a reload, and the period of the
countdown (spec 42_audio_dma.md R207 to R219). -/

namespace Sys2Proof.Machine

/-! ## The push of a buffer -/

theorem numBlocks_eq_zero {c : Half} (h : c.toNat % 0x8000 = 0) : numBlocks c = 0 := by
  rw [numBlocks_eq, h]
  rfl

/-- What the record gains when a buffer of `n` blocks at `a` is pushed: one read of the whole buffer where there is one, then the
push of its frames. -/
def bufferPush (m : Memory) (a : Word) (n : Nat) : List LogEntry :=
  (if n = 0 then [] else [.memRead a (mainBytes m a (n * 32))]) ++ [.push (.main a) (n * 8) (mainBytes m a (n * 32))]

/-- The push succeeds where the count is 0 or memory stands behind the whole buffer, and adds to the record only. -/
theorem auPush_of_pushable {s : State}
    (h : s.auCtl.toNat % 0x8000 = 0 ∨ mainMap s.cfg s.auSrc (s.auCtl.toNat % 0x8000 * 32) = true) :
    auPush s = .ok { s with log := s.log ++ bufferPush s.mem s.auSrc (s.auCtl.toNat % 0x8000) } := by
  by_cases h0 : s.auCtl.toNat % 0x8000 = 0
  · rw [auPush_of_empty (numBlocks_eq_zero h0), h0]
    rfl
  · have hmap := h.resolve_left h0
    rw [← numBlocks_toNat] at hmap
    rw [auPush_of_mapped (numBlocks_ne_zero h0) hmap, numBlocks_toNat, bufferPush, if_neg h0]
    rfl

/-! ## Writes of the configuration -/

/-- The enable edge loads the cursor and the countdown, pushes the buffer and schedules kind A (R208). -/
theorem wrAuCtl_of_edge {s : State} {v : Half} (hoff : s.auCtl.getLsbD 15 = false) (hon : v.getLsbD 15 = true)
    (h : v.toNat % 0x8000 = 0 ∨ mainMap s.cfg s.auSrc (v.toNat % 0x8000 * 32) = true) :
    wrAuCtl v s = .ok (schedule 200 (.dspInt KindSet.kindA) .emu { s with
      auCtl := v, auCur := s.auSrc, auRem := numBlocks v
      log := s.log ++ bufferPush s.mem s.auSrc (v.toNat % 0x8000) }) := by
  have hedge : (!auEnable s.auCtl && auEnable v) = true := by rw [auEnable_eq, auEnable_eq, hoff, hon]; rfl
  have hpush := auPush_of_pushable (s := auReload { s with auCtl := v }) h
  rw [wrAuCtl, if_pos hedge, audioStart, hpush]
  rfl

/-- Without an enable edge a write of the control register is buffered (R207, R209). -/
theorem wrAuCtl_of_no_edge {s : State} {v : Half} (h : s.auCtl.getLsbD 15 = true ∨ v.getLsbD 15 = false) :
    wrAuCtl v s = .ok { s with auCtl := v } := by
  have hedge : ¬(!auEnable s.auCtl && auEnable v) = true := by
    rw [auEnable_eq, auEnable_eq]
    obtain hon | hoff := h
    · rw [hon]
      exact Bool.false_ne_true
    · rw [hoff, Bool.and_false]
      exact Bool.false_ne_true
  rw [wrAuCtl, if_neg hedge]

/-- Settles O28: the effect of the enable edge, its bytes read at addresses modulo 2^32. -/
theorem enableEdgeStartsTheAudioDma : Obligations.EnableEdgeStartsTheAudioDma := by
  intro s v hlive hoff hon hmap
  refine quietStep_next _ hlive (wrAuCtl_of_edge hoff hon hmap) ?_
  rw [← numBlocks_eq, ← mainBytes_eq, ← List.append_assoc]
  simp [schedule, State.record, State.replied, bufferPush, KindSet.kindA]

/-- Settles O29: no edge, and the two source halves. -/
theorem withoutAnEdgeTheConfigurationIsBuffered : Obligations.WithoutAnEdgeTheConfigurationIsBuffered := fun _ v hlive =>
  ⟨fun h => quietStep_of_ok hlive (wrAuCtl_of_no_edge h),
    ⟨_, quietStep_of_ok (op := wrAuSrcHi v) hlive rfl, rfl, rfl⟩, ⟨_, quietStep_of_ok (op := wrAuSrcLo v) hlive rfl, rfl, rfl⟩⟩

/-! ## Ticks -/

/-- With two or more blocks left an enabled tick consumes one (R217). -/
theorem exec_tick_of_more {s : State} (hlive : s.status = .live) (hon : s.auCtl.getLsbD 15 = true) (hrem : 2 ≤ s.auRem.toNat) :
    exec .tick s = .next { s with auRem := s.auRem - 1, auCur := s.auCur + 32, reply := .none } := by
  refine quietStep_next _ hlive (tickOp_more hon hrem) ?_
  rw [(auConsume_more hrem).1]
  rfl

/-- With one block or none left an enabled tick reloads, and a count of 0 ends it (R218). -/
theorem exec_tick_of_empty_reload {s : State} (hlive : s.status = .live) (hon : s.auCtl.getLsbD 15 = true)
    (hrem : s.auRem.toNat ≤ 1) (hn : s.auCtl.toNat % 0x8000 = 0) :
    exec .tick s = .next { s with auCur := s.auSrc, auRem := 0, reply := .none } := by
  have hempty := numBlocks_eq_zero hn
  have htick : tickOp s = .ok (auReload s) := by rw [tickOp_reload hon hrem, if_pos hempty]
  refine quietStep_next _ hlive htick ?_
  rw [auReload, hempty]
  rfl

/-- With one block or none left an enabled tick reloads; a count that is not 0 pushes the buffer and raises kind A (R218). -/
theorem exec_tick_of_reload {s : State} (hlive : s.status = .live) (hon : s.auCtl.getLsbD 15 = true)
    (hrem : s.auRem.toNat ≤ 1) (hn : s.auCtl.toNat % 0x8000 ≠ 0)
    (hmap : mainMap s.cfg s.auSrc (s.auCtl.toNat % 0x8000 * 32) = true) :
    exec .tick s = .next ((raise KindSet.kindA { s with
      auCur := s.auSrc, auRem := numBlocks s.auCtl
      log := s.log ++ bufferPush s.mem s.auSrc (s.auCtl.toNat % 0x8000) }).replied .none) := by
  refine quietStep_of_ok hlive ?_
  have hpush := auPush_of_pushable (s := auReload s) (.inr hmap)
  rw [tickOp_reload hon hrem, if_neg (numBlocks_ne_zero hn), hpush]
  rfl

/-- Settles O30: silence, or one block less. -/
theorem ticksWithoutReload : Obligations.TicksWithoutReload := by
  refine fun s hlive => ⟨fun hoff => quietStep_of_ok hlive (tickOp_disabled hoff), fun hon hrem => ?_⟩
  have hrem' : BitVec.ofNat 15 (s.auRem.toNat - 1) = s.auRem - 1 := by bv_omega
  have hcur : BitVec.ofNat 32 (s.auCur.toNat + 32) = s.auCur + 32 := by bv_omega
  rw [exec_tick_of_more hlive hon hrem, hrem', hcur]

/-- Settles O31: a count of 0, and any other. -/
theorem lastTickReloads : Obligations.LastTickReloads := by
  refine fun s hlive hon hrem => ⟨exec_tick_of_empty_reload hlive hon hrem, fun hn hmap => ?_⟩
  rw [exec_tick_of_reload hlive hon hrem hn hmap, ← numBlocks_eq, ← mainBytes_eq, bufferPush, if_neg hn]
  simp [raise, updateLine, State.record, State.replied, KindSet.kindA, KindSet.bits, kindBits]

/-! ## The period of the countdown -/

/-- `AuLeft()` as a number: one less than the countdown, and 0 at 0 (R212). -/
theorem auLeft_eq (s : State) : auLeft s = BitVec.ofNat 16 (s.auRem.toNat - 1) := by
  unfold auLeft
  split
  · next h0 => rw [h0]; rfl
  · next h0 => bv_omega

/-- A live, enabled block `k` ticks after the buffer of `n` blocks that `s` configures was loaded. -/
structure TicksAfterLoad (s : State) (n k : Nat) (t : State) : Prop where
  live : t.status = .live
  cfg : t.cfg = s.cfg
  auCtl : t.auCtl = s.auCtl
  auSrc : t.auSrc = s.auSrc
  auRem : t.auRem.toNat = n - k % n
  auCur : t.auCur = s.auSrc + BitVec.ofNat 32 (32 * (k % n))

section
variable {s : State} {n : Nat} (hon : s.auCtl.getLsbD 15 = true) (hpos : 1 ≤ n) (hn : s.auCtl.toNat % 0x8000 = n)
  (hmap : mainMap s.cfg s.auSrc (n * 32) = true)
include hon hpos hn hmap

/-- A tick moves on by one: it consumes a block while `k` mod `n` is not the last, and reloads when it is. -/
theorem TicksAfterLoad.tick {k : Nat} {t : State} (h : TicksAfterLoad s n k t) :
    ∃ u, exec .tick t = .next u ∧ TicksAfterLoad s n (k + 1) u := by
  obtain ⟨hlive, hcfg, hctl, hsrc, hrem, hcur⟩ := h
  have hlt : k % n < n := Nat.mod_lt k hpos
  have hon' : t.auCtl.getLsbD 15 = true := hctl ▸ hon
  have hmod : (k + 1) % n = (k % n + 1) % n := (Nat.mod_add_mod k n 1).symm
  by_cases hlast : k % n + 1 < n
  · rw [Nat.mod_eq_of_lt hlast] at hmod
    refine ⟨_, exec_tick_of_more hlive hon' (by omega), hlive, hcfg, hctl, hsrc, ?_, ?_⟩
    · rw [(auConsume_more (by omega)).2.1, hrem, hmod]
      omega
    · rw [hmod, Nat.mul_add, BitVec.ofNat_add, ← BitVec.add_assoc, ← hcur]
      rfl
  · have hn' : t.auCtl.toNat % 0x8000 = n := hctl ▸ hn
    have hwrap : k % n + 1 = n := by omega
    rw [hwrap, Nat.mod_self] at hmod
    refine ⟨_, exec_tick_of_reload hlive hon' (by omega) (by omega) (by rwa [hn', hcfg, hsrc]), hlive, hcfg, hctl, hsrc, ?_, ?_⟩
    · rw [hmod]
      exact (numBlocks_toNat t.auCtl).trans hn'
    · rw [hmod]
      exact hsrc.trans (BitVec.add_zero _).symm

/-- So `k` ticks in a row move on by `k`, none of them faulting. -/
theorem TicksAfterLoad.after_ticks {j : Nat} {t : State} (h : TicksAfterLoad s n j t) (k : Nat) :
    ∃ u, ticks k t = .next u ∧ TicksAfterLoad s n (j + k) u := by
  induction k generalizing j t with
  | zero => exact ⟨t, rfl, h⟩
  | succ k ih =>
    obtain ⟨u, hu, hafter⟩ := h.tick hon hpos hn hmap
    obtain ⟨w, hw, hafter'⟩ := ih hafter
    refine ⟨w, ?_, Nat.add_right_comm j 1 k ▸ hafter'⟩
    rw [ticks, hu]
    exact hw

end

/-- Settles O32: every tick keeps `TicksAfterLoad` and counts one on, and the read takes its value from the countdown. -/
theorem countdownRepeatsWithPeriodN : Obligations.CountdownRepeatsWithPeriodN := by
  intro s n k hlive hon hpos hn hrem hcur hmap
  have hloaded : TicksAfterLoad s n 0 s := ⟨hlive, rfl, rfl, rfl, by simpa using hrem, by simpa using hcur⟩
  obtain ⟨t, ht, hafter⟩ := hloaded.after_ticks hon hpos hn hmap k
  rw [Nat.zero_add] at hafter
  refine ⟨t, _, ht, hafter.auRem, hafter.auCur, hafter.auCtl, hafter.auSrc, readStep_of_live rdAuLeft hafter.live, ?_⟩
  show Reply.half (auLeft t) = _
  rw [auLeft_eq, hafter.auRem, Nat.sub_right_comm]

end Sys2Proof.Machine
end

section
/-! The trigger as one loop of granules that ends with the registers advanced, or as no loop at all (spec 43_aram_dma.md R240 to R243,
R249 to R251). -/

namespace Sys2Proof.Machine

/-- A count of 0 keeps the direction bit alone (10_state.md R46, R47). -/
theorem setCount_zero_eq_and (c : Word) : setCount c 0 = c &&& 0x80000000#32 := by
  rw [setCount_zero, show 0x80000000#32 = BitVec.twoPow 32 31 from rfl, BitVec.and_twoPow]
  rfl

/-- The count of a trigger, counted down by itself, ends at 0 and keeps its direction (R250). -/
theorem setCount_countdown (v : Half) (s : State) :
    setCount (setLo s.arCnt (v &&& s.cfg.arCntLoWmask))
      (countOf (setLo s.arCnt (v &&& s.cfg.arCntLoWmask)) - BitVec.ofNat 31 (triggerCount v s)) = s.arCnt &&& 0x80000000#32 := by
  have hzero (c : BitVec 31) : c - BitVec.ofNat 31 c.toNat = 0 := by
    rw [BitVec.ofNat_toNat, BitVec.setWidth_eq]
    exact BitVec.sub_self c
  rw [triggerCount, hzero, setCount_zero, dirOf_setLo, ← setCount_zero, setCount_zero_eq_and]

/-- With the store or the secondary bus as its target a trigger is its loop (R243). -/
theorem wrArCntLo_eq_granules {s : State} (v : Half) (htarget : (triggerAux s).toNat < s.cfg.aramSize ∨ s.cfg.unified = false) :
    wrArCntLo v s = granules (granuleOp (decide (s.cfg.aramSize ≤ (triggerAux s).toNat)) (dirOf s.arCnt)) (triggerCount v s / 8)
      (aramArm v s) := by
  have hmoves : ¬(s.cfg.aramSize ≤ (triggerAux s).toNat ∧ s.cfg.unified = true) := by
    rintro ⟨hle, hunified⟩
    rcases htarget with hlt | hded
    · omega
    · exact absurd (hded.symm.trans hunified) (by decide)
  rw [wrArCntLo_eq, if_neg hmoves]

/-- A transfer completes where memory stands behind every granule. -/
theorem granules_of_mapped {bus dir : Bool} {b : State} {n : Nat}
    (hmap : ∀ k, k < n → mainMap b.cfg (b.arMm + BitVec.ofNat 32 (8 * k)) 8 = true) :
    ∃ t, granules (granuleOp bus dir) n b = .ok t ∧ granulesInto b n t :=
  granules_ok (granulesInto b) (granulesInto_zero b) fun k _ hk hu => hu.step (hmap k hk)

/-- Settles O34: the loop ends `n / 8` granules into the transfer, and `n` is a multiple of 8. -/
theorem triggerAdvancesTheRegisters : Obligations.TriggerAdvancesTheRegisters := by
  intro s v hlive hwf htarget hmap
  obtain ⟨t, ht, m, a, l, x, d, rfl⟩ := granules_of_mapped (bus := decide (s.cfg.aramSize ≤ (triggerAux s).toNat))
    (dir := dirOf s.arCnt) (b := aramArm v s) hmap
  have hn : 8 * (triggerCount v s / 8) = triggerCount v s := by
    have hdvd := triggerCount_dvd hwf v
    omega
  refine ⟨_, quietStep_of_ok hlive ((wrArCntLo_eq_granules v htarget).trans ht), ?_⟩
  simp only [aramArm_eq, State.advanced, hn, setCount_countdown]
  rfl

/-- Settles O42: such a trigger is armed, and no loop runs. -/
theorem unifiedOutsideTheStoreMovesNothing : Obligations.UnifiedOutsideTheStoreMovesNothing := by
  intro s v hlive hunified hout
  have harmed : wrArCntLo v s = .ok (aramArm v s) := by rw [wrArCntLo_eq, if_pos ⟨hout, hunified⟩]
  refine ⟨_, quietStep_of_ok hlive harmed, ?_⟩
  rw [aramArm_eq, setLo_eq_ofNat]
  rfl

end Sys2Proof.Machine
end

section
/-! The completion of an ARAM DMA (spec 43_aram_dma.md R255, 45_host_events.md R292, R295). -/

namespace Sys2Proof.Machine

/-- The state a completion leaves: the entry removed, `DMA_ACT` clear, kind B pending, the line driven (R255). -/
theorem exec_fireAramint_of_deliverable {s t : State} {seq : Nat} {e : Entry} (hlive : s.status = .live)
    (h : deliverable .aramInt seq s = .ok (e, t)) :
    exec (.fireAramint seq) s = .next { t with
      pending := t.pending.erase e, ctrl := (t.ctrl &&& 0xFDFF) ||| 0x0020, line := lineOf ((t.ctrl &&& 0xFDFF) ||| 0x0020)
      log := t.log ++ [.setLine (lineOf ((t.ctrl &&& 0xFDFF) ||| 0x0020))], reply := .none } := by
  show execFireAramint seq s = _
  rw [execFireAramint, whenLive_of_live _ hlive, h]
  rfl

/-- The entry that alone may be delivered is removed from its own place. -/
theorem erase_of_only_mayFire {kind : EventKind} {seq : Nat} {s : State} {pre post : List Entry} {e : Entry}
    (he : mayFire kind seq s e) (hothers : ∀ x ∈ pre ++ post, ¬mayFire kind seq s x) : (pre ++ e :: post).erase e = pre ++ post := by
  have hpre : e ∉ pre := fun hm => hothers e (List.mem_append_left _ hm) he
  rw [List.erase_append_right _ hpre, List.erase_cons_head]

/-- Settles O44: the entry delivered is the only one there is, or one of those that may be delivered. -/
theorem completionClearsDmaActAndRaisesB : Obligations.CompletionClearsDmaActAndRaisesB := by
  refine fun s seq hlive => ⟨fun pre post e hp he hothers => ?_, fun ⟨e, hm, he⟩ => ?_⟩
  · rw [exec_fireAramint_of_deliverable hlive (deliverable_only hp he hothers), hp, erase_of_only_mayFire he hothers]
  · cases hd : deliverable .aramInt seq s with
    | error w => exact absurd he ((deliverable_error.1 hd).1 e hm)
    | ok r =>
      obtain ⟨e', t⟩ := r
      obtain ⟨hm', he', x, d, rfl⟩ := deliverable_ok hd
      exact ⟨_, e', hm', he', exec_fireAramint_of_deliverable hlive hd, rfl⟩

end Sys2Proof.Machine
end

section
/-! The granule loop in closed form: what the memories, the record and the answers are `k` granules into a transfer of each target
and direction (spec 43_aram_dma.md R244, R245, R248). -/

namespace Sys2Proof.Machine

/-- One more granule at the end of a run of them. -/
theorem flatMap_range_succ {α : Type} (g : Nat → List α) (k : Nat) :
    (List.range (k + 1)).flatMap g = (List.range k).flatMap g ++ g k := by
  rw [List.range_succ, List.flatMap_append, List.flatMap_singleton]

/-- A loop whose granules lead from each state of a sequence to the next ends at the sequence's last. -/
theorem granules_of_sequence {g : State → Except Fault State} {n : Nat} {b : State} (f : Nat → State) (h0 : f 0 = b)
    (hstep : ∀ k, k < n → g (f k) = .ok (f (k + 1))) : granules g n b = .ok (f n) := by
  obtain ⟨t, ht, rfl⟩ := granules_ok (fun k u => u = f k) h0.symm fun k _ hk hu => ⟨_, hu ▸ hstep k hk, rfl⟩
  exact ht

/-! ## Main memory to the secondary bus -/

/-- What granule `k` adds to the record on its way to the bus. -/
def busWrites (b : State) (k : Nat) : List LogEntry :=
  [.memRead (b.arMm + BitVec.ofNat 32 (8 * k)) (mainBytes b.mem (b.arMm + BitVec.ofNat 32 (8 * k)) 8),
   .auxWrite (b.arAr + BitVec.ofNat 32 (8 * k)) (dwordOfBytes (mainBytes b.mem (b.arMm + BitVec.ofNat 32 (8 * k)) 8))]

/-- `k` granules into a transfer from main memory to the bus. -/
def State.sentToBus (b : State) (k : Nat) : State :=
  b.advanced k b.mem b.aram (b.log ++ (List.range k).flatMap (busWrites b)) b.answers b.draws

theorem sentToBus_zero (b : State) : b.sentToBus 0 = b := by
  rw [State.sentToBus, List.range_zero, List.flatMap_nil, List.append_nil, advanced_zero]

theorem mainToAux_sentToBus {b : State} {k : Nat} (hmap : mainMap b.cfg (b.arMm + BitVec.ofNat 32 (8 * k)) 8 = true) :
    mainToAux (b.sentToBus k) = .ok (b.sentToBus (k + 1)) := by
  rw [mainToAux_of_mapped (s := b.sentToBus k) hmap, State.sentToBus, State.sentToBus, advanceDma_advanced, flatMap_range_succ,
    ← List.append_assoc]
  rfl

/-! ## Runs of main memory -/

/-- The cells `n` granules fill in main memory from the address `m` on, granule `k` with the bytes `w k`. -/
def mainRun (m : Word) (w : Nat → List Byte) (n : Nat) : List (Nat × Byte) :=
  (List.range n).flatMap fun k => mainCells (m + BitVec.ofNat 32 (8 * k)) (w k)

theorem writeAll_mainRun_succ (mem : Memory) (m : Word) (w : Nat → List Byte) (k : Nat) :
    mem.writeAll (mainRun m w (k + 1)) =
      (mem.writeAll (mainRun m w k)).writeAll (mainCells (m + BitVec.ofNat 32 (8 * k)) (w k)) := by
  rw [mainRun, flatMap_range_succ, Memory.writeAll_both]
  rfl

/-! ## The secondary bus to main memory -/

/-- The bus's answer to the `k`-th call, with the answers `x` lying ready and `d` free values drawn so far (log 6). -/
def busAnswer (x : List Nat) (d k : Nat) : DWord := BitVec.ofNat 64 (x[k]?.getD (Config.freeAnswer (d + (k - x.length))))

/-- `k` answers taken: the first `k` that lay ready, and a free value for each one that was missing. -/
def State.answered (b : State) (k : Nat) : State :=
  { b with answers := b.answers.drop k, draws := b.draws + (k - b.answers.length) }

theorem nextAnswer_answered (b : State) (k : Nat) :
    BitVec.ofNat 64 (nextAnswer (b.answered k)) = busAnswer b.answers b.draws k := by
  rw [busAnswer, ← List.head?_drop]
  simp only [nextAnswer, State.answered]
  cases b.answers.drop k <;> rfl

theorem afterAnswer_answered (b : State) (k : Nat) : afterAnswer (b.answered k) = b.answered (k + 1) := by
  have htail : b.answers.drop (k + 1) = (b.answers.drop k).tail := List.tail_drop.symm
  have hlen : (b.answers.drop k).length = b.answers.length - k := List.length_drop
  simp only [afterAnswer, State.answered, htail]
  cases h : b.answers.drop k with
  | nil =>
    have hdraws : b.draws + (k - b.answers.length) + 1 = b.draws + (k + 1 - b.answers.length) := by
      rw [h, List.length_nil] at hlen
      omega
    simp only [List.tail_nil, hdraws]
  | cons a rest =>
    have hdraws : k - b.answers.length = k + 1 - b.answers.length := by
      rw [h, List.length_cons] at hlen
      omega
    simp only [List.tail_cons, hdraws]

/-- What consuming an answer leaves of the two model fields depends on these fields alone. -/
theorem afterAnswer_fields {s t : State} (hanswers : s.answers = t.answers) (hdraws : s.draws = t.draws) :
    (afterAnswer s).answers = (afterAnswer t).answers ∧ (afterAnswer s).draws = (afterAnswer t).draws := by
  simp only [afterAnswer, hanswers]
  cases t.answers with
  | nil => exact ⟨rfl, congrArg (· + 1) hdraws⟩
  | cons _ _ => exact ⟨rfl, hdraws⟩

/-- What granule `k` adds to the record on its way from the bus. -/
def busReads (b : State) (k : Nat) : List LogEntry :=
  [.auxRead (b.arAr + BitVec.ofNat 32 (8 * k)) (busAnswer b.answers b.draws k),
   .memWrite (b.arMm + BitVec.ofNat 32 (8 * k)) (bytesOfDword (busAnswer b.answers b.draws k))]

/-- The bytes of granule `k` from the bus. -/
def busGranule (b : State) (k : Nat) : List Byte := bytesOfDword (busAnswer b.answers b.draws k)

/-- `k` granules into a transfer from the bus to main memory. -/
def State.fetchedFromBus (b : State) (k : Nat) : State :=
  b.advanced k (b.mem.writeAll (mainRun b.arMm (busGranule b) k)) b.aram (b.log ++ (List.range k).flatMap (busReads b))
    (b.answered k).answers (b.answered k).draws

theorem fetchedFromBus_zero (b : State) : b.fetchedFromBus 0 = b := by
  have hlog : b.log ++ (List.range 0).flatMap (busReads b) = b.log := List.append_nil _
  have hdraws : (b.answered 0).draws = b.draws := by rw [State.answered, Nat.zero_sub, Nat.add_zero]
  rw [State.fetchedFromBus, hlog, hdraws]
  exact advanced_zero b

theorem auxToMain_fetchedFromBus {b : State} {k : Nat} (hmap : mainMap b.cfg (b.arMm + BitVec.ofNat 32 (8 * k)) 8 = true) :
    auxToMain (b.fetchedFromBus k) = .ok (b.fetchedFromBus (k + 1)) := by
  have hnext : BitVec.ofNat 64 (nextAnswer (b.fetchedFromBus k)) = busAnswer b.answers b.draws k := nextAnswer_answered b k
  obtain ⟨hanswers, hdraws⟩ := afterAnswer_fields (s := b.fetchedFromBus k) (t := b.answered k) rfl rfl
  rw [afterAnswer_answered] at hanswers hdraws
  rw [auxToMain_of_mapped (s := b.fetchedFromBus k) hmap, hnext, hanswers, hdraws]
  rw [State.fetchedFromBus, State.fetchedFromBus, advanceDma_advanced, flatMap_range_succ, ← List.append_assoc,
    writeAll_mainRun_succ]
  rfl

/-! ## The store to main memory -/

/-- The bytes of granule `k` from the store, in main-memory order. -/
def storeGranule (b : State) (k : Nat) : List Byte :=
  orderGranule b.cfg.granuleOrder (aramRead (b.arAr + BitVec.ofNat 32 (8 * k)).toNat 8 b)

/-- What granule `k` adds to the record on its way from the store. -/
def storeReads (b : State) (k : Nat) : List LogEntry := [.memWrite (b.arMm + BitVec.ofNat 32 (8 * k)) (storeGranule b k)]

/-- `k` granules into a transfer from the store to main memory. -/
def State.movedToMain (b : State) (k : Nat) : State :=
  b.advanced k (b.mem.writeAll (mainRun b.arMm (storeGranule b) k)) b.aram (b.log ++ (List.range k).flatMap (storeReads b))
    b.answers b.draws

theorem movedToMain_zero (b : State) : b.movedToMain 0 = b := by
  have hlog : b.log ++ (List.range 0).flatMap (storeReads b) = b.log := List.append_nil _
  rw [State.movedToMain, hlog]
  exact advanced_zero b

theorem aramToMain_movedToMain {b : State} {k : Nat} (hmap : mainMap b.cfg (b.arMm + BitVec.ofNat 32 (8 * k)) 8 = true) :
    aramToMain (b.movedToMain k) = .ok (b.movedToMain (k + 1)) := by
  rw [aramToMain_of_mapped (s := b.movedToMain k) hmap]
  rw [State.movedToMain, State.movedToMain, advanceDma_advanced, flatMap_range_succ, ← List.append_assoc, writeAll_mainRun_succ]
  rfl

/-! ## Main memory to the store -/

/-- The registers `k` granules into a transfer, all else as before it. -/
def State.atGranule (b : State) (k : Nat) : State := b.advanced k b.mem b.aram b.log b.answers b.draws

/-- The cells granule `k` fills in the store, its mirror copy's first. -/
def storeCells (b : State) (k : Nat) : List (Nat × Byte) := granuleCells (b.atGranule k)

/-- `k` granules into a transfer from main memory to the store, with the record `l`. -/
def State.movedToStore (b : State) (l : List LogEntry) (k : Nat) : State :=
  b.advanced k b.mem (b.aram.writeAll ((List.range k).flatMap (storeCells b))) l b.answers b.draws

theorem mainToAram_movedToStore {b : State} {l : List LogEntry} {k : Nat}
    (hmap : mainMap b.cfg (b.arMm + BitVec.ofNat 32 (8 * k)) 8 = true) :
    ∃ l', mainToAram (b.movedToStore l k) = .ok (b.movedToStore l' (k + 1)) := by
  obtain ⟨l', hl⟩ := mainToAram_of_mapped (s := b.movedToStore l k) hmap
  refine ⟨l ++ l', hl.trans ?_⟩
  rw [State.movedToStore, State.movedToStore, advanceDma_advanced, flatMap_range_succ, Memory.writeAll_both]
  rfl

/-! ## The four transfers -/

section
variable {b : State} {n : Nat} (hmap : ∀ k, k < n → mainMap b.cfg (b.arMm + BitVec.ofNat 32 (8 * k)) 8 = true)
include hmap

theorem granules_mainToAux : granules (granuleOp true false) n b = .ok (b.sentToBus n) :=
  granules_of_sequence b.sentToBus (sentToBus_zero b) fun k hk => mainToAux_sentToBus (hmap k hk)

theorem granules_auxToMain : granules (granuleOp true true) n b = .ok (b.fetchedFromBus n) :=
  granules_of_sequence b.fetchedFromBus (fetchedFromBus_zero b) fun k hk => auxToMain_fetchedFromBus (hmap k hk)

theorem granules_aramToMain : granules (granuleOp false true) n b = .ok (b.movedToMain n) :=
  granules_of_sequence b.movedToMain (movedToMain_zero b) fun k hk => aramToMain_movedToMain (hmap k hk)

theorem granules_mainToAram : ∃ l, granules (granuleOp false false) n b = .ok (b.movedToStore l n) := by
  obtain ⟨t, ht, l, rfl⟩ := granules_ok (g := granuleOp false false) (n := n) (fun k u => ∃ l, u = b.movedToStore l k)
    ⟨b.log, (advanced_zero b).symm⟩ fun k u hk ⟨l, hu⟩ => by
      obtain ⟨l', hl⟩ := mainToAram_movedToStore (l := l) (hmap k hk)
      exact ⟨_, hu ▸ hl, l', rfl⟩
  exact ⟨l, ht⟩

end

/-- A live trigger whose target is the store answers the state its loop ends in. -/
theorem exec_trigger_store {s t : State} {v : Half} {dir : Bool} (hlive : s.status = .live) (hdir : s.arCnt.getLsbD 31 = dir)
    (hin : (triggerAux s).toNat < s.cfg.aramSize)
    (hloop : granules (granuleOp false dir) (triggerCount v s / 8) (aramArm v s) = .ok t) :
    exec (.wr16ArCntLo v) s = .next (t.replied .none) := by
  refine quietStep_of_ok (op := wrArCntLo v) hlive ?_
  rw [wrArCntLo_eq_granules v (.inl hin), decide_eq_false (Nat.not_le.2 hin), dirOf, hdir, hloop]

/-- A live trigger whose target is the secondary bus answers the state its loop ends in. -/
theorem exec_trigger_bus {s t : State} {v : Half} {dir : Bool} (hlive : s.status = .live) (hded : s.cfg.unified = false)
    (hdir : s.arCnt.getLsbD 31 = dir) (hout : s.cfg.aramSize ≤ (triggerAux s).toNat)
    (hloop : granules (granuleOp true dir) (triggerCount v s / 8) (aramArm v s) = .ok t) :
    exec (.wr16ArCntLo v) s = .next (t.replied .none) := by
  refine quietStep_of_ok (op := wrArCntLo v) hlive ?_
  rw [wrArCntLo_eq_granules v (.inr hded), decide_eq_true hout, dirOf, hdir, hloop]

/-- Settles O39: the record of the loop comes after the armed state's. -/
theorem mainToBusWritesEveryGranule : Obligations.MainToBusWritesEveryGranule := by
  intro s v hlive hded hdir hout hmap
  refine ⟨_, exec_trigger_bus hlive hded hdir hout (granules_mainToAux (b := aramArm v s) hmap), rfl, rfl, ?_⟩
  rw [← List.append_assoc, aramArm_eq]
  rfl

end Sys2Proof.Machine
end

section
/-! Several granules written one after the other: a byte stands as the last granule that reaches it leaves it (spec 20_memory.md R82,
R85). -/

namespace Sys2Proof

/-- A byte that no granule after the `k`-th reaches is as granule `k` leaves it. -/
theorem Memory.read_writeAll_granules (m : Memory) (g : Nat → List (Nat × Byte)) {n k x : Nat} (hk : k < n)
    (hlater : ∀ j, k < j → j < n → ∀ c ∈ g j, c.1 ≠ x) :
    (m.writeAll ((List.range n).flatMap g)).read x = ((m.writeAll ((List.range k).flatMap g)).writeAll (g k)).read x := by
  induction n with
  | zero => exact absurd hk (Nat.not_lt_zero k)
  | succ n ih =>
    rw [Machine.flatMap_range_succ, Memory.writeAll_both]
    by_cases he : k = n
    · rw [he]
    · rw [Memory.read_writeAll_other _ _ _ (hlater n (by omega) (Nat.lt_succ_self n))]
      exact ih (by omega) fun j hj hjn => hlater j hj (by omega)

/-- A byte that no granule reaches is as it was. -/
theorem Memory.read_writeAll_granules_other (m : Memory) (g : Nat → List (Nat × Byte)) {n x : Nat}
    (h : ∀ k, k < n → ∀ c ∈ g k, c.1 ≠ x) : (m.writeAll ((List.range n).flatMap g)).read x = m.read x := by
  refine Memory.read_writeAll_other _ _ _ fun c hc => ?_
  obtain ⟨k, hk, hck⟩ := List.mem_flatMap.1 hc
  exact h k (List.mem_range.1 hk) c hck

/-- A cell of a run of bytes lies at the address of one of them. -/
theorem Memory.exists_index_of_mem_run {f : Nat → Nat} {bytes : List Byte} {c : Nat × Byte}
    (h : c ∈ bytes.zipIdx.map fun (b, i) => (f i, b)) : ∃ r, r < bytes.length ∧ c.1 = f r := by
  obtain ⟨⟨y, r⟩, hy, rfl⟩ := List.mem_map.1 h
  have hr := (List.mem_zipIdx hy).2.1
  exact ⟨r, by omega, rfl⟩

end Sys2Proof
end

section
/-! The bytes a transfer leaves in main memory: each lands at its own address, and no other byte moves (spec 43_aram_dma.md R245, R248,
20_memory.md R85, R86, R91). -/

namespace Sys2Proof.Machine

/-- Every byte of a run lies in one granule. -/
theorem exists_granule_of_lt {n i : Nat} (hn : n % 8 = 0) (hi : i < n) : ∃ k r, k < n / 8 ∧ r < 8 ∧ i = 8 * k + r :=
  ⟨i / 8, i % 8, by omega, Nat.mod_lt i (by decide), (Nat.div_add_mod i 8).symm⟩

/-- Byte `r` of granule `k` lies at the run's byte `8 * k + r`. -/
theorem mainAddr_granule (m : Word) (k r : Nat) : mainAddr (m + BitVec.ofNat 32 (8 * k)) r = (m.toNat + (8 * k + r)) % 2 ^ 32 := by
  rw [mainAddr_eq, BitVec.toNat_add, BitVec.toNat_ofNat]
  omega

theorem mem_mainCells {a : Word} {bytes : List Byte} {c : Nat × Byte} (h : c ∈ mainCells a bytes) :
    ∃ r, r < bytes.length ∧ c.1 = mainAddr a r := Memory.exists_index_of_mem_run h

section
variable {m : Word} {w : Nat → List Byte} {n : Nat} (hw : ∀ k, (w k).length = 8)
include hw

/-- Byte `r` of granule `k` stands at its address, in a run no longer than the address space. -/
theorem read_mainRun {mem : Memory} (hmem : mem.rising) (hn : 8 * n ≤ 2 ^ 32) {k r : Nat} (hk : k < n) (hr : r < 8) :
    (mem.writeAll (mainRun m w n)).read ((m.toNat + (8 * k + r)) % 2 ^ 32) = (w k)[r]'(by rw [hw]; exact hr) := by
  rw [mainRun, Memory.read_writeAll_granules mem _ hk, ← mainAddr_granule]
  · refine Memory.read_run (mainAddr (m + BitVec.ofNat 32 (8 * k))) (w k) (Memory.rising_writeAll hmem _) _ fun j hj hjw => ?_
    rw [hw] at hjw
    rw [mainAddr_granule, mainAddr_granule]
    omega
  · intro j hj hjn c hc
    obtain ⟨q, hq, hcq⟩ := mem_mainCells hc
    rw [hw] at hq
    rw [hcq, mainAddr_granule]
    omega

/-- Every byte outside the run is as it was. -/
theorem read_mainRun_other (mem : Memory) {x : Nat} (hx : ∀ i, i < 8 * n → x ≠ (m.toNat + i) % 2 ^ 32) :
    (mem.writeAll (mainRun m w n)).read x = mem.read x := by
  refine Memory.read_writeAll_granules_other mem _ fun k hk c hc => ?_
  obtain ⟨r, hr, hcr⟩ := mem_mainCells hc
  rw [hw] at hr
  rw [hcr, mainAddr_granule]
  exact (hx _ (by omega)).symm

end

/-- An address below 64 MB, advanced within a legal count, does not wrap. -/
theorem toNat_add_granule {a : Word} (ha : a.toNat < 2 ^ 26) {k : Nat} (hk : 8 * k < 2 ^ 31) :
    (a + BitVec.ofNat 32 (8 * k)).toNat = a.toNat + 8 * k := by
  rw [BitVec.toNat_add, BitVec.toNat_ofNat]
  omega

/-- Byte `r` of a granule from the store is the byte of the run that the granule order puts there (R91). -/
theorem storeGranule_getElem {b : State} (hwf : b.cfg.wf) (ha : b.arAr.toNat < 2 ^ 26) {k r : Nat} (hk : 8 * k < 2 ^ 31) (hr : r < 8)
    (h : r < (storeGranule b k).length) :
    (storeGranule b k)[r] = b.aram.read ((b.arAr.toNat + sourceByte b.cfg.granuleOrder (8 * k + r)) % b.cfg.aramSize) := by
  simp only [storeGranule]
  rw [orderGranule_getElem _ (aramRead_length _ _ _) hr, sourceByte_granule _ _ hr]
  simp only [aramRead, List.getElem_map, List.getElem_range]
  rw [aramIndex_eq hwf, toNat_add_granule ha hk, Nat.add_assoc]

theorem storeGranule_length (b : State) (k : Nat) : (storeGranule b k).length = 8 := by
  rw [storeGranule, orderGranule_length, aramRead_length]

/-- Settles O38: granule by granule from the store to main memory, which alone is written. -/
theorem aramToMainMovesEveryByte : Obligations.AramToMainMovesEveryByte := by
  intro s v hinv hlive hdir hin hmap
  have hn := triggerCount_dvd hinv.cfg v
  have hlt := triggerCount_lt v s
  refine ⟨_, exec_trigger_store hlive hdir hin (granules_aramToMain (b := aramArm v s) hmap), fun x => rfl, fun i hi => ?_,
    fun x hx => ?_⟩
  · obtain ⟨k, r, hk, hr, rfl⟩ := exists_granule_of_lt hn hi
    refine (read_mainRun (storeGranule_length (aramArm v s)) hinv.memWf.1 (by omega) hk hr).trans ?_
    exact storeGranule_getElem (b := aramArm v s) hinv.cfg (triggerAux_lt s) (by omega) hr _
  · exact read_mainRun_other (storeGranule_length (aramArm v s)) s.mem fun i hi => hx i (by omega)

/-- Settles O40: granule by granule from the bus to main memory, which alone is written, the answers that lie ready first. -/
theorem busToMainStoresEveryAnswer : Obligations.BusToMainStoresEveryAnswer := by
  intro s v hinv hlive hded hdir hout hmap
  have hlt := triggerCount_lt v s
  have hlen (k : Nat) : (busGranule (aramArm v s) k).length = 8 := bytesOfDword_length _
  refine ⟨_, busAnswer s.answers s.draws,
    exec_trigger_bus hlive hded hdir hout (granules_auxToMain (b := aramArm v s) hmap), fun x => rfl, ?_, fun k _ x hx => ?_,
    fun k hk r hr => ?_, fun x hx => ?_⟩
  · rw [← List.append_assoc, aramArm_eq]
    rfl
  · rw [busAnswer, hx, Option.getD_some]
  · rw [Nat.add_assoc]
    exact (read_mainRun hlen hinv.memWf.1 (by omega) hk hr).trans (bytesOfDword_getElem _ _)
  · exact read_mainRun_other hlen s.mem fun i hi => hx i (by omega)

end Sys2Proof.Machine
end

section
/-! The bytes a transfer leaves in the store: each lands at its masked index, and under policy 4 a second time higher (spec
43_aram_dma.md R244, R246, R247, 20_memory.md R82, R91). -/

namespace Sys2Proof.Machine

/-- Policy 4 as a number (R246). -/
theorem mirrors_iff (arInfo : Half) : mirrors arInfo = true ↔ arInfo.toNat % 16 = 4 := by
  rw [mirrors, beq_iff_eq, ← BitVec.toNat_inj, policyOf, BitVec.extractLsb'_toNat, Nat.shiftRight_zero]
  rfl

/-! ## Indices of the store -/

/-- Two indices less than the store's size apart differ. -/
theorem mod_ne_of_lt_add {x y n : Nat} (hxy : x < y) (hyx : y < x + n) : x % n ≠ y % n := by
  intro h
  have hdiff := Nat.sub_mod_eq_zero_of_mod_eq h.symm
  rw [Nat.mod_eq_of_lt (by omega)] at hdiff
  omega

/-- Either the mirror's distance is a multiple of the store's size, or the store holds both halves. -/
theorem aramSize_dvd_or_le {p : Params} (h : p.wf) : p.aramSize ∣ mirrorOffset ∨ 2 * mirrorOffset ≤ p.aramSize := by
  obtain ⟨⟨k, -, hk⟩, -⟩ := h
  rw [hk]
  rcases Nat.lt_or_ge 22 k.val with hgt | hle
  · exact .inr (Nat.pow_le_pow_right (n := 2) (i := 23) (by decide) hgt)
  · exact .inl (Nat.pow_dvd_pow 2 hle)

theorem eight_le_aramSize {p : Params} (h : p.wf) : 8 ≤ p.aramSize := by
  obtain ⟨⟨k, h3, hk⟩, -⟩ := h
  rw [hk]
  exact Nat.pow_le_pow_right (n := 2) (i := 3) (by decide) h3

/-- The mirror copy of a later byte below the limit misses an earlier byte's index. -/
theorem mirror_index_ne {p : Params} (h : p.wf) (a : Nat) {i j : Nat} (hij : i < j) (hji : j < i + p.aramSize)
    (hj : j < mirrorLimit) : (a + i) % p.aramSize ≠ (a + j + mirrorOffset) % p.aramSize := by
  have hlimit : mirrorLimit = mirrorOffset := rfl
  rcases aramSize_dvd_or_le h with ⟨q, hq⟩ | hle
  · rw [hq, Nat.add_mul_mod_self_left]
    exact mod_ne_of_lt_add (by omega) (by omega)
  · exact mod_ne_of_lt_add (by omega) (by omega)

/-! ## The cells of one granule -/

theorem mem_aramCells {p : Params} {a : Nat} {bytes : List Byte} {c : Nat × Byte} (h : c ∈ aramCells p a bytes) :
    ∃ r, r < bytes.length ∧ c.1 = aramIndex p a r := Memory.exists_index_of_mem_run h

theorem granuleBytesOf_length (s : State) : (granuleBytesOf s).length = 8 := by
  rw [granuleBytesOf, orderGranule_length, mainBytes_length]

/-- A granule writes at its own indices and, where it is mirrored, at those of its copy (R247). -/
theorem mem_granuleCells {s : State} (hwf : s.cfg.wf) {c : Nat × Byte} (h : c ∈ granuleCells s) :
    ∃ r, r < 8 ∧ (c.1 = (s.arAr.toNat + r) % s.cfg.aramSize ∨
      (mirrors s.arInfo = true ∧ s.arAr.toNat < mirrorLimit ∧ c.1 = (s.arAr.toNat + mirrorOffset + r) % s.cfg.aramSize)) := by
  rw [granuleCells, List.mem_append] at h
  rcases h with h | h
  · split at h
    · next hm =>
      obtain ⟨r, hr, hc⟩ := mem_aramCells h
      exact ⟨r, granuleBytesOf_length s ▸ hr, .inr ⟨hm.1, hm.2, hc.trans (aramIndex_eq hwf _ _)⟩⟩
    · cases h
  · obtain ⟨r, hr, hc⟩ := mem_aramCells h
    exact ⟨r, granuleBytesOf_length s ▸ hr, .inl (hc.trans (aramIndex_eq hwf _ _))⟩

/-- Eight bytes stored from an index on stand there. -/
theorem read_aramCells {p : Params} (hwf : p.wf) {m : Memory} (hm : m.rising) (a : Nat) {bytes : List Byte} (h8 : bytes.length = 8)
    {r : Nat} (hr : r < 8) :
    (m.writeAll (aramCells p a bytes)).read ((a + r) % p.aramSize) = bytes[r]'(by rw [h8]; exact hr) := by
  have hsize := eight_le_aramSize hwf
  rw [← aramIndex_eq hwf]
  refine Memory.read_run (aramIndex p a) bytes hm _ fun j hj hj8 => ?_
  rw [aramIndex_eq hwf, aramIndex_eq hwf]
  exact (mod_ne_of_lt_add (by omega) (by omega)).symm

/-- After a granule its bytes stand at their own indices. -/
theorem read_granuleCells {s : State} (hwf : s.cfg.wf) {m : Memory} (hm : m.rising) {r : Nat} (hr : r < 8) :
    (m.writeAll (granuleCells s)).read ((s.arAr.toNat + r) % s.cfg.aramSize) =
      (granuleBytesOf s)[r]'(by rw [granuleBytesOf_length]; exact hr) := by
  rw [granuleCells, Memory.writeAll_both]
  exact read_aramCells hwf (Memory.rising_writeAll hm _) s.arAr.toNat (granuleBytesOf_length s) hr

/-- After a mirrored granule its bytes stand in its copy too, in a store that holds both halves. -/
theorem read_granuleCells_mirror {s : State} (hwf : s.cfg.wf) (hmir : mirrors s.arInfo = true) (hlimit : s.arAr.toNat < mirrorLimit)
    (hsize : 2 * mirrorOffset ≤ s.cfg.aramSize) {m : Memory} (hm : m.rising) {r : Nat} (hr : r < 8) :
    (m.writeAll (granuleCells s)).read ((s.arAr.toNat + mirrorOffset + r) % s.cfg.aramSize) =
      (granuleBytesOf s)[r]'(by rw [granuleBytesOf_length]; exact hr) := by
  have hoffset : mirrorOffset = 0x400000 := rfl
  rw [granuleCells, Memory.writeAll_both, Memory.read_writeAll_other, if_pos ⟨hmir, hlimit⟩]
  · exact read_aramCells hwf hm _ (granuleBytesOf_length s) hr
  · intro c hc
    obtain ⟨q, hq, hcq⟩ := mem_aramCells hc
    rw [granuleBytesOf_length] at hq
    rw [hcq, aramIndex_eq hwf]
    exact mod_ne_of_lt_add (by omega) (by omega)

/-! ## The cells of a run -/

/-- Byte `r` of granule `k` is the byte of the run that the granule order puts there (R91). -/
theorem storeCells_byte (b : State) (k : Nat) {r : Nat} (hr : r < 8) :
    (granuleBytesOf (b.atGranule k))[r]'(by rw [granuleBytesOf_length]; exact hr) =
      b.mem.read ((b.arMm.toNat + sourceByte b.cfg.granuleOrder (8 * k + r)) % 2 ^ 32) := by
  simp only [granuleBytesOf]
  rw [orderGranule_getElem _ (mainBytes_length _ _ _) hr, sourceByte_granule _ _ hr]
  simp only [mainBytes, List.getElem_map, List.getElem_range]
  exact congrArg b.mem.read (mainAddr_granule b.arMm k _)

/-- The auxiliary address at granule `k` has not wrapped. -/
theorem atGranule_arAr {b : State} (ha : b.arAr.toNat < 2 ^ 26) {k : Nat} (hk : 8 * k < 2 ^ 31) :
    (b.atGranule k).arAr.toNat = b.arAr.toNat + 8 * k := toNat_add_granule ha hk

section
variable {b : State} (hwf : b.cfg.wf) (ha : b.arAr.toNat < 2 ^ 26) {k : Nat} (hk : 8 * k < 2 ^ 31)
include hwf ha hk

/-- Granule `k` of a run writes at the run's bytes `8 * k` to `8 * k + 7` and, where it is mirrored, at those of its copy. -/
theorem mem_storeCells {c : Nat × Byte} (h : c ∈ storeCells b k) :
    ∃ r, r < 8 ∧ (c.1 = (b.arAr.toNat + (8 * k + r)) % b.cfg.aramSize ∨
      (mirrors b.arInfo = true ∧ b.arAr.toNat + 8 * k < mirrorLimit ∧
        c.1 = (b.arAr.toNat + (8 * k + r) + mirrorOffset) % b.cfg.aramSize)) := by
  obtain ⟨r, hr, hc⟩ := mem_granuleCells (s := b.atGranule k) hwf h
  rw [atGranule_arAr ha hk, Nat.add_right_comm _ mirrorOffset, Nat.add_assoc _ (8 * k) r] at hc
  exact ⟨r, hr, hc⟩

/-- After granule `k` its bytes stand at their own indices. -/
theorem read_storeCells {m : Memory} (hm : m.rising) {r : Nat} (hr : r < 8) :
    (m.writeAll (storeCells b k)).read ((b.arAr.toNat + (8 * k + r)) % b.cfg.aramSize) =
      b.mem.read ((b.arMm.toNat + sourceByte b.cfg.granuleOrder (8 * k + r)) % 2 ^ 32) := by
  have hread := read_granuleCells (s := b.atGranule k) hwf hm hr
  rw [storeCells_byte b k hr, atGranule_arAr ha hk, Nat.add_assoc] at hread
  exact hread

/-- After a mirrored granule `k` its bytes stand in its copy too. -/
theorem read_storeCells_mirror (hmir : mirrors b.arInfo = true) (hlimit : b.arAr.toNat + 8 * k < mirrorLimit)
    (hsize : 2 * mirrorOffset ≤ b.cfg.aramSize) {m : Memory} (hm : m.rising) {r : Nat} (hr : r < 8) :
    (m.writeAll (storeCells b k)).read ((b.arAr.toNat + (8 * k + r) + mirrorOffset) % b.cfg.aramSize) =
      b.mem.read ((b.arMm.toNat + sourceByte b.cfg.granuleOrder (8 * k + r)) % 2 ^ 32) := by
  have hread := read_granuleCells_mirror (s := b.atGranule k) hwf hmir (atGranule_arAr ha hk ▸ hlimit) hsize hm hr
  rw [storeCells_byte b k hr, atGranule_arAr ha hk, Nat.add_right_comm _ mirrorOffset, Nat.add_assoc _ (8 * k) r] at hread
  exact hread

end

section
variable {b : State} (hwf : b.cfg.wf) (ha : b.arAr.toNat < 2 ^ 26) {n : Nat} (hn : 8 * n < 2 ^ 31) (haram : b.aram.rising)
include hwf ha hn

/-- Every index a run writes neither plainly nor as a copy is as it was. -/
theorem read_storeRun_other {x : Nat} (hx : ∀ k r, k < n → r < 8 → x ≠ (b.arAr.toNat + (8 * k + r)) % b.cfg.aramSize ∧
      (mirrors b.arInfo = true → b.arAr.toNat + 8 * k < mirrorLimit →
        x ≠ (b.arAr.toNat + (8 * k + r) + mirrorOffset) % b.cfg.aramSize)) :
    (b.aram.writeAll ((List.range n).flatMap (storeCells b))).read x = b.aram.read x := by
  refine Memory.read_writeAll_granules_other _ _ fun k hk c hc => ?_
  obtain ⟨r, hr, hplain | ⟨hmir, hlimit, hcopy⟩⟩ := mem_storeCells hwf ha (by omega) hc
  · exact hplain ▸ (hx k r hk hr).1.symm
  · exact hcopy ▸ ((hx k r hk hr).2 hmir hlimit).symm

include haram

/-- The last store-length of a run stands at its indices: no later granule, nor its copy, reaches them. -/
theorem read_storeRun {k r : Nat} (hk : k < n) (hr : r < 8) (hlast : 8 * n ≤ 8 * k + r + b.cfg.aramSize) :
    (b.aram.writeAll ((List.range n).flatMap (storeCells b))).read ((b.arAr.toNat + (8 * k + r)) % b.cfg.aramSize) =
      b.mem.read ((b.arMm.toNat + sourceByte b.cfg.granuleOrder (8 * k + r)) % 2 ^ 32) := by
  rw [Memory.read_writeAll_granules _ _ hk]
  · exact read_storeCells hwf ha (by omega) (Memory.rising_writeAll haram _) hr
  · intro j hj hjn c hc
    obtain ⟨q, hq, hplain | ⟨-, hlimit, hcopy⟩⟩ := mem_storeCells hwf ha (by omega) hc
    · exact hplain ▸ (mod_ne_of_lt_add (by omega) (by omega)).symm
    · have hbelow : 8 * j + q < mirrorLimit := by
        have hvalue : mirrorLimit = 0x400000 := rfl
        omega
      exact hcopy ▸ (mirror_index_ne hwf _ (by omega) (by omega) hbelow).symm

/-- The copies of a run's mirrored granules stand, where no later byte of the run lies as high. -/
theorem read_storeRun_mirror {k r : Nat} (hmir : mirrors b.arInfo = true) (hlimit : b.arAr.toNat + 8 * k < mirrorLimit)
    (hsize : 2 * mirrorOffset ≤ b.cfg.aramSize) (hk : k < n) (hr : r < 8) (hlast : 8 * n ≤ 8 * k + r + mirrorOffset) :
    (b.aram.writeAll ((List.range n).flatMap (storeCells b))).read ((b.arAr.toNat + (8 * k + r) + mirrorOffset) % b.cfg.aramSize) =
      b.mem.read ((b.arMm.toNat + sourceByte b.cfg.granuleOrder (8 * k + r)) % 2 ^ 32) := by
  have hoffset : mirrorOffset = 0x400000 := rfl
  rw [Memory.read_writeAll_granules _ _ hk]
  · exact read_storeCells_mirror hwf ha (by omega) hmir hlimit hsize (Memory.rising_writeAll haram _) hr
  · intro j hj hjn c hc
    obtain ⟨q, hq, hplain | ⟨-, -, hcopy⟩⟩ := mem_storeCells hwf ha (by omega) hc
    · exact hplain ▸ mod_ne_of_lt_add (by omega) (by omega)
    · exact hcopy ▸ (mod_ne_of_lt_add (by omega) (by omega)).symm

end

/-! ## The trigger -/

/-- The bytes a trigger's loop moves are a count of the register. -/
theorem triggerGranules_lt (v : Half) (s : State) : 8 * (triggerCount v s / 8) < 2 ^ 31 := by
  have hlt := triggerCount_lt v s
  omega

/-- Settles O36: the bytes of the run by granules, plain and mirrored. -/
theorem mainToAramMovesEveryByte : Obligations.MainToAramMovesEveryByte := by
  intro s v hinv hlive hdir hin hmap
  have hn := triggerCount_dvd hinv.cfg v
  obtain ⟨l, hloop⟩ := granules_mainToAram (b := aramArm v s) hmap
  refine ⟨_, exec_trigger_store hlive hdir hin hloop, fun x => rfl, fun i hi hlast => ?_, fun x hx => ?_⟩
  · obtain ⟨k, r, hk, hr, rfl⟩ := exists_granule_of_lt hn hi
    have hlast' : 8 * (triggerCount v s / 8) ≤ 8 * k + r + s.cfg.aramSize := by omega
    exact read_storeRun (b := aramArm v s) hinv.cfg (triggerAux_lt s) (triggerGranules_lt v s) hinv.aramWf.1 hk hr hlast'
  · refine read_storeRun_other (b := aramArm v s) hinv.cfg (triggerAux_lt s) (triggerGranules_lt v s) fun k r hk hr => ?_
    obtain ⟨hplain, hcopy⟩ := hx (8 * k + r) (by omega)
    have hgranule : (8 * k + r) / 8 * 8 = 8 * k := by omega
    rw [hgranule] at hcopy
    exact ⟨hplain, fun hmir hlimit => hcopy ((mirrors_iff s.arInfo).1 hmir) hlimit⟩

/-- The auxiliary address of a trigger is a multiple of 8 (20_memory.md R95). -/
theorem triggerAux_dvd {s : State} (h : s.Inv) : (triggerAux s).toNat % 8 = 0 := by
  obtain ⟨-, -, har, -, -⟩ := h.regs
  exact (low7_toNat _).1 (low7_and har _)

/-- Settles O37: a granule below the limit is mirrored, and its copy lies within the store. -/
theorem policyFourMirrorsBelowTheLimit : Obligations.PolicyFourMirrorsBelowTheLimit := by
  intro s v hinv hlive hdir hin hmap hpolicy hsize
  have hn := triggerCount_dvd hinv.cfg v
  have haux := triggerAux_dvd hinv
  obtain ⟨l, hloop⟩ := granules_mainToAram (b := aramArm v s) hmap
  refine ⟨_, exec_trigger_store hlive hdir hin hloop, fun i hi hlimit hlast => ?_⟩
  obtain ⟨k, r, hk, hr, rfl⟩ := exists_granule_of_lt hn hi
  have hgranule : (8 * k + r) / 8 * 8 = 8 * k := by omega
  rw [hgranule] at hlimit
  have hlast' : 8 * (triggerCount v s / 8) ≤ 8 * k + r + 0x400000 := by omega
  have hindex : ((triggerAux s).toNat + (8 * k + r) + 0x400000) % s.cfg.aramSize = (triggerAux s).toNat + (8 * k + r) + 0x400000 :=
    Nat.mod_eq_of_lt (by omega)
  rw [← hindex]
  exact read_storeRun_mirror (b := aramArm v s) hinv.cfg (triggerAux_lt s) (triggerGranules_lt v s) hinv.aramWf.1
    ((mirrors_iff s.arInfo).2 hpolicy) hlimit hsize hk hr hlast'

end Sys2Proof.Machine
end

section
/-! The mailbox bridge: what a read of a mailbox half leaves, with the slice account of the high halves, and the forwarded writes
(spec 44_mailbox.md R271 to R277). -/

namespace Sys2Proof.Machine

/-- The core's answer to a mailbox read, and the one record and the one answer it takes. -/
theorem coreReadMailbox_eq (half : MailHalf) (box : MailBox) (s : State) :
    coreReadMailbox half box s = (BitVec.ofNat 16 (nextAnswer s), { s with
      log := s.log ++ [.coreReadMailbox half box (BitVec.ofNat 16 (nextAnswer s))]
      answers := (afterAnswer s).answers
      draws := (afterAnswer s).draws }) := by
  rw [coreReadMailbox, afterAnswer_eq s]
  rfl

/-- The records of a slice account: the question to the core, and the slice when there is one (spec 44_mailbox.md R276). -/
def sliceEntries (s : State) : List LogEntry :=
  .coreIsCycleStepped s.cfg.coreCycleStepped :: if s.cfg.coreCycleStepped = true ∧ 72 < s.dspSlice then [.coreUpdate 72] else []

theorem sliceAccount_eq (s : State) : sliceAccount s = { s with
    dspSlice := if s.cfg.coreCycleStepped = true ∧ 72 < s.dspSlice then s.dspSlice - 72 else s.dspSlice
    log := s.log ++ sliceEntries s } := by
  by_cases h : s.cfg.coreCycleStepped = true ∧ 72 < s.dspSlice
  · rw [sliceAccount_step h, sliceEntries, if_pos h, if_pos h]
  · rw [sliceAccount_none h, sliceEntries, if_neg h, if_neg h]

/-- The state a read of a high half leaves. -/
theorem coreReadMailbox_sliceAccount (box : MailBox) (s : State) :
    coreReadMailbox .hi box (sliceAccount s) = (BitVec.ofNat 16 (nextAnswer s), { s with
      dspSlice := if s.cfg.coreCycleStepped = true ∧ 72 < s.dspSlice then s.dspSlice - 72 else s.dspSlice
      log := s.log ++ (sliceEntries s ++ [.coreReadMailbox .hi box (BitVec.ofNat 16 (nextAnswer s))])
      answers := (afterAnswer s).answers
      draws := (afterAnswer s).draws }) := by
  obtain ⟨hanswers, hdraws⟩ := afterAnswer_fields (s := sliceAccount s) (t := s) (by rw [sliceAccount_eq]) (by rw [sliceAccount_eq])
  rw [coreReadMailbox_eq, hanswers, hdraws, sliceAccount_eq, List.append_assoc]
  rfl

/-- Without its question to the core, the record of a high read is the slice, when there is one, and the read. -/
theorem sliceEntries_append_filter (box : MailBox) (a : Half) (s : State) :
    (sliceEntries s ++ [LogEntry.coreReadMailbox .hi box a]).filter (fun e => e != .coreIsCycleStepped s.cfg.coreCycleStepped) =
      (if s.cfg.coreCycleStepped = true ∧ 72 < s.dspSlice then [.coreUpdate 72] else []) ++ [.coreReadMailbox .hi box a] := by
  unfold sliceEntries
  split <;> simp

/-- Settles O17: the slice is taken only from a budget above it, and the core is asked after it. -/
theorem highMailboxReadsAccountOneSlice : Obligations.HighMailboxReadsAccountOneSlice := by
  intro s h box
  let read := coreReadMailbox .hi box (sliceAccount s)
  refine ⟨read.1, read.2.replied (.half read.1), sliceEntries s ++ [.coreReadMailbox .hi box read.1], ?_, ?_⟩
  · cases box with
    | toDSP => exact readStep_of_live rdMboxToHi h
    | fromDSP => exact readStep_of_live rdMboxFromHi h
  · have hread : read = _ := coreReadMailbox_sliceAccount box s
    rw [hread]
    refine ⟨rfl, sliceEntries_append_filter box _ s, fun x rest hans => ⟨?_, afterAnswer_answers hans⟩, fun hpos => ?_⟩
    · rw [nextAnswer_cons hans]
    · change 0 < if s.cfg.coreCycleStepped = true ∧ 72 < s.dspSlice then s.dspSlice - 72 else s.dspSlice
      split <;> omega

/-- Settles O18: the core is asked, or told, and nothing else happens. -/
theorem lowReadsAndMailboxWritesOnlyCallTheCore : Obligations.LowReadsAndMailboxWritesOnlyCallTheCore := by
  intro s h
  refine ⟨fun box => ?_, fun v => ⟨quietStep_next (op := wrMboxToHi v) _ h rfl rfl, quietStep_next (op := wrMboxToLo v) _ h rfl rfl⟩⟩
  let read := coreReadMailbox .lo box s
  refine ⟨read.1, read.2.replied (.half read.1), ?_, ?_⟩
  · cases box with
    | toDSP => exact readStep_of_live rdMboxToLo h
    | fromDSP => exact readStep_of_live rdMboxFromLo h
  · have hread : read = _ := coreReadMailbox_eq .lo box s
    rw [hread]
    refine ⟨rfl, fun x rest hans => ⟨?_, afterAnswer_answers hans⟩⟩
    rw [nextAnswer_cons hans]

end Sys2Proof.Machine
end

section
/-! Deliveries: which entry is taken, what a `DSPINT` delivery leaves, and why none goes ahead (spec 45_host_events.md R292, R293,
R295). -/

namespace Sys2Proof.Machine

/-- Where some entry may be delivered, one is. -/
theorem exists_deliverable {kind : EventKind} {seq : Nat} {s : State} (h : ∃ e ∈ s.pending, mayFire kind seq s e) :
    ∃ e t, deliverable kind seq s = .ok (e, t) := by
  obtain ⟨e, hm, he⟩ := h
  cases hd : deliverable kind seq s with
  | error w => exact absurd he ((deliverable_error.1 hd).1 e hm)
  | ok r => exact ⟨r.1, r.2, rfl⟩

/-! ## The kinds raised -/

/-- The bits raised for a set of kinds, each by its number (41_control_interrupt.md R180). -/
theorem kindsRaised_getLsbD (k : KindSet) {b : Nat} (hb : b < 16) : (k.bits &&& kindBits).getLsbD b =
    ((decide (b = 3) && k.a) || (decide (b = 5) && k.b) || (decide (b = 7) && k.c)) := by
  have hall : ∀ (x y z : Bool) (p : Fin 16), ((KindSet.mk x y z).bits &&& kindBits).getLsbD p =
      ((decide (p.val = 3) && x) || (decide (p.val = 5) && y) || (decide (p.val = 7) && z)) := by decide
  exact hall k.a k.b k.c ⟨b, hb⟩

theorem eq_dspInt_of_kindOf {w : Callback} (h : kindOf w = .dspInt) : w = .dspInt (payloadKinds w) := by
  cases w with
  | dspInt kinds => rfl
  | aramInt => cases h

/-- What a `DSPINT` delivery leaves: the entry removed, its kinds raised, the line driven. -/
theorem exec_fireDspint_of_deliverable {s u : State} {seq : Nat} {e : Entry} (hlive : s.status = .live)
    (h : deliverable .dspInt seq s = .ok (e, u)) :
    ∃ t, exec (.fireDspint seq) s = .next t ∧
      t = { u with
        pending := u.pending.erase e, ctrl := t.ctrl, line := lineOf t.ctrl, log := u.log ++ [.setLine (lineOf t.ctrl)]
        reply := .none } ∧
      ∀ b, b < 16 → t.ctrl.getLsbD b = (u.ctrl.getLsbD b || (decide (b = 3) && (payloadKinds e.what).a) ||
        (decide (b = 5) && (payloadKinds e.what).b) || (decide (b = 7) && (payloadKinds e.what).c)) := by
  refine ⟨(raise (payloadKinds e.what) (removeEntry e u)).replied .none, ?_, rfl, fun b hb => ?_⟩
  · show execFireDspint seq s = _
    rw [execFireDspint, whenLive_of_live _ hlive, h]
  · rw [replied_ctrl, raise_ctrl, BitVec.getLsbD_or, kindsRaised_getLsbD _ hb, removeEntry_ctrl]
    simp only [Bool.or_assoc]

/-- Settles O45: the entry delivered is the only one there is, or one of those that may be delivered. -/
theorem deliveryRaisesTheRequestedKinds : Obligations.DeliveryRaisesTheRequestedKinds := by
  refine fun s seq hlive => ⟨fun pre post k due o hp he hothers => ?_, fun h => ?_⟩
  · obtain ⟨t, hx, ht, hbits⟩ := exec_fireDspint_of_deliverable hlive (deliverable_only hp he hothers)
    rw [hp, erase_of_only_mayFire he hothers] at ht
    exact ⟨t, hx, ht, hbits⟩
  · obtain ⟨e, u, hd⟩ := exists_deliverable h
    obtain ⟨t, hx, ht, hbits⟩ := exec_fireDspint_of_deliverable hlive hd
    obtain ⟨hm, he, x, d, rfl⟩ := deliverable_ok hd
    exact ⟨t, e, payloadKinds e.what, hm, he, eq_dspInt_of_kindOf he.1, hx, by rw [ht], hbits⟩

/-! ## Why no delivery goes ahead -/

theorem isEntry_iff {kind : EventKind} {seq : Nat} {e : Entry} : isEntry kind seq e = true ↔ kindOf e.what = kind ∧ e.seq = seq := by
  simp [isEntry]

theorem whyStuck_of_no_entry {kind : EventKind} {seq : Nat} {s : State}
    (h : ∀ e ∈ s.pending, kindOf e.what = kind → e.seq ≠ seq) : whyStuck kind seq s = .noEntry seq := by
  have hnone : s.pending.any (isEntry kind seq) = false :=
    List.any_eq_false.2 fun e hm hentry => h e hm (isEntry_iff.1 hentry).1 (isEntry_iff.1 hentry).2
  simp [whyStuck, hnone]

/-- With an entry there, the cause is its time or the order of those that are due. -/
theorem whyStuck_of_entry {kind : EventKind} {seq : Nat} {s : State}
    (h : ∃ e ∈ s.pending, kindOf e.what = kind ∧ e.seq = seq) : whyStuck kind seq s =
      if ∃ e ∈ s.pending, kindOf e.what = kind ∧ e.seq = seq ∧ e.due ≤ s.now then .outOfOrder seq else .notDue seq := by
  obtain ⟨e, hm, hentry⟩ := h
  have hany : s.pending.any (isEntry kind seq) = true := List.any_eq_true.2 ⟨e, hm, isEntry_iff.2 hentry⟩
  simp [whyStuck, hany, isEntry_iff, and_assoc]

/-- A delivery that finds no entry to deliver stops with the cause. -/
theorem exec_fireRow_of_none {kind : EventKind} {seq : Nat} {s : State} (hlive : s.status = .live)
    (h : ∀ e ∈ s.pending, ¬mayFire kind seq s e) : exec (fireRow kind seq) s = .fault (.stuck (whyStuck kind seq s)) := by
  have hd := deliverable_error.2 ⟨h, rfl⟩
  cases kind with
  | dspInt =>
    show execFireDspint seq s = _
    rw [execFireDspint, whenLive_of_live _ hlive, hd]
  | aramInt =>
    show execFireAramint seq s = _
    rw [execFireAramint, whenLive_of_live _ hlive, hd]

/-- A delivery of either kind removes the entry it takes. -/
theorem exec_fireRow_of_deliverable {kind : EventKind} {seq : Nat} {s u : State} {e : Entry} (hlive : s.status = .live)
    (h : deliverable kind seq s = .ok (e, u)) : ∃ t, exec (fireRow kind seq) s = .next t ∧ t.pending = s.pending.erase e := by
  obtain ⟨-, -, x, d, rfl⟩ := deliverable_ok h
  cases kind with
  | dspInt =>
    obtain ⟨t, hx, ht, -⟩ := exec_fireDspint_of_deliverable hlive h
    exact ⟨t, hx, by rw [ht]⟩
  | aramInt => exact ⟨_, exec_fireAramint_of_deliverable hlive h, rfl⟩

/-- Settles O46: in each of the first three cases no entry may be delivered, and the cause is the one named. -/
theorem deliveryWaitsForTimeAndOrder : Obligations.DeliveryWaitsForTimeAndOrder := by
  refine fun s kind seq hlive => ⟨fun habsent => ?_, fun hthere hahead => ?_, fun hdue hblocked => ?_, fun e hm he rest => ?_⟩
  · rw [exec_fireRow_of_none hlive fun e hm ⟨hkind, hseq, _⟩ => habsent e hm hkind hseq, whyStuck_of_no_entry habsent]
  · rw [exec_fireRow_of_none hlive fun e hm ⟨hkind, hseq, hdue, _⟩ => Nat.not_le.2 (hahead e hm hkind hseq) hdue,
      whyStuck_of_entry hthere, if_neg]
    rintro ⟨e, hm, hkind, hseq, hdue⟩
    exact Nat.not_le.2 (hahead e hm hkind hseq) hdue
  · have hnone : ∀ e ∈ s.pending, ¬mayFire kind seq s e := by
      rintro e hm ⟨hkind, hseq, hnow, hfirst⟩
      obtain ⟨x, hx, hxkind, horigin, hxseq, hxdue⟩ := hblocked e hm hkind hseq hnow
      exact Nat.not_lt.2 hxdue (hfirst x hx hxkind horigin hxseq)
    obtain ⟨e, hm, hkind, hseq, hnow⟩ := hdue
    rw [exec_fireRow_of_none hlive hnone, whyStuck_of_entry ⟨e, hm, hkind, hseq⟩, if_pos ⟨e, hm, hkind, hseq, hnow⟩]
  · obtain ⟨n, u, hd⟩ := deliverable_any hm he rest
    exact ⟨n, exec_fireRow_of_deliverable (s := { s with answers := n :: rest }) hlive hd⟩

end Sys2Proof.Machine
end

section
/-! The queue: how entries enter it by a core request, and how they leave it (spec 45_host_events.md R294, R296). -/

namespace Sys2Proof.Machine

/-- An entry that a removal takes out is the one removed. -/
theorem eq_of_mem_of_not_mem_erase {e x : Entry} {l : List Entry} (hm : e ∈ l) (h : e ∉ l.erase x) : e = x := by
  by_contra hne
  exact h ((List.mem_erase_of_ne hne).2 hm)

/-- An entry leaves `pending` only by its own delivery or with the whole queue. -/
theorem Effect.entry_leaves {i : Instr} {s t : State} {e : Entry} (he : Effect i s t) (hm : e ∈ s.pending) (hgone : e ∉ t.pending) :
    (i = .fireDspint e.seq ∧ kindOf e.what = .dspInt) ∨ (i = .fireAramint e.seq ∧ kindOf e.what = .aramInt) ∨
      i = .shutdown ∨ i = .init ∨ ∃ snap q, i = .restore snap q := by
  cases he with
  | fireDspint seq _ x _ _ _ hx =>
    obtain rfl := eq_of_mem_of_not_mem_erase hm hgone
    obtain ⟨hkind, hseq, -⟩ := hx
    exact .inl ⟨by rw [hseq], hkind⟩
  | fireAramint seq _ x _ _ _ hx =>
    obtain rfl := eq_of_mem_of_not_mem_erase hm hgone
    obtain ⟨hkind, hseq, -⟩ := hx
    exact .inr (.inl ⟨by rw [hseq], hkind⟩)
  | shutdown => exact .inr (.inr (.inl rfl))
  | init => exact .inr (.inr (.inr (.inl rfl)))
  | restore snap q => exact .inr (.inr (.inr (.inr ⟨snap, q, rfl⟩)))
  | trigger _ _ _ _ _ hrow hop =>
    obtain ⟨_, _, _, _, _, _, _, _, _, rfl⟩ := triggerRow_frame hrow hop
    exact absurd (List.mem_append_left _ hm) hgone
  | auCtl _ _ _ _ _ hop =>
    obtain ⟨-, rfl⟩ | ⟨-, _, rfl⟩ := wrAuCtl_frame hop
    · exact absurd hm hgone
    · exact absurd (List.mem_append_left _ hm) hgone
  | tick _ _ hop => obtain ⟨_, rfl⟩ | ⟨_, _, rfl⟩ | ⟨_, _, _, rfl⟩ := tickOp_frame hop <;> exact absurd hm hgone
  | coreIrq => exact absurd (List.mem_append_left _ hm) hgone
  | plain | ctrl | sliceCredit | advance | snapshot => exact absurd hm hgone

/-- Settles O50, by how an entry leaves the queue in each effect. -/
theorem nothingCancelsARequest : Obligations.NothingCancelsARequest :=
  fun _ _ _ _ hw hx => (exec_effect hw hx).entry_leaves

theorem KindSet.subset_iff {x y : KindSet} : x.subset y = true ↔
    (x.a = true → y.a = true) ∧ (x.b = true → y.b = true) ∧ (x.c = true → y.c = true) := by
  simp [KindSet.subset, imp_iff_not_or, and_assoc]

theorem coreMayRaise_iff {p : Params} {k : KindSet} : coreMayRaise p k = true ↔ k ≠ ⟨false, false, false⟩ ∧
    (k.a = true → p.coreIrqKinds.a = true) ∧ (k.b = true → p.coreIrqKinds.b = true) ∧ (k.c = true → p.coreIrqKinds.c = true) := by
  rw [coreMayRaise, Bool.and_eq_true, bne_iff_ne, KindSet.subset_iff, KindSet.empty]

/-- Settles O47: the request is granted exactly for a nonempty allowed set. -/
theorem coreRequestOnlyAppends : Obligations.CoreRequestOnlyAppends := by
  refine fun s delay k hlive => ⟨fun hne ha hb hc => ?_, fun hnot => ?_⟩
  · have hmay := coreMayRaise_iff.2 ⟨hne, ha, hb, hc⟩
    exact (whenLive_of_live _ hlive).trans (if_pos hmay)
  · have hmay : ¬coreMayRaise s.cfg k = true := by
      rw [coreMayRaise_iff]
      rintro ⟨hne, ha, hb, hc⟩
      obtain h | ⟨hk, hp⟩ | ⟨hk, hp⟩ | ⟨hk, hp⟩ := hnot
      · exact hne h
      · exact Bool.false_ne_true (hp.symm.trans (ha hk))
      · exact Bool.false_ne_true (hp.symm.trans (hb hk))
      · exact Bool.false_ne_true (hp.symm.trans (hc hk))
    exact (whenLive_of_live _ hlive).trans (if_neg hmay)

/-- Settles O48: each row changes its one counter. -/
theorem creditAndAdvanceMoveTheirCounters : Obligations.CreditAndAdvanceMoveTheirCounters := fun _ _ hlive =>
  ⟨whenLive_of_live _ hlive, fun h => (whenLive_of_live _ hlive).trans (if_neg (Nat.not_lt.2 h)),
    fun h => (whenLive_of_live _ hlive).trans (if_pos h)⟩

end Sys2Proof.Machine
end

section
/-! Snapshot and restore: the items taken, the shape, the items loaded, and the round trip (spec 45_host_events.md R305 to R308). -/

namespace Sys2Proof

/-- Below the bound, cells written over memories that agree there read as if none of them were dropped. -/
theorem Memory.read_writeAll_cellsBelow (cells : List (Nat × Byte)) {n x : Nat} (hx : x < n) {m m' : Memory} (hm : m.rising)
    (hm' : m'.rising) (h : m.read x = m'.read x) : (m.writeAll (cellsBelow n cells)).read x = (m'.writeAll cells).read x := by
  induction cells generalizing m m' with
  | nil => exact h
  | cons c rest ih =>
    obtain ⟨a, b⟩ := c
    by_cases ha : a < n
    · have hkeep : cellsBelow n ((a, b) :: rest) = (a, b) :: cellsBelow n rest := List.filter_cons_of_pos (decide_eq_true ha)
      rw [hkeep]
      refine ih (Memory.rising_write hm a b) (Memory.rising_write hm' a b) ?_
      rw [Memory.read_write m a x b hm, Memory.read_write m' a x b hm', h]
    · have hdrop : cellsBelow n ((a, b) :: rest) = cellsBelow n rest := List.filter_cons_of_neg (by simpa using ha)
      rw [hdrop]
      refine ih hm (Memory.rising_write hm' a b) ?_
      rw [Memory.read_write_other m' a x b (by omega), h]

theorem Memory.read_build_cellsBelow (cells : List (Nat × Byte)) {n x : Nat} (hx : x < n) :
    (Memory.build (cellsBelow n cells)).read x = (Memory.build cells).read x :=
  Memory.read_writeAll_cellsBelow cells hx Memory.wf_nil.1 Memory.wf_nil.1 rfl

namespace Machine

/-! ## The snapshot -/

theorem exec_snapshot_of_live {s : State} (hlive : s.status = .live) : exec .snapshot s = .next { s with
    log := s.log ++ [.coreSave (coreSaved s)], answers := (afterAnswer s).answers, draws := (afterAnswer s).draws
    reply := .snapshot (snapshotOf s) } := by
  show execSnapshot s = _
  rw [execSnapshot, whenLive_of_live _ hlive, afterAnswer_eq s]
  rfl

/-- Settles O51: the core's save is a draw in the instance's shape. -/
theorem snapshotHoldsTheItems : Obligations.SnapshotHoldsTheItems := fun s hlive =>
  ⟨_, coreSaved s, exec_snapshot_of_live hlive, rfl, rfl⟩

/-! ## The restore -/

/-- The state a restore leaves. -/
def restored (snap : Snapshot) (q : List Entry) (s : State) : State :=
  { loadItems snap s with
    pending := q, line := lineOf snap.ctrl
    log := s.log ++ [.coreRestore snap.core (nextAnswer s != 0), .setLine (lineOf snap.ctrl)]
    answers := (afterAnswer s).answers, draws := (afterAnswer s).draws, reply := .none }

theorem exec_restore_of_shape {s : State} {snap : Snapshot} (q : List Entry) (hlive : s.status = .live)
    (h : shapeOf snap = liveShape s) : exec (.restore snap q) s = .next (restored snap q s) := by
  obtain ⟨hanswers, hdraws⟩ := afterAnswer_fields (s := loadItems snap s) (t := s) rfl rfl
  show execRestore snap q s = _
  rw [execRestore, whenLive_of_live _ hlive, if_pos h, coreRestore_eq, hanswers, hdraws]
  simp [restored, updateLine, State.record, State.replied, nextAnswer]

theorem exec_restore_of_other_shape {s : State} {snap : Snapshot} (q : List Entry) (hlive : s.status = .live)
    (h : shapeOf snap ≠ liveShape s) : exec (.restore snap q) s = .fault .serializationShapeMismatch :=
  (whenLive_of_live _ hlive).trans (if_neg h)

theorem shapeOf_eq_liveShape_iff {snap : Snapshot} {s : State} : shapeOf snap = liveShape s ↔
    snap.aram.map (fun i => i.size) = (if s.cfg.unified then none else some s.cfg.aramSize) ∧ snap.core.shape = s.cfg.coreShape := by
  rw [shapeOf, liveShape, Prod.mk.injEq]

theorem aramLoaded_of_absent {snap : Snapshot} {s : State} (h : snap.aram = none) : aramLoaded snap s = s.aram := by
  rw [aramLoaded, h]

theorem aramLoaded_of_image {snap : Snapshot} {img : AramImage} (h : snap.aram = some img) (s : State) :
    aramLoaded snap s = Memory.build (cellsBelow img.size img.cells) := by
  rw [aramLoaded, h]

/-- Settles O52: the shape is the test of the fault, and the store's bytes below its length are the image's. -/
theorem restoreLoadsOrFaults : Obligations.RestoreLoadsOrFaults := by
  refine fun s snap q hlive => ⟨fun hsize hcore => ?_, fun hother => ?_⟩
  · refine ⟨_, nextAnswer s != 0, exec_restore_of_shape q hlive (shapeOf_eq_liveShape_iff.2 ⟨hsize, hcore⟩), rfl,
      fun x rest hans => ⟨by rw [nextAnswer_cons hans], afterAnswer_answers hans⟩, aramLoaded_of_absent, fun img himg x hx => ?_⟩
    have hread : (aramLoaded snap s).read x = (Memory.build img.cells).read x := by
      rw [aramLoaded_of_image himg, Memory.read_build_cellsBelow _ hx]
    exact ⟨hread, fun hwf => hread.trans (by rw [Memory.build_of_wf hwf])⟩
  · have hfault := exec_restore_of_other_shape q hlive fun h => not_and_or.2 hother (shapeOf_eq_liveShape_iff.1 h)
    exact ⟨hfault, by rw [hfault]; rfl⟩

/-! ## The round trip -/

theorem shapeOf_snapshotOf (s : State) : shapeOf (snapshotOf s) = liveShape s := by
  refine shapeOf_eq_liveShape_iff.2 ⟨?_, rfl⟩
  show (aramItem s).map (fun i => i.size) = _
  unfold aramItem
  split <;> rfl

theorem liveShape_of_cfg {s u : State} (h : u.cfg = s.cfg) : liveShape u = liveShape s := by
  rw [liveShape, liveShape, h]

/-- A dedicated store that is canonical and within its size is loaded back as it was. -/
theorem aramLoaded_snapshotOf {s : State} (h : s.Inv) (hded : s.cfg.unified = false) (u : State) :
    aramLoaded (snapshotOf s) u = s.aram := by
  have hitem : (snapshotOf s).aram = some ⟨s.cfg.aramSize, s.aram⟩ := if_neg (by simp [hded])
  rw [aramLoaded_of_image hitem, cellsBelow_of_below h.aramBelow, Memory.build_of_wf h.aramWf]

theorem aramLoaded_snapshotOf_unified {s : State} (huni : s.cfg.unified = true) (u : State) :
    aramLoaded (snapshotOf s) u = u.aram := aramLoaded_of_absent (if_pos huni)

/-- Settles O53: the snapshot has the instance's shape, and its items are the state's fields. -/
theorem restoreUndoesSnapshot : Obligations.RestoreUndoesSnapshot := by
  intro s t u snap q hinv hs hu hcfg hx hreply
  obtain rfl := Host.Outcome.next.inj ((exec_snapshot_of_live hs).symm.trans hx)
  obtain rfl := Reply.snapshot.inj hreply
  have hshape : shapeOf (snapshotOf s) = liveShape u := (shapeOf_snapshotOf s).trans (liveShape_of_cfg hcfg).symm
  exact ⟨_, exec_restore_of_shape q hu hshape, rfl, rfl, rfl, rfl, rfl, rfl, rfl, rfl, rfl, rfl, rfl, rfl, rfl, hinv.line.symm,
    fun hded => aramLoaded_snapshotOf hinv hded u, fun huni => aramLoaded_snapshotOf_unified huni u⟩

end Machine
end Sys2Proof
end

section
/-! The power cycle: shutdown, and the state that init leaves after it (spec 45_host_events.md R310 to R312). -/

namespace Sys2Proof.Machine

/-- The state a shutdown leaves. -/
def shutDown (s : State) : State :=
  { s with
    log := s.log ++ [.coreShutdown], aram := if s.cfg.unified then s.aram else [], pending := [], status := .shut, reply := .none }

theorem exec_shutdown_of_live {s : State} (hlive : s.status = .live) : exec .shutdown s = .next (shutDown s) :=
  whenLive_of_live _ hlive

theorem shutDown_aram_of_unified {s : State} (h : s.cfg.unified = true) : (shutDown s).aram = s.aram := if_pos h

/-- Settles O55: the pool is its owner's. -/
theorem shutdownDropsTheRequests : Obligations.ShutdownDropsTheRequests := fun s hlive =>
  ⟨shutDown s, exec_shutdown_of_live hlive, rfl, shutDown_aram_of_unified⟩

theorem exec_init_shutDown (s : State) : exec .init (shutDown s) = .next ((initialised (shutDown s)).replied .none) :=
  execInit_eq_next.2 ⟨.inr rfl, rfl⟩

/-- What `INIT` leaves depends on the state before it only in the parameters, and in what is not the block's to reset. -/
theorem initialised_eq_of_cfg {s t : State} (h : s.cfg = t.cfg) : initialised s = { initialised t with
    aram := aramAtInit s, mem := s.mem, now := s.now, inbox := s.inbox, answers := s.answers, draws := s.draws + 1
    reply := s.reply } := by
  simp only [initialised, h]

/-- Settles O56: the two states agree in the parameters, so `INIT` leaves the same. -/
theorem nothingSurvivesAPowerCycle : Obligations.NothingSurvivesAPowerCycle := by
  intro s₁ s₂ hcfg h₁ h₂
  have hcfg' : (shutDown s₁).cfg = (shutDown s₂).cfg := hcfg
  refine ⟨shutDown s₁, _, shutDown s₂, _, exec_shutdown_of_live h₁, exec_init_shutDown s₁, exec_shutdown_of_live h₂,
    exec_init_shutDown s₂, ?_, rfl, rfl, fun huni => ?_⟩
  · rw [initialised_eq_of_cfg hcfg']
    rfl
  · exact (if_pos huni).trans (shutDown_aram_of_unified huni)

end Sys2Proof.Machine
end

section
/-! Stops of a live block: what a row that answers no next state can end in, said once over all rows (spec 60_exceptions.md R334,
R335). -/

namespace Sys2Proof.Machine

/-! ## Faults of register writes -/

/-- A 16-bit write faults only as a main-memory access does: only two of the three special offsets access main memory. -/
theorem write16_fault {off v : Half} {s : State} {f : Fault} (h : write16 off v s = .error f) : ∃ a n, f = .mainUnmapped a n := by
  cases hs : specialWrite off with
  | false =>
    obtain ⟨t, ht, -⟩ := write16_plain v s hs
    cases h.symm.trans ht
  | true =>
    simp only [specialWrite, Bool.or_eq_true, beq_iff_eq] at hs
    obtain (rfl | rfl) | rfl := hs
    · cases (wrCtrl_eq v s).symm.trans h
    · exact wrArCntLo_fault h
    · exact wrAuCtl_fault h

theorem write32_fault {off : Half} {d : Word} {s : State} {f : Fault} (h : write32 off d s = .error f) :
    ∃ a n, f = .mainUnmapped a n := by
  unfold write32 at h
  split at h
  · next hhi => exact Except.error.inj h ▸ write16_fault hhi
  · exact write16_fault h

/-! ## The stops -/

/-- The rows that may access main memory: an audio-control write, a count write, a 32-bit write, a tick. -/
def mayAccessMain (i : Instr) : Prop :=
  (∃ v, i = .wr16AuCtl v) ∨ (∃ v, i = .wr16ArCntLo v) ∨ (∃ o d, i = .wr32 o d) ∨ i = .tick

/-- How a row can stop on a live block. -/
inductive Stop : Instr → State → Result → Prop
  | mainUnmapped (i : Instr) (s : State) (a : Word) (n : Nat) : mayAccessMain i → Stop i s (.fault (.mainUnmapped a n))
  | shapeMismatch (snap : Snapshot) (q : List Entry) (s : State) : Stop (.restore snap q) s (.fault .serializationShapeMismatch)
  | notDelivered (kind : EventKind) (seq : Nat) (s : State) (w : Stuck) : Stop (fireRow kind seq) s (.fault (.stuck w))
  | notInitialised (s : State) (w : Stuck) : Stop .init s (.fault (.stuck w))
  | timeReversal (n : Nat) (s : State) : n < s.now → Stop (.advance n) s (.refused (.timeReversal n))
  | kindNotAllowed (d : Nat) (k : KindSet) (s : State) : Stop (.coreIrq d k) s (.refused (.coreKindNotAllowed k))

/-- A quiet step stops only where its effect meets a fault. -/
theorem quietStep_next_or_stop {i : Instr} {op : State → Except Fault State} {s : State} (hlive : s.status = .live)
    (hi : mayAccessMain i) (hop : ∀ f, op s = .error f → ∃ a n, f = .mainUnmapped a n) :
    (∃ t, quietStep op s = .next t) ∨ Stop i s (quietStep op s) := by
  cases h : op s with
  | ok u => exact .inl ⟨_, quietStep_of_ok hlive h⟩
  | error f =>
    obtain ⟨a, n, rfl⟩ := hop f h
    exact .inr (quietStep_of_error hlive h ▸ .mainUnmapped i s a n hi)

/-- A delivery of either kind stops only where no entry may be delivered (45_host_events.md R292, R295). -/
theorem exec_fireRow_next_or_stop (kind : EventKind) (seq : Nat) {s : State} (hlive : s.status = .live) :
    (∃ t, exec (fireRow kind seq) s = .next t) ∨ Stop (fireRow kind seq) s (exec (fireRow kind seq) s) := by
  cases hd : deliverable kind seq s with
  | ok r =>
    obtain ⟨t, ht, -⟩ := exec_fireRow_of_deliverable hlive hd
    exact .inl ⟨t, ht⟩
  | error w => exact .inr (exec_fireRow_of_none hlive (deliverable_error.1 hd).1 ▸ .notDelivered kind seq s _)

/-- Every row completes on a live block or stops in one of these ways; the rows not named here always complete. -/
theorem exec_next_or_stop (i : Instr) {s : State} (hlive : s.status = .live) :
    (∃ t, exec i s = .next t) ∨ Stop i s (exec i s) := by
  cases i with
  | wr16AuCtl v => exact quietStep_next_or_stop hlive (.inl ⟨v, rfl⟩) fun _ => wrAuCtl_fault
  | wr16ArCntLo v => exact quietStep_next_or_stop hlive (.inr (.inl ⟨v, rfl⟩)) fun _ => wrArCntLo_fault
  | wr32 off d => exact quietStep_next_or_stop hlive (.inr (.inr (.inl ⟨off, d, rfl⟩))) fun _ => write32_fault
  | tick => exact quietStep_next_or_stop hlive (.inr (.inr (.inr rfl))) fun _ => tickOp_fault
  | fireDspint seq => exact exec_fireRow_next_or_stop .dspInt seq hlive
  | fireAramint seq => exact exec_fireRow_next_or_stop .aramInt seq hlive
  | restore snap q =>
    by_cases hshape : shapeOf snap = liveShape s
    · exact .inl ⟨_, exec_restore_of_shape q hlive hshape⟩
    · exact .inr (exec_restore_of_other_shape q hlive hshape ▸ .shapeMismatch snap q s)
  | init =>
    have hx : exec .init s = .fault (.stuck .statusForbids) := execInit_of_not_enabled (by simp [hlive]) (by simp [hlive])
    exact .inr (hx ▸ .notInitialised s _)
  | advance n =>
    by_cases hn : n < s.now
    · have hx : exec (.advance n) s = .refused (.timeReversal n) := (whenLive_of_live _ hlive).trans (if_pos hn)
      exact .inr (hx ▸ .timeReversal n s hn)
    · exact .inl ⟨_, (whenLive_of_live _ hlive).trans (if_neg hn)⟩
  | coreIrq delay kinds =>
    by_cases hk : coreMayRaise s.cfg kinds = true
    · exact .inl ⟨_, (whenLive_of_live _ hlive).trans (if_pos hk)⟩
    · have hx : exec (.coreIrq delay kinds) s = .refused (.coreKindNotAllowed kinds) :=
        (whenLive_of_live _ hlive).trans (if_neg hk)
      exact .inr (hx ▸ .kindNotAllowed delay kinds s)
  | _ => exact .inl ⟨_, whenLive_of_live _ hlive⟩

/-- A row that answers no next state on a live block stopped in one of these ways. -/
theorem stop_of_exec {i : Instr} {s : State} {r : Result} (hlive : s.status = .live) (h : exec i s = r) (hr : ∀ t, r ≠ .next t) :
    Stop i s r := by
  subst h
  exact (exec_next_or_stop i hlive).resolve_left fun ⟨t, ht⟩ => hr t ht

/-- Only a live block refuses: in every other status a row is not enabled or is `INIT`, which refuses nothing. -/
theorem exec_refused_live {i : Instr} {s : State} {r : Refusal} (h : exec i s = .refused r) : s.status = .live := by
  by_contra hdead
  by_cases hi : i = .init
  · subst hi
    by_cases hs : s.status = .uninit ∨ s.status = .shut
    · cases (execInit_eq_next.2 ⟨hs, rfl⟩).symm.trans h
    · obtain ⟨huninit, hshut⟩ := not_or.1 hs
      cases (execInit_of_not_enabled huninit hshut).symm.trans h
  · cases (exec_of_not_live hi hdead).symm.trans h

/-- Settles O10, by the stops that are faults and those that are refusals. -/
theorem stopsComeOnlyFromTheirRules : Obligations.StopsComeOnlyFromTheirRules := by
  refine ⟨fun i s f hlive hx => ?_, fun i s r hx => ?_⟩
  · cases stop_of_exec hlive hx (by simp) with
    | mainUnmapped _ _ a n hi => exact .inl ⟨⟨a, n, rfl⟩, hi⟩
    | shapeMismatch snap q => exact .inr (.inl ⟨rfl, snap, q, rfl⟩)
    | notDelivered kind seq _ w =>
      cases kind with
      | dspInt => exact .inr (.inr ⟨⟨w, rfl⟩, .inl ⟨seq, rfl⟩⟩)
      | aramInt => exact .inr (.inr ⟨⟨w, rfl⟩, .inr (.inl ⟨seq, rfl⟩)⟩)
    | notInitialised _ w => exact .inr (.inr ⟨⟨w, rfl⟩, .inr (.inr rfl)⟩)
  · cases stop_of_exec (exec_refused_live hx) hx (by simp) with
    | timeReversal n _ hn => exact .inl ⟨n, rfl, hn, rfl⟩
    | kindNotAllowed d k => exact .inr ⟨d, k, rfl, rfl⟩

end Sys2Proof.Machine
end

section
/-! Virtual time: what each effect leaves in `now` (spec 45_host_events.md R297, 70_reset_and_hazards.md R388). -/

namespace Sys2Proof.Machine

/-- Time stays, or `ADVANCE` sets it to a value that is not behind it. -/
theorem Effect.time_moves {i : Instr} {s t : State} (he : Effect i s t) :
    t.now = s.now ∨ ∃ n, i = .advance n ∧ s.now ≤ n ∧ t.now = n := by
  cases he with
  | advance n _ hle => exact .inr ⟨n, rfl, hle, rfl⟩
  | trigger _ _ _ _ _ hrow hop =>
    obtain ⟨_, _, _, _, _, _, _, _, _, rfl⟩ := triggerRow_frame hrow hop
    exact .inl rfl
  | auCtl _ _ _ _ _ hop => obtain ⟨-, rfl⟩ | ⟨-, _, rfl⟩ := wrAuCtl_frame hop <;> exact .inl rfl
  | tick _ _ hop => obtain ⟨_, rfl⟩ | ⟨_, _, rfl⟩ | ⟨_, _, _, rfl⟩ := tickOp_frame hop <;> exact .inl rfl
  | plain | ctrl | fireDspint | fireAramint | coreIrq | sliceCredit | init | shutdown | snapshot | restore => exact .inl rfl

/-- Settles O49, by what moves virtual time in each effect. -/
theorem onlyAdvanceMovesTime : Obligations.OnlyAdvanceMovesTime := by
  intro i s t hw hx
  obtain hkept | ⟨n, hi, hle, hnow⟩ := (exec_effect hw hx).time_moves
  · exact ⟨absurd hkept, hkept.ge⟩
  · exact ⟨fun _ => ⟨n, hi⟩, hnow ▸ hle⟩

end Sys2Proof.Machine
end
